-- ==== Sys2Proof/Word.lean ====
section
/-! DEFINITION. The widths of VALU128 (00_scope.md R7, R8) as types, and nothing else: bytes, scalar words, vector
payloads, instruction words and register numbers. -/

namespace Sys2Proof

/-- A byte of memory (20_memory.md R40). -/
abbrev Byte := BitVec 8

/-- A 64-bit operand word, scalar result or byte address (XLEN and ADDRW of 00_scope.md R7). -/
abbrev Word := BitVec 64

/-- The 128 bits of a vector register (VLEN of 00_scope.md R7). -/
abbrev Payload := BitVec 128

/-- A 32-bit instruction word (ILEN of 00_scope.md R7). -/
abbrev InsnWord := BitVec 32

/-- A vector register number, V0 to V15 (10_state.md R24). -/
abbrev VIdx := Fin 16

/-- The sixteen operand words X[0] .. X[15] of a command (30_encoding.md R60). -/
abbrev Operands := Vector Word 16

end Sys2Proof
end

