-- ==== Sys2Proof/Syntax.lean ====
section
/-! DEFINITION. The nine vector kinds (10_state.md R22), the command packet of the CMD interface (30_encoding.md R60)
and the 47 commands (30_encoding.md R64), one constructor of Instr per row of spec/opcode_table.json. -/

namespace Sys2Proof

/-- The nine vector kinds of 10_state.md R22. -/
inductive Kind where
  | f64x2 | f32x4 | i32x4 | i16x8 | i8x16 | b2 | b4 | b8 | b16
  deriving DecidableEq, Repr

/-- N(K), the lane count (10_state.md R22). -/
def Kind.lanes : Kind → Nat
  | .f64x2 | .b2 => 2
  | .f32x4 | .i32x4 | .b4 => 4
  | .i16x8 | .b8 => 8
  | .i8x16 | .b16 => 16

/-- W(K), the bits of one lane (10_state.md R22). -/
def Kind.width : Kind → Nat
  | .f64x2 => 64
  | .f32x4 | .i32x4 => 32
  | .i16x8 => 16
  | .i8x16 => 8
  | .b2 | .b4 | .b8 | .b16 => 1

/-- BoolOf(K): the Bool kind with K's lane count (10_state.md R22). -/
def Kind.boolOf : Kind → Kind
  | .f64x2 | .b2 => .b2
  | .f32x4 | .i32x4 | .b4 => .b4
  | .i16x8 | .b8 => .b8
  | .i8x16 | .b16 => .b16

/-- One command as the host presents it on CMD: an instruction word and sixteen operand words (30_encoding.md R60). -/
structure Command where
  insn : InsnWord
  x    : Operands
  deriving DecidableEq, Repr

/-- The buffer operand of the LOAD and STORE commands: X[0] .. X[3] (20_memory.md R41, 46_load_store.md R220). -/
structure Buffer where
  index      : Word
  base       : Word
  byteLength : Word
  bkind      : Word
  deriving DecidableEq, Repr

/-- The 47 commands of 30_encoding.md R64. Fields as R65 gives them; a command that uses operand words (R67) holds the
words it uses, and CONS, SWZ and SHUF, whose number of words depends on `argc` or `k`, hold all sixteen (log entry
10). -/
inductive Instr where
  | check   (k : Kind) (vs1 : VIdx)
  | extract (k : Kind) (vs1 : VIdx) (index : Word)
  | replace (k : Kind) (vd vs1 : VIdx) (index scalar : Word)
  | splat   (k : Kind) (vd : VIdx) (scalar : Word)
  | cons    (k : Kind) (vd : VIdx) (argc : Fin 32) (x : Operands)
  | add     (k : Kind) (vd vs1 vs2 : VIdx)
  | sub     (k : Kind) (vd vs1 vs2 : VIdx)
  | mul     (k : Kind) (vd vs1 vs2 : VIdx)
  | div     (k : Kind) (vd vs1 vs2 : VIdx)
  | neg     (k : Kind) (vd vs1 : VIdx)
  | abs     (k : Kind) (vd vs1 : VIdx)
  | sqrt    (k : Kind) (vd vs1 : VIdx)
  | rcpa    (k : Kind) (vd vs1 : VIdx)
  | min     (k : Kind) (vd vs1 vs2 : VIdx)
  | max     (k : Kind) (vd vs1 vs2 : VIdx)
  | minnum  (k : Kind) (vd vs1 vs2 : VIdx)
  | maxnum  (k : Kind) (vd vs1 vs2 : VIdx)
  | eq      (k : Kind) (vd vs1 vs2 : VIdx)
  | ne      (k : Kind) (vd vs1 vs2 : VIdx)
  | lt      (k : Kind) (vd vs1 vs2 : VIdx)
  | le      (k : Kind) (vd vs1 vs2 : VIdx)
  | gt      (k : Kind) (vd vs1 vs2 : VIdx)
  | ge      (k : Kind) (vd vs1 vs2 : VIdx)
  | and     (k : Kind) (vd vs1 vs2 : VIdx)
  | or      (k : Kind) (vd vs1 vs2 : VIdx)
  | xor     (k : Kind) (vd vs1 vs2 : VIdx)
  | not     (k : Kind) (vd vs1 : VIdx)
  | sel     (k : Kind) (vd vs1 vs2 vs3 : VIdx)
  | selb    (k : Kind) (vd vs1 vs2 vs3 : VIdx)
  | shl     (k : Kind) (vd vs1 : VIdx) (count : Word)
  | shrl    (k : Kind) (vd vs1 : VIdx) (count : Word)
  | shra    (k : Kind) (vd vs1 : VIdx) (count : Word)
  | adds    (k : Kind) (vd vs1 vs2 : VIdx)
  | subs    (k : Kind) (vd vs1 vs2 : VIdx)
  | sad     (k : Kind) (vs1 vs2 : VIdx)
  | fromf   (k : Kind) (vd vs1 : VIdx)
  | swz     (k : Kind) (vd vs1 : VIdx) (x : Operands)
  | shuf    (k : Kind) (vd vs1 vs2 : VIdx) (x : Operands)
  | bcast   (k target : Kind) (vd vs1 : VIdx)
  | load    (k : Kind) (vd : VIdx) (buf : Buffer)
  | load1   (k : Kind) (vd : VIdx) (buf : Buffer)
  | load2   (k : Kind) (vd : VIdx) (buf : Buffer)
  | load3   (k : Kind) (vd : VIdx) (buf : Buffer)
  | store   (k : Kind) (vs1 : VIdx) (buf : Buffer)
  | store1  (k : Kind) (vs1 : VIdx) (buf : Buffer)
  | store2  (k : Kind) (vs1 : VIdx) (buf : Buffer)
  | store3  (k : Kind) (vs1 : VIdx) (buf : Buffer)
  deriving DecidableEq, Repr

end Sys2Proof
end

