-- ==== Sys2Proof/WellFormed.lean ====
section
/-! DEFINITION. Which instructions are commands of VALU128: the legal kinds of 30_encoding.md R66 and the legal `aux`
and `argc` of R76, said once more, apart from the decoder, so that the two can be compared. -/

namespace Sys2Proof

/-- The five numeric kinds (10_state.md R22). -/
def Kind.isNumeric : Kind → Bool
  | .f64x2 | .f32x4 | .i32x4 | .i16x8 | .i8x16 => true
  | .b2 | .b4 | .b8 | .b16 => false

/-- The Float kinds (10_state.md R22). -/
def Kind.isFloat : Kind → Bool
  | .f64x2 | .f32x4 => true
  | .i32x4 | .i16x8 | .i8x16 | .b2 | .b4 | .b8 | .b16 => false

/-- The Int kinds (10_state.md R22). -/
def Kind.isInt : Kind → Bool
  | .i32x4 | .i16x8 | .i8x16 => true
  | .f64x2 | .f32x4 | .b2 | .b4 | .b8 | .b16 => false

/-- The Bool kinds (10_state.md R22). -/
def Kind.isBool : Kind → Bool
  | .b2 | .b4 | .b8 | .b16 => true
  | .f64x2 | .f32x4 | .i32x4 | .i16x8 | .i8x16 => false

/-- The matrix of 30_encoding.md R66 with the counts of R76. -/
def Instr.wellFormed : Instr → Bool
  | .check _ _ | .extract _ _ _ | .replace _ _ _ _ _ | .splat _ _ _ => true
  | .cons k _ argc _ => decide (argc.val ≤ k.lanes)
  | .add k _ _ _ | .sub k _ _ _ | .mul k _ _ _ | .min k _ _ _ | .max k _ _ _ => k.isNumeric
  | .neg k _ _ | .abs k _ _ => k.isNumeric
  | .div k _ _ _ | .minnum k _ _ _ | .maxnum k _ _ _ => k.isFloat
  | .sqrt k _ _ | .rcpa k _ _ => k.isFloat
  | .eq k _ _ _ | .ne k _ _ _ | .lt k _ _ _ | .le k _ _ _ | .gt k _ _ _ | .ge k _ _ _ => k.isNumeric
  | .and k _ _ _ | .or k _ _ _ | .xor k _ _ _ => k.isInt || k.isBool
  | .not k _ _ => k.isInt || k.isBool
  | .sel k _ _ _ _ => k.isNumeric
  | .selb k _ _ _ _ => k.isInt
  | .shl k _ _ _ | .shrl k _ _ _ | .shra k _ _ _ => k.isInt
  | .adds k _ _ _ | .subs k _ _ _ => decide (k = .i16x8) || decide (k = .i8x16)
  | .sad k _ _ => decide (k = .i8x16)
  | .fromf k _ _ => decide (k = .i32x4)
  | .swz k _ _ _ => k.isNumeric
  | .shuf k _ _ _ _ => k.isNumeric
  | .bcast k target _ _ => k.isNumeric && target.isNumeric
  | .load k _ _ | .store k _ _ => k.isNumeric
  | .load1 k _ _ | .store1 k _ _ => k.isNumeric && decide (1 < k.lanes)
  | .load2 k _ _ | .store2 k _ _ => k.isNumeric && decide (2 < k.lanes)
  | .load3 k _ _ | .store3 k _ _ => k.isNumeric && decide (3 < k.lanes)

end Sys2Proof
end

