-- ==== Sys2Proof/Decode.lean ====
section
/-! DEFINITION. The instruction word: its fields (30_encoding.md R61, R62), the kind codes (R63), the decoder (R64 to
R66, R70, R76, R77), total on every word and rejecting by name, and the encoder written from the same tables. -/

namespace Sys2Proof

/-! ## Kind codes -/

/-- The code of a kind (30_encoding.md R63). -/
def Kind.code : Kind → BitVec 4
  | .f64x2 => 1#4
  | .f32x4 => 2#4
  | .i32x4 => 3#4
  | .i16x8 => 4#4
  | .i8x16 => 5#4
  | .b2 => 8#4
  | .b4 => 9#4
  | .b8 => 10#4
  | .b16 => 11#4

/-- The kind with a code; none for code 0 and the reserved codes (30_encoding.md R63). -/
def Kind.ofCode (c : BitVec 4) : Option Kind :=
  match c with
  | 1#4 => some .f64x2
  | 2#4 => some .f32x4
  | 3#4 => some .i32x4
  | 4#4 => some .i16x8
  | 5#4 => some .i8x16
  | 8#4 => some .b2
  | 9#4 => some .b4
  | 10#4 => some .b8
  | 11#4 => some .b16
  | _ => none

/-! ## Fields of the word -/

/-- `op`, bits 7:0 of both formats (30_encoding.md R61, R62). -/
def opField (w : InsnWord) : BitVec 8 := w.extractLsb' 0 8
/-- `k`, bits 11:8 of both formats. -/
def kField (w : InsnWord) : BitVec 4 := w.extractLsb' 8 4
/-- `vd`, bits 15:12 of both formats. -/
def vdField (w : InsnWord) : BitVec 4 := w.extractLsb' 12 4
/-- `vs1`, bits 19:16 of format R. -/
def vs1Field (w : InsnWord) : BitVec 4 := w.extractLsb' 16 4
/-- `vs2`, bits 23:20 of format R. -/
def vs2Field (w : InsnWord) : BitVec 4 := w.extractLsb' 20 4
/-- `vs3`, bits 27:24 of format R. -/
def vs3Field (w : InsnWord) : BitVec 4 := w.extractLsb' 24 4
/-- `aux`, bits 31:28 of format R. -/
def auxField (w : InsnWord) : BitVec 4 := w.extractLsb' 28 4
/-- `argc`, bits 20:16 of format C (30_encoding.md R62). -/
def argcField (w : InsnWord) : BitVec 5 := w.extractLsb' 16 5
/-- Bits 31:21 of format C, which must be zero (30_encoding.md R62). -/
def mbzCField (w : InsnWord) : BitVec 11 := w.extractLsb' 21 11

/-- The register that `vd` names. -/
def vdOf (w : InsnWord) : VIdx := (vdField w).toFin
/-- The register that `vs1` names. -/
def vs1Of (w : InsnWord) : VIdx := (vs1Field w).toFin
/-- The register that `vs2` names. -/
def vs2Of (w : InsnWord) : VIdx := (vs2Field w).toFin
/-- The register that `vs3` names. -/
def vs3Of (w : InsnWord) : VIdx := (vs3Field w).toFin
/-- The number of scalars of CONS, unsigned (30_encoding.md R62). -/
def argcOf (w : InsnWord) : Fin 32 := (argcField w).toFin

/-- The buffer operand in X[0] .. X[3] (20_memory.md R41, 46_load_store.md R220). -/
def bufferOf (x : Operands) : Buffer := ⟨x[0], x[1], x[2], x[3]⟩

/-! ## Unused fields (30_encoding.md R65) -/

/-- CHECK and EXTRACT use `k` and `vs1`: the other fields are zero. -/
def unusedTest (w : InsnWord) : Bool := decide (vdField w = 0 ∧ vs2Field w = 0 ∧ vs3Field w = 0 ∧ auxField w = 0)
/-- the one-source commands use `k`, `vd` and `vs1`: the other fields are zero. -/
def unusedUnary (w : InsnWord) : Bool := decide (vs2Field w = 0 ∧ vs3Field w = 0 ∧ auxField w = 0)
/-- the two-source commands use `k`, `vd`, `vs1` and `vs2`: the other fields are zero. -/
def unusedBinary (w : InsnWord) : Bool := decide (vs3Field w = 0 ∧ auxField w = 0)
/-- SEL and SELB use all but `aux`: the other fields are zero. -/
def unusedTernary (w : InsnWord) : Bool := decide (auxField w = 0)
/-- SPLAT uses `k` and `vd`: the other fields are zero. -/
def unusedSplat (w : InsnWord) : Bool := decide (vs1Field w = 0 ∧ vs2Field w = 0 ∧ vs3Field w = 0 ∧ auxField w = 0)
/-- SAD uses `k`, `vs1` and `vs2`: the other fields are zero. -/
def unusedSad (w : InsnWord) : Bool := decide (vdField w = 0 ∧ vs3Field w = 0 ∧ auxField w = 0)
/-- BCAST uses `k`, `vd`, `vs1` and `aux`: the other fields are zero. -/
def unusedBcast (w : InsnWord) : Bool := decide (vs2Field w = 0 ∧ vs3Field w = 0)
/-- the LOAD commands use `k`, `vd` and `aux`: the other fields are zero. -/
def unusedLoad (w : InsnWord) : Bool := decide (vs1Field w = 0 ∧ vs2Field w = 0 ∧ vs3Field w = 0)
/-- the STORE commands use `k`, `vs1` and `aux`: the other fields are zero. -/
def unusedStore (w : InsnWord) : Bool := decide (vdField w = 0 ∧ vs2Field w = 0 ∧ vs3Field w = 0)
/-- CONS uses `k`, `vd` and `argc`: bits 31:21 are zero (R62). -/
def unusedCons (w : InsnWord) : Bool := decide (mbzCField w = 0)

/-! ## Legal kinds (30_encoding.md R66) -/

/-- All nine kinds. -/
def allKinds : List Kind := [.f64x2, .f32x4, .i32x4, .i16x8, .i8x16, .b2, .b4, .b8, .b16]
/-- The five numeric kinds. -/
def numericKinds : List Kind := [.f64x2, .f32x4, .i32x4, .i16x8, .i8x16]
/-- The two Float kinds. -/
def floatKinds : List Kind := [.f64x2, .f32x4]
/-- The three Int kinds. -/
def intKinds : List Kind := [.i32x4, .i16x8, .i8x16]
/-- The Int and the Bool kinds, for the logic commands. -/
def logicKinds : List Kind := [.i32x4, .i16x8, .i8x16, .b2, .b4, .b8, .b16]
/-- Int16x8 and Int8x16, for the saturating commands. -/
def narrowKinds : List Kind := [.i16x8, .i8x16]
/-- The numeric kinds with more than three lanes, for the prefix counts 2 and 3 (30_encoding.md R76). -/
def prefixKinds : List Kind := [.f32x4, .i32x4, .i16x8, .i8x16]

/-! ## The decoder -/

/-- Why a word is illegal (30_encoding.md R70). Every one of them makes the command raise IllegalCommand. -/
inductive DecodeError where
  /-- `op` is not one of the 41 values of R64. -/
  | unknownOp
  /-- A field that R65 does not give the command is not zero (bits 31:21 for CONS). -/
  | unusedNonzero
  /-- `k` is code 0 or a reserved code (R63). -/
  | reservedKind
  /-- `k` is not legal for the command (R66). -/
  | illegalKind
  /-- `aux` is not legal for BCAST or for a LOAD or STORE command (R76). -/
  | illegalAux
  /-- `argc` of CONS is above N(k) (R76). -/
  | illegalArgc
  deriving DecidableEq, Repr

/-- The check of the unused fields and of `k` against the kinds that the command is legal for (30_encoding.md R65,
R66). -/
def decodeKind (unusedZero : Bool) (legal : List Kind) (w : InsnWord) : Except DecodeError Kind :=
  if unusedZero then
    match Kind.ofCode (kField w) with
    | none => .error .reservedKind
    | some k => if k ∈ legal then .ok k else .error .illegalKind
  else .error .unusedNonzero

/-- The decoder (30_encoding.md R64 to R66, R70, R76, R77): total on every word; the operand words only ride along. -/
def decode (c : Command) : Except DecodeError Instr :=
  let w := c.insn
  match opField w with
  | 0x01#8 => (decodeKind (unusedTest w) allKinds w).map fun k => .check k (vs1Of w)
  | 0x02#8 => (decodeKind (unusedTest w) allKinds w).map fun k => .extract k (vs1Of w) c.x[0]
  | 0x03#8 => (decodeKind (unusedUnary w) allKinds w).map fun k => .replace k (vdOf w) (vs1Of w) c.x[0] c.x[1]
  | 0x04#8 => (decodeKind (unusedSplat w) allKinds w).map fun k => .splat k (vdOf w) c.x[0]
  | 0x05#8 => match decodeKind (unusedCons w) allKinds w with
      | .error e => .error e
      | .ok k => if (argcOf w).val ≤ k.lanes then .ok (.cons k (vdOf w) (argcOf w) c.x) else .error .illegalArgc
  | 0x10#8 => (decodeKind (unusedBinary w) numericKinds w).map fun k => .add k (vdOf w) (vs1Of w) (vs2Of w)
  | 0x11#8 => (decodeKind (unusedBinary w) numericKinds w).map fun k => .sub k (vdOf w) (vs1Of w) (vs2Of w)
  | 0x12#8 => (decodeKind (unusedBinary w) numericKinds w).map fun k => .mul k (vdOf w) (vs1Of w) (vs2Of w)
  | 0x13#8 => (decodeKind (unusedBinary w) floatKinds w).map fun k => .div k (vdOf w) (vs1Of w) (vs2Of w)
  | 0x14#8 => (decodeKind (unusedUnary w) numericKinds w).map fun k => .neg k (vdOf w) (vs1Of w)
  | 0x15#8 => (decodeKind (unusedUnary w) numericKinds w).map fun k => .abs k (vdOf w) (vs1Of w)
  | 0x16#8 => (decodeKind (unusedUnary w) floatKinds w).map fun k => .sqrt k (vdOf w) (vs1Of w)
  | 0x17#8 => (decodeKind (unusedUnary w) floatKinds w).map fun k => .rcpa k (vdOf w) (vs1Of w)
  | 0x18#8 => (decodeKind (unusedBinary w) numericKinds w).map fun k => .min k (vdOf w) (vs1Of w) (vs2Of w)
  | 0x19#8 => (decodeKind (unusedBinary w) numericKinds w).map fun k => .max k (vdOf w) (vs1Of w) (vs2Of w)
  | 0x1A#8 => (decodeKind (unusedBinary w) floatKinds w).map fun k => .minnum k (vdOf w) (vs1Of w) (vs2Of w)
  | 0x1B#8 => (decodeKind (unusedBinary w) floatKinds w).map fun k => .maxnum k (vdOf w) (vs1Of w) (vs2Of w)
  | 0x20#8 => (decodeKind (unusedBinary w) numericKinds w).map fun k => .eq k (vdOf w) (vs1Of w) (vs2Of w)
  | 0x21#8 => (decodeKind (unusedBinary w) numericKinds w).map fun k => .ne k (vdOf w) (vs1Of w) (vs2Of w)
  | 0x22#8 => (decodeKind (unusedBinary w) numericKinds w).map fun k => .lt k (vdOf w) (vs1Of w) (vs2Of w)
  | 0x23#8 => (decodeKind (unusedBinary w) numericKinds w).map fun k => .le k (vdOf w) (vs1Of w) (vs2Of w)
  | 0x24#8 => (decodeKind (unusedBinary w) numericKinds w).map fun k => .gt k (vdOf w) (vs1Of w) (vs2Of w)
  | 0x25#8 => (decodeKind (unusedBinary w) numericKinds w).map fun k => .ge k (vdOf w) (vs1Of w) (vs2Of w)
  | 0x28#8 => (decodeKind (unusedBinary w) logicKinds w).map fun k => .and k (vdOf w) (vs1Of w) (vs2Of w)
  | 0x29#8 => (decodeKind (unusedBinary w) logicKinds w).map fun k => .or k (vdOf w) (vs1Of w) (vs2Of w)
  | 0x2A#8 => (decodeKind (unusedBinary w) logicKinds w).map fun k => .xor k (vdOf w) (vs1Of w) (vs2Of w)
  | 0x2B#8 => (decodeKind (unusedUnary w) logicKinds w).map fun k => .not k (vdOf w) (vs1Of w)
  | 0x2C#8 => (decodeKind (unusedTernary w) numericKinds w).map fun k => .sel k (vdOf w) (vs1Of w) (vs2Of w) (vs3Of w)
  | 0x2D#8 => (decodeKind (unusedTernary w) intKinds w).map fun k => .selb k (vdOf w) (vs1Of w) (vs2Of w) (vs3Of w)
  | 0x30#8 => (decodeKind (unusedUnary w) intKinds w).map fun k => .shl k (vdOf w) (vs1Of w) c.x[0]
  | 0x31#8 => (decodeKind (unusedUnary w) intKinds w).map fun k => .shrl k (vdOf w) (vs1Of w) c.x[0]
  | 0x32#8 => (decodeKind (unusedUnary w) intKinds w).map fun k => .shra k (vdOf w) (vs1Of w) c.x[0]
  | 0x34#8 => (decodeKind (unusedBinary w) narrowKinds w).map fun k => .adds k (vdOf w) (vs1Of w) (vs2Of w)
  | 0x35#8 => (decodeKind (unusedBinary w) narrowKinds w).map fun k => .subs k (vdOf w) (vs1Of w) (vs2Of w)
  | 0x36#8 => (decodeKind (unusedSad w) [.i8x16] w).map fun k => .sad k (vs1Of w) (vs2Of w)
  | 0x38#8 => (decodeKind (unusedUnary w) [.i32x4] w).map fun k => .fromf k (vdOf w) (vs1Of w)
  | 0x40#8 => (decodeKind (unusedUnary w) numericKinds w).map fun k => .swz k (vdOf w) (vs1Of w) c.x
  | 0x41#8 => (decodeKind (unusedBinary w) numericKinds w).map fun k => .shuf k (vdOf w) (vs1Of w) (vs2Of w) c.x
  | 0x48#8 => match decodeKind (unusedBcast w) numericKinds w with
      | .error e => .error e
      | .ok k => match Kind.ofCode (auxField w) with
        | none => .error .illegalAux
        | some t => if t ∈ numericKinds then .ok (.bcast k t (vdOf w) (vs1Of w)) else .error .illegalAux
  | 0x50#8 => match auxField w with
      | 0#4 => (decodeKind (unusedLoad w) numericKinds w).map fun k => .load k (vdOf w) (bufferOf c.x)
      | 1#4 => (decodeKind (unusedLoad w) numericKinds w).map fun k => .load1 k (vdOf w) (bufferOf c.x)
      | 2#4 => (decodeKind (unusedLoad w) prefixKinds w).map fun k => .load2 k (vdOf w) (bufferOf c.x)
      | 3#4 => (decodeKind (unusedLoad w) prefixKinds w).map fun k => .load3 k (vdOf w) (bufferOf c.x)
      | _ => .error .illegalAux
  | 0x51#8 => match auxField w with
      | 0#4 => (decodeKind (unusedStore w) numericKinds w).map fun k => .store k (vs1Of w) (bufferOf c.x)
      | 1#4 => (decodeKind (unusedStore w) numericKinds w).map fun k => .store1 k (vs1Of w) (bufferOf c.x)
      | 2#4 => (decodeKind (unusedStore w) prefixKinds w).map fun k => .store2 k (vs1Of w) (bufferOf c.x)
      | 3#4 => (decodeKind (unusedStore w) prefixKinds w).map fun k => .store3 k (vs1Of w) (bufferOf c.x)
      | _ => .error .illegalAux
  | _ => .error .unknownOp

/-! ## The encoder -/

/-- Format R (30_encoding.md R61). -/
def wordR (aux vs3 vs2 vs1 vd k : BitVec 4) (op : BitVec 8) : InsnWord :=
  aux ++ vs3 ++ vs2 ++ vs1 ++ vd ++ k ++ op

/-- Format C (30_encoding.md R62). -/
def wordC (argc : BitVec 5) (vd k : BitVec 4) (op : BitVec 8) : InsnWord :=
  0#11 ++ argc ++ vd ++ k ++ op

/-- The field that names a register. -/
def regBits (r : VIdx) : BitVec 4 := BitVec.ofFin (w := 4) r

/-- No operand word is used: all are zero. -/
def words0 : Operands := #v[0, 0, 0, 0, 0, 0, 0, 0, 0, 0, 0, 0, 0, 0, 0, 0]
/-- X[0] alone. -/
def words1 (a : Word) : Operands := #v[a, 0, 0, 0, 0, 0, 0, 0, 0, 0, 0, 0, 0, 0, 0, 0]
/-- X[0] and X[1]. -/
def words2 (a b : Word) : Operands := #v[a, b, 0, 0, 0, 0, 0, 0, 0, 0, 0, 0, 0, 0, 0, 0]
/-- X[0] .. X[3] of a buffer operand. -/
def wordsOfBuffer (b : Buffer) : Operands :=
  #v[b.index, b.base, b.byteLength, b.bkind, 0, 0, 0, 0, 0, 0, 0, 0, 0, 0, 0, 0]

/-- The command that an instruction is written as (30_encoding.md R61 to R67); operand words it does not use are zero. -/
def encode : Instr → Command
  | .check k a => ⟨wordR 0#4 0#4 0#4 (regBits a) 0#4 k.code 0x01#8, words0⟩
  | .extract k a i => ⟨wordR 0#4 0#4 0#4 (regBits a) 0#4 k.code 0x02#8, words1 i⟩
  | .replace k d a i x => ⟨wordR 0#4 0#4 0#4 (regBits a) (regBits d) k.code 0x03#8, words2 i x⟩
  | .splat k d x => ⟨wordR 0#4 0#4 0#4 0#4 (regBits d) k.code 0x04#8, words1 x⟩
  | .cons k d argc x => ⟨wordC (BitVec.ofFin (w := 5) argc) (regBits d) k.code 0x05#8, x⟩
  | .add k d a b => ⟨wordR 0#4 0#4 (regBits b) (regBits a) (regBits d) k.code 0x10#8, words0⟩
  | .sub k d a b => ⟨wordR 0#4 0#4 (regBits b) (regBits a) (regBits d) k.code 0x11#8, words0⟩
  | .mul k d a b => ⟨wordR 0#4 0#4 (regBits b) (regBits a) (regBits d) k.code 0x12#8, words0⟩
  | .div k d a b => ⟨wordR 0#4 0#4 (regBits b) (regBits a) (regBits d) k.code 0x13#8, words0⟩
  | .neg k d a => ⟨wordR 0#4 0#4 0#4 (regBits a) (regBits d) k.code 0x14#8, words0⟩
  | .abs k d a => ⟨wordR 0#4 0#4 0#4 (regBits a) (regBits d) k.code 0x15#8, words0⟩
  | .sqrt k d a => ⟨wordR 0#4 0#4 0#4 (regBits a) (regBits d) k.code 0x16#8, words0⟩
  | .rcpa k d a => ⟨wordR 0#4 0#4 0#4 (regBits a) (regBits d) k.code 0x17#8, words0⟩
  | .min k d a b => ⟨wordR 0#4 0#4 (regBits b) (regBits a) (regBits d) k.code 0x18#8, words0⟩
  | .max k d a b => ⟨wordR 0#4 0#4 (regBits b) (regBits a) (regBits d) k.code 0x19#8, words0⟩
  | .minnum k d a b => ⟨wordR 0#4 0#4 (regBits b) (regBits a) (regBits d) k.code 0x1A#8, words0⟩
  | .maxnum k d a b => ⟨wordR 0#4 0#4 (regBits b) (regBits a) (regBits d) k.code 0x1B#8, words0⟩
  | .eq k d a b => ⟨wordR 0#4 0#4 (regBits b) (regBits a) (regBits d) k.code 0x20#8, words0⟩
  | .ne k d a b => ⟨wordR 0#4 0#4 (regBits b) (regBits a) (regBits d) k.code 0x21#8, words0⟩
  | .lt k d a b => ⟨wordR 0#4 0#4 (regBits b) (regBits a) (regBits d) k.code 0x22#8, words0⟩
  | .le k d a b => ⟨wordR 0#4 0#4 (regBits b) (regBits a) (regBits d) k.code 0x23#8, words0⟩
  | .gt k d a b => ⟨wordR 0#4 0#4 (regBits b) (regBits a) (regBits d) k.code 0x24#8, words0⟩
  | .ge k d a b => ⟨wordR 0#4 0#4 (regBits b) (regBits a) (regBits d) k.code 0x25#8, words0⟩
  | .and k d a b => ⟨wordR 0#4 0#4 (regBits b) (regBits a) (regBits d) k.code 0x28#8, words0⟩
  | .or k d a b => ⟨wordR 0#4 0#4 (regBits b) (regBits a) (regBits d) k.code 0x29#8, words0⟩
  | .xor k d a b => ⟨wordR 0#4 0#4 (regBits b) (regBits a) (regBits d) k.code 0x2A#8, words0⟩
  | .not k d a => ⟨wordR 0#4 0#4 0#4 (regBits a) (regBits d) k.code 0x2B#8, words0⟩
  | .sel k d a b c => ⟨wordR 0#4 (regBits c) (regBits b) (regBits a) (regBits d) k.code 0x2C#8, words0⟩
  | .selb k d a b c => ⟨wordR 0#4 (regBits c) (regBits b) (regBits a) (regBits d) k.code 0x2D#8, words0⟩
  | .shl k d a x => ⟨wordR 0#4 0#4 0#4 (regBits a) (regBits d) k.code 0x30#8, words1 x⟩
  | .shrl k d a x => ⟨wordR 0#4 0#4 0#4 (regBits a) (regBits d) k.code 0x31#8, words1 x⟩
  | .shra k d a x => ⟨wordR 0#4 0#4 0#4 (regBits a) (regBits d) k.code 0x32#8, words1 x⟩
  | .adds k d a b => ⟨wordR 0#4 0#4 (regBits b) (regBits a) (regBits d) k.code 0x34#8, words0⟩
  | .subs k d a b => ⟨wordR 0#4 0#4 (regBits b) (regBits a) (regBits d) k.code 0x35#8, words0⟩
  | .sad k a b => ⟨wordR 0#4 0#4 (regBits b) (regBits a) 0#4 k.code 0x36#8, words0⟩
  | .fromf k d a => ⟨wordR 0#4 0#4 0#4 (regBits a) (regBits d) k.code 0x38#8, words0⟩
  | .swz k d a x => ⟨wordR 0#4 0#4 0#4 (regBits a) (regBits d) k.code 0x40#8, x⟩
  | .shuf k d a b x => ⟨wordR 0#4 0#4 (regBits b) (regBits a) (regBits d) k.code 0x41#8, x⟩
  | .bcast k t d a => ⟨wordR t.code 0#4 0#4 (regBits a) (regBits d) k.code 0x48#8, words0⟩
  | .load k d buf => ⟨wordR 0#4 0#4 0#4 0#4 (regBits d) k.code 0x50#8, wordsOfBuffer buf⟩
  | .load1 k d buf => ⟨wordR 1#4 0#4 0#4 0#4 (regBits d) k.code 0x50#8, wordsOfBuffer buf⟩
  | .load2 k d buf => ⟨wordR 2#4 0#4 0#4 0#4 (regBits d) k.code 0x50#8, wordsOfBuffer buf⟩
  | .load3 k d buf => ⟨wordR 3#4 0#4 0#4 0#4 (regBits d) k.code 0x50#8, wordsOfBuffer buf⟩
  | .store k a buf => ⟨wordR 0#4 0#4 0#4 (regBits a) 0#4 k.code 0x51#8, wordsOfBuffer buf⟩
  | .store1 k a buf => ⟨wordR 1#4 0#4 0#4 (regBits a) 0#4 k.code 0x51#8, wordsOfBuffer buf⟩
  | .store2 k a buf => ⟨wordR 2#4 0#4 0#4 (regBits a) 0#4 k.code 0x51#8, wordsOfBuffer buf⟩
  | .store3 k a buf => ⟨wordR 3#4 0#4 0#4 (regBits a) 0#4 k.code 0x51#8, wordsOfBuffer buf⟩

/-! ## The opcode table's match and mask -/

/-- A row of the table of 30_encoding.md R64. -/
structure OpcodeRow where
  mnemonic : String
  matchBits : InsnWord
  mask : InsnWord
  deriving DecidableEq, Repr

/-- The row of 30_encoding.md R64 that each constructor stands for. -/
def Instr.row : Instr → OpcodeRow
  | .check _ _ => ⟨"CHECK", 0x00000001#32, 0xFFF0F0FF#32⟩
  | .extract _ _ _ => ⟨"EXTRACT", 0x00000002#32, 0xFFF0F0FF#32⟩
  | .replace _ _ _ _ _ => ⟨"REPLACE", 0x00000003#32, 0xFFF000FF#32⟩
  | .splat _ _ _ => ⟨"SPLAT", 0x00000004#32, 0xFFFF00FF#32⟩
  | .cons _ _ _ _ => ⟨"CONS", 0x00000005#32, 0xFFE000FF#32⟩
  | .add _ _ _ _ => ⟨"ADD", 0x00000010#32, 0xFF0000FF#32⟩
  | .sub _ _ _ _ => ⟨"SUB", 0x00000011#32, 0xFF0000FF#32⟩
  | .mul _ _ _ _ => ⟨"MUL", 0x00000012#32, 0xFF0000FF#32⟩
  | .div _ _ _ _ => ⟨"DIV", 0x00000013#32, 0xFF0000FF#32⟩
  | .neg _ _ _ => ⟨"NEG", 0x00000014#32, 0xFFF000FF#32⟩
  | .abs _ _ _ => ⟨"ABS", 0x00000015#32, 0xFFF000FF#32⟩
  | .sqrt _ _ _ => ⟨"SQRT", 0x00000016#32, 0xFFF000FF#32⟩
  | .rcpa _ _ _ => ⟨"RCPA", 0x00000017#32, 0xFFF000FF#32⟩
  | .min _ _ _ _ => ⟨"MIN", 0x00000018#32, 0xFF0000FF#32⟩
  | .max _ _ _ _ => ⟨"MAX", 0x00000019#32, 0xFF0000FF#32⟩
  | .minnum _ _ _ _ => ⟨"MINNUM", 0x0000001A#32, 0xFF0000FF#32⟩
  | .maxnum _ _ _ _ => ⟨"MAXNUM", 0x0000001B#32, 0xFF0000FF#32⟩
  | .eq _ _ _ _ => ⟨"EQ", 0x00000020#32, 0xFF0000FF#32⟩
  | .ne _ _ _ _ => ⟨"NE", 0x00000021#32, 0xFF0000FF#32⟩
  | .lt _ _ _ _ => ⟨"LT", 0x00000022#32, 0xFF0000FF#32⟩
  | .le _ _ _ _ => ⟨"LE", 0x00000023#32, 0xFF0000FF#32⟩
  | .gt _ _ _ _ => ⟨"GT", 0x00000024#32, 0xFF0000FF#32⟩
  | .ge _ _ _ _ => ⟨"GE", 0x00000025#32, 0xFF0000FF#32⟩
  | .and _ _ _ _ => ⟨"AND", 0x00000028#32, 0xFF0000FF#32⟩
  | .or _ _ _ _ => ⟨"OR", 0x00000029#32, 0xFF0000FF#32⟩
  | .xor _ _ _ _ => ⟨"XOR", 0x0000002A#32, 0xFF0000FF#32⟩
  | .not _ _ _ => ⟨"NOT", 0x0000002B#32, 0xFFF000FF#32⟩
  | .sel _ _ _ _ _ => ⟨"SEL", 0x0000002C#32, 0xF00000FF#32⟩
  | .selb _ _ _ _ _ => ⟨"SELB", 0x0000002D#32, 0xF00000FF#32⟩
  | .shl _ _ _ _ => ⟨"SHL", 0x00000030#32, 0xFFF000FF#32⟩
  | .shrl _ _ _ _ => ⟨"SHRL", 0x00000031#32, 0xFFF000FF#32⟩
  | .shra _ _ _ _ => ⟨"SHRA", 0x00000032#32, 0xFFF000FF#32⟩
  | .adds _ _ _ _ => ⟨"ADDS", 0x00000034#32, 0xFF0000FF#32⟩
  | .subs _ _ _ _ => ⟨"SUBS", 0x00000035#32, 0xFF0000FF#32⟩
  | .sad _ _ _ => ⟨"SAD", 0x00000036#32, 0xFF00F0FF#32⟩
  | .fromf _ _ _ => ⟨"FROMF", 0x00000038#32, 0xFFF000FF#32⟩
  | .swz _ _ _ _ => ⟨"SWZ", 0x00000040#32, 0xFFF000FF#32⟩
  | .shuf _ _ _ _ _ => ⟨"SHUF", 0x00000041#32, 0xFF0000FF#32⟩
  | .bcast _ _ _ _ => ⟨"BCAST", 0x00000048#32, 0x0FF000FF#32⟩
  | .load _ _ _ => ⟨"LOAD", 0x00000050#32, 0xFFFF00FF#32⟩
  | .load1 _ _ _ => ⟨"LOAD1", 0x10000050#32, 0xFFFF00FF#32⟩
  | .load2 _ _ _ => ⟨"LOAD2", 0x20000050#32, 0xFFFF00FF#32⟩
  | .load3 _ _ _ => ⟨"LOAD3", 0x30000050#32, 0xFFFF00FF#32⟩
  | .store _ _ _ => ⟨"STORE", 0x00000051#32, 0xFFF0F0FF#32⟩
  | .store1 _ _ _ => ⟨"STORE1", 0x10000051#32, 0xFFF0F0FF#32⟩
  | .store2 _ _ _ => ⟨"STORE2", 0x20000051#32, 0xFFF0F0FF#32⟩
  | .store3 _ _ _ => ⟨"STORE3", 0x30000051#32, 0xFFF0F0FF#32⟩

/-! ## The table word -/

/-- The command whose bits are n: bits 31..0 the instruction word, bits 32+64j .. 95+64j the operand word X[j] (log
entry 15). -/
def commandOfBits (n : Nat) : Command :=
  let x (j : Nat) : Word := BitVec.ofNat 64 (n >>> (32 + 64 * j))
  ⟨BitVec.ofNat 32 n, #v[x 0, x 1, x 2, x 3, x 4, x 5, x 6, x 7, x 8, x 9, x 10, x 11, x 12, x 13, x 14, x 15]⟩

/-- What the decoder reads from a command whose low nbits bits are w and whose other bits are 0. -/
def decodeTableWord (nbits w : Nat) : Option Instr :=
  match decode (commandOfBits (w % 2 ^ nbits)) with
  | .ok i => some i
  | .error _ => none

end Sys2Proof
end

