-- ==== Sys2Proof/Machine/Flags.lean ====
section
/-! DEFINITION. VALU128 has no flag (10_state.md R32). The only condition a command computes is the overflow that ADDS
and SUBS detect "via sign comparison against the operands" and use at once to choose the clamped lane
(43_shift_saturate_convert.md R185, R186): it stands here. -/

namespace Sys2Proof.Machine

/-- wrap_W of the exact sum (43_shift_saturate_convert.md R185). -/
def wrappedSum {w : Nat} (a b : BitVec w) : BitVec w := BitVec.ofInt w (a.toInt + b.toInt)

/-- wrap_W of the exact difference (43_shift_saturate_convert.md R186). -/
def wrappedDifference {w : Nat} (a b : BitVec w) : BitVec w := BitVec.ofInt w (a.toInt - b.toInt)

/-- ovf of ADDS: both operands of one sign, the result of the other (43_shift_saturate_convert.md R185). -/
def addOverflow {w : Nat} (a b : BitVec w) : Bool := (a.msb == b.msb) && ((wrappedSum a b).msb != a.msb)

/-- ovf of SUBS: operands of different sign, the result not of a's sign (43_shift_saturate_convert.md R186). -/
def subOverflow {w : Nat} (a b : BitVec w) : Bool := (a.msb != b.msb) && ((wrappedDifference a b).msb != a.msb)

/-- The lane an overflow is clamped to: INT_MAX(W) for a first operand that is not negative, else INT_MIN(W). -/
def clampLane {w : Nat} (a : BitVec w) : BitVec w :=
  if a.msb then BitVec.ofInt w (-(2 ^ (w - 1))) else BitVec.ofInt w (2 ^ (w - 1) - 1)

end Sys2Proof.Machine
end

