-- ==== Sys2Proof/Config.lean ====
section
/-! DEFINITION. The parameters of 00_scope.md R7 that a rule refers to by name, at the values the spec gives them, and
the one value the spec leaves free. -/

namespace Sys2Proof.Config

/-- NAN_F32 of 00_scope.md R7: the canonical NaN of Float32 lanes (41_arithmetic.md R122). Log entry 13. -/
def nanF32 : BitVec 32 := 0x7FC00000#32

/-- NAN_F64 of 00_scope.md R7: the canonical NaN of Float64 lanes (41_arithmetic.md R122). Log entry 13. -/
def nanF64 : BitVec 64 := 0x7FF8000000000000#64

/-- NARROW_SHIFT_CLAMP(W) = W of 00_scope.md R7: what a shift count is clamped to on 16- and 8-bit lanes
(43_shift_saturate_convert.md R180). Log entry 13. -/
def narrowShiftClamp (w : Nat) : Nat := w

/-- Whether a store that RESET abandons has written its bytes (all of them or none: 70_reset_and_hazards.md R280,
93_implementation_defined.md U12). A free value, one for each such event, counted by State.freeCount; DESIGN CHOICE of
form only, log entry 8. -/
opaque abandonedStoreLands : Nat → Bool

end Sys2Proof.Config
end

