-- ==== Sys2Proof/Machine/Float.lean ====
section
/-! DEFINITION. The floating-point model of 41_arithmetic.md R120 to R122 and R137 and the comparison of
42_compare_logic_select.md R157, on exact integers. Every finite value of a format is a whole number of UNITS, the
format's least subnormal: an operation is computed exactly on units and rounded once (log entry 14). -/

namespace Sys2Proof.Machine

/-- An IEEE-754 binary interchange format: fraction bits and exponent bits (41_arithmetic.md R120). -/
structure FloatFormat where
  fracBits : Nat
  expBits  : Nat
  deriving DecidableEq, Repr

/-- Binary64: 1 sign bit, 11 exponent bits, 52 fraction bits (41_arithmetic.md R120). -/
def binary64 : FloatFormat := ⟨52, 11⟩

/-- Binary32: 1 sign bit, 8 exponent bits, 23 fraction bits (41_arithmetic.md R120). -/
def binary32 : FloatFormat := ⟨23, 8⟩

/-- The unit of a format is 2 to the power minus this: 1074 for binary64, 149 for binary32. -/
def FloatFormat.unitExp (F : FloatFormat) : Nat := 2 ^ (F.expBits - 1) - 1 + F.fracBits - 1

/-- The bits below the sign bit of an infinity. -/
def FloatFormat.infBits (F : FloatFormat) : Nat := (2 ^ F.expBits - 1) * 2 ^ F.fracBits

/-- The value of a float lane: a NaN, an infinity, or a finite number of units with a sign (a zero keeps its sign). -/
inductive FloatVal where
  | nan
  | inf (neg : Bool)
  | fin (neg : Bool) (units : Nat)
  deriving DecidableEq, Repr

/-- The value of an encoding: sign on top, then exponent, then fraction (10_state.md R25, 41_arithmetic.md R120). -/
def FloatFormat.unpack (F : FloatFormat) {w : Nat} (b : BitVec w) : FloatVal :=
  let frac := b.toNat % 2 ^ F.fracBits
  let ex := b.toNat / 2 ^ F.fracBits % 2 ^ F.expBits
  let neg := decide (b.toNat / 2 ^ (F.fracBits + F.expBits) % 2 = 1)
  if ex = 2 ^ F.expBits - 1 then
    if frac = 0 then .inf neg else .nan
  else if ex = 0 then .fin neg frac
  else .fin neg ((2 ^ F.fracBits + frac) * 2 ^ (ex - 1))

/-- The encoding with a sign and the bits below it. -/
def FloatFormat.pack (F : FloatFormat) (w : Nat) (neg : Bool) (low : Nat) : BitVec w :=
  BitVec.ofNat w ((if neg then 2 ^ (F.fracBits + F.expBits) else 0) + low)

/-- Round to nearest, ties to even, of a positive value: `m` is its floor in quanta of 2^q units, `half` compares what is
left with half a quantum. The bits below the sign bit follow, with infinity beyond the range (41_arithmetic.md R120,
R121). -/
def FloatFormat.roundBits (F : FloatFormat) (q m : Nat) (half : Ordering) : Nat :=
  let m' := match half with
    | .lt => m
    | .gt => m + 1
    | .eq => if m % 2 = 0 then m else m + 1
  Nat.min (q * 2 ^ F.fracBits + m') F.infBits

/-- The rounding of n/d units: the quantum leaves fracBits + 1 bits before the point, but is never below a unit. -/
def FloatFormat.roundRatio (F : FloatFormat) (n d : Nat) : Nat :=
  let q := Nat.log2 (n / d) - F.fracBits
  let quantum := d * 2 ^ q
  F.roundBits q (n / quantum) (compare (2 * (n % quantum)) quantum)

/-- The integer square root by bits: `bits` bits below those already in r are still open. -/
def isqrtFrom (n : Nat) : (bits r : Nat) → Nat
  | 0, r => r
  | bits + 1, r =>
    if (r + 2 ^ bits) * (r + 2 ^ bits) ≤ n then isqrtFrom n bits (r + 2 ^ bits) else isqrtFrom n bits r

/-- The floor of the square root. -/
def isqrt (n : Nat) : Nat := isqrtFrom n (Nat.log2 n / 2 + 1) 0

/-- The rounding of the square root of n, in units. -/
def FloatFormat.roundRoot (F : FloatFormat) (n : Nat) : Nat :=
  let g := isqrt n
  let q := Nat.log2 g - F.fracBits
  let m := g / 2 ^ q
  F.roundBits q m (compare (4 * n) (((2 * m + 1) * 2 ^ q) ^ 2))

/-- The signed number of units. -/
def signedUnits (neg : Bool) (units : Nat) : Int := if neg then -(units : Int) else units

/-- isNaN (41_arithmetic.md R122). -/
def FloatFormat.isNaN (F : FloatFormat) {w : Nat} (b : BitVec w) : Bool := decide (F.unpack b = .nan)

/-! ## The binary64 operations (41_arithmetic.md R120, R122) -/

/-- The opposite value; a NaN stays one. -/
def FloatVal.negate : FloatVal → FloatVal
  | .nan => .nan
  | .inf n => .inf (!n)
  | .fin n x => .fin (!n) x

/-- A binary64 infinity. -/
def inf64 (neg : Bool) : BitVec 64 := binary64.pack 64 neg binary64.infBits

/-- A binary64 zero. -/
def zero64 (neg : Bool) : BitVec 64 := binary64.pack 64 neg 0

/-- The sum of two values, rounded once. An exact zero is +0 unless both operands are negative zeros. -/
def addVal : FloatVal → FloatVal → BitVec 64
  | .nan, _ | _, .nan => Config.nanF64
  | .inf n, .inf m => if n = m then inf64 n else Config.nanF64
  | .inf n, .fin _ _ => inf64 n
  | .fin _ _, .inf m => inf64 m
  | .fin n x, .fin m y =>
    let s := signedUnits n x + signedUnits m y
    if s = 0 then zero64 (n && m)
    else binary64.pack 64 (decide (s < 0)) (binary64.roundRatio s.natAbs 1)

/-- The product of two values, rounded once; the sign is the exclusive-or of the signs. -/
def mulVal : FloatVal → FloatVal → BitVec 64
  | .nan, _ | _, .nan => Config.nanF64
  | .inf n, .inf m => inf64 (n != m)
  | .inf n, .fin m y => if y = 0 then Config.nanF64 else inf64 (n != m)
  | .fin n x, .inf m => if x = 0 then Config.nanF64 else inf64 (n != m)
  | .fin n x, .fin m y => binary64.pack 64 (n != m) (binary64.roundRatio (x * y) (2 ^ binary64.unitExp))

/-- The quotient of two values, rounded once. -/
def divVal : FloatVal → FloatVal → BitVec 64
  | .nan, _ | _, .nan => Config.nanF64
  | .inf _, .inf _ => Config.nanF64
  | .inf n, .fin m _ => inf64 (n != m)
  | .fin n _, .inf m => zero64 (n != m)
  | .fin n x, .fin m y =>
    if y = 0 then if x = 0 then Config.nanF64 else inf64 (n != m)
    else binary64.pack 64 (n != m) (binary64.roundRatio (x * 2 ^ binary64.unitExp) y)

/-- The square root, rounded once; that of a negative value is a NaN, but that of -0 is -0. -/
def sqrtVal : FloatVal → BitVec 64
  | .nan => Config.nanF64
  | .inf n => if n then Config.nanF64 else inf64 false
  | .fin n x =>
    if x = 0 then zero64 n
    else if n then Config.nanF64
    else binary64.pack 64 false (binary64.roundRoot (x * 2 ^ binary64.unitExp))

/-- f64_add (41_arithmetic.md R120). -/
def f64Add (a b : BitVec 64) : BitVec 64 := addVal (binary64.unpack a) (binary64.unpack b)
/-- f64_sub (41_arithmetic.md R120). -/
def f64Sub (a b : BitVec 64) : BitVec 64 := addVal (binary64.unpack a) (binary64.unpack b).negate
/-- f64_mul (41_arithmetic.md R120). -/
def f64Mul (a b : BitVec 64) : BitVec 64 := mulVal (binary64.unpack a) (binary64.unpack b)
/-- f64_div (41_arithmetic.md R120). -/
def f64Div (a b : BitVec 64) : BitVec 64 := divVal (binary64.unpack a) (binary64.unpack b)
/-- f64_sqrt (41_arithmetic.md R120). -/
def f64Sqrt (a : BitVec 64) : BitVec 64 := sqrtVal (binary64.unpack a)

/-! ## Narrowing and widening (41_arithmetic.md R121) -/

/-- round_f32: binary64 to binary32, roundTiesToEven; any NaN becomes NAN_F32. -/
def roundF32 (x : BitVec 64) : BitVec 32 :=
  match binary64.unpack x with
  | .nan => Config.nanF32
  | .inf n => binary32.pack 32 n binary32.infBits
  | .fin n u => binary32.pack 32 n (binary32.roundRatio u (2 ^ (binary64.unitExp - binary32.unitExp)))

/-- widen_f32: binary32 to binary64, exact; any NaN becomes NAN_F64. -/
def widenF32 (l : BitVec 32) : BitVec 64 :=
  match binary32.unpack l with
  | .nan => Config.nanF64
  | .inf n => inf64 n
  | .fin n u => binary64.pack 64 n (binary64.roundRatio (u * 2 ^ (binary64.unitExp - binary32.unitExp)) 1)

/-- A Float32 operation of two operands: in binary64, then narrowed (41_arithmetic.md R137). -/
def viaF64 (op : BitVec 64 → BitVec 64 → BitVec 64) (a b : BitVec 32) : BitVec 32 :=
  roundF32 (op (widenF32 a) (widenF32 b))

/-- A Float32 operation of one operand: in binary64, then narrowed (41_arithmetic.md R137). -/
def viaF64Unary (op : BitVec 64 → BitVec 64) (a : BitVec 32) : BitVec 32 := roundF32 (op (widenF32 a))

/-! ## Comparison (42_compare_logic_select.md R157) -/

/-- Ordered and less, as extended real numbers: +0 and -0 are equal. -/
def FloatVal.lt : FloatVal → FloatVal → Bool
  | .nan, _ | _, .nan => false
  | .inf n, .inf m => n && !m
  | .inf n, .fin _ _ => n
  | .fin _ _, .inf m => !m
  | .fin n x, .fin m y => decide (signedUnits n x < signedUnits m y)

/-- Ordered and equal, as extended real numbers: +0 and -0 are equal. -/
def FloatVal.eq : FloatVal → FloatVal → Bool
  | .nan, _ | _, .nan => false
  | .inf n, .inf m => n == m
  | .inf _, .fin _ _ | .fin _ _, .inf _ => false
  | .fin n x, .fin m y => decide (signedUnits n x = signedUnits m y)

/-- `lessThan` on float lanes. -/
def FloatFormat.lt (F : FloatFormat) {w : Nat} (a b : BitVec w) : Bool := (F.unpack a).lt (F.unpack b)
/-- `equal` on float lanes. -/
def FloatFormat.eq (F : FloatFormat) {w : Nat} (a b : BitVec w) : Bool := (F.unpack a).eq (F.unpack b)

/-! ## Sign operations, minimum and maximum (41_arithmetic.md R129, R130, R133 to R136) -/

/-- The sign bit. -/
def signBit (w : Nat) : BitVec w := BitVec.twoPow w (w - 1)

/-- NEG of a float lane: the canonical NaN, or the sign bit inverted (41_arithmetic.md R129). -/
def FloatFormat.negLane (F : FloatFormat) {w : Nat} (nan a : BitVec w) : BitVec w :=
  if F.isNaN a then nan else a ^^^ signBit w

/-- ABS of a float lane: the canonical NaN, or the sign bit cleared (41_arithmetic.md R130). -/
def FloatFormat.absLane (F : FloatFormat) {w : Nat} (nan a : BitVec w) : BitVec w :=
  if F.isNaN a then nan else a &&& ~~~ signBit w

/-- A zero of either sign. -/
def FloatFormat.isZero (F : FloatFormat) {w : Nat} (a : BitVec w) : Bool :=
  decide (F.unpack a = .fin false 0 ∨ F.unpack a = .fin true 0)

/-- MIN of float lanes: a NaN wins, -0 is below +0 (41_arithmetic.md R133). -/
def FloatFormat.minLane (F : FloatFormat) {w : Nat} (nan a b : BitVec w) : BitVec w :=
  if F.isNaN a || F.isNaN b then nan
  else if F.isZero a && F.isZero b then (if a.msb || b.msb then signBit w else 0)
  else if F.lt a b then a else b

/-- MAX of float lanes: a NaN wins, +0 is above -0 (41_arithmetic.md R134). -/
def FloatFormat.maxLane (F : FloatFormat) {w : Nat} (nan a b : BitVec w) : BitVec w :=
  if F.isNaN a || F.isNaN b then nan
  else if F.isZero a && F.isZero b then (if !a.msb || !b.msb then 0 else signBit w)
  else if F.lt b a then a else b

/-- MINNUM of float lanes: a NaN gives way to the other operand, copied bit for bit (41_arithmetic.md R135). -/
def FloatFormat.minNumLane (F : FloatFormat) {w : Nat} (nan a b : BitVec w) : BitVec w :=
  if F.isNaN a && F.isNaN b then nan
  else if F.isNaN a then b
  else if F.isNaN b then a
  else F.minLane nan a b

/-- MAXNUM of float lanes: a NaN gives way to the other operand, copied bit for bit (41_arithmetic.md R136). -/
def FloatFormat.maxNumLane (F : FloatFormat) {w : Nat} (nan a b : BitVec w) : BitVec w :=
  if F.isNaN a && F.isNaN b then nan
  else if F.isNaN a then b
  else if F.isNaN b then a
  else F.maxLane nan a b

/-! ## Conversion to an integer (43_shift_saturate_convert.md R188) -/

/-- The lane truncated toward zero where its value lies in the open interval (-2^31 - 1, 2^31); none for a NaN, an
infinity or a value outside. -/
def truncLane (l : BitVec 32) : Option (BitVec 32) :=
  match binary32.unpack l with
  | .nan | .inf _ => none
  | .fin n u =>
    if -((2 ^ 31 + 1) * 2 ^ binary32.unitExp : Int) < signedUnits n u ∧ signedUnits n u < 2 ^ 31 * 2 ^ binary32.unitExp then
      some (BitVec.ofInt 32 (signedUnits n (u / 2 ^ binary32.unitExp)))
    else none

end Sys2Proof.Machine
end

