-- ==== Sys2Proof/Machine/Operands.lean ====
section
/-! DEFINITION. The operand forms: lanes of a payload and how they are packed (10_state.md R25, R26), coercion of a value
scalar (R23), the scalar result of a lane and the operand word readings of 30_encoding.md R68, R69, R71, the buffer
kinds (20_memory.md R42) and the lane-wise templates (41_arithmetic.md R124, 42_compare_logic_select.md R150). -/

namespace Sys2Proof.Machine

/-! ## Lanes -/

/-- Lane j of a payload with lanes of w bits (10_state.md R25; R26 with w = 1). -/
def lane (w : Nat) (b : Payload) (j : Nat) : BitVec w := b.extractLsb' (j * w) w

/-- The payload whose lanes 0 .. n-1 are l 0 .. l (n-1); every bit that belongs to no lane is 0 (00_scope.md R10). -/
def pack (w : Nat) (l : Nat → BitVec w) : (n : Nat) → Payload
  | 0 => 0
  | n + 1 => pack w l n ||| ((l n).setWidth 128 <<< (n * w))

/-- The payload with lane i replaced and every other bit unchanged (40_lane_access.md R103). -/
def replaceLane (w : Nat) (b : Payload) (i : Nat) (l : BitVec w) : Payload :=
  (b &&& ~~~ ((BitVec.allOnes w).setWidth 128 <<< (i * w))) ||| (l.setWidth 128 <<< (i * w))

/-- The lane-wise template, one operand (41_arithmetic.md R124). -/
def map1 (w n : Nat) (f : BitVec w → BitVec w) (a : Payload) : Payload :=
  pack w (fun j => f (lane w a j)) n

/-- The lane-wise template, two operands (41_arithmetic.md R124). -/
def map2 (w n : Nat) (f : BitVec w → BitVec w → BitVec w) (a b : Payload) : Payload :=
  pack w (fun j => f (lane w a j) (lane w b j)) n

/-- The comparison template: one truth value a lane, in the layout of a Bool kind (42_compare_logic_select.md R150). -/
def cmp2 (w n : Nat) (rel : BitVec w → BitVec w → Bool) (a b : Payload) : Payload :=
  pack 1 (fun j => BitVec.ofBool (rel (lane w a j) (lane w b j))) n

/-- A lane-wise operation of one operand on payloads. -/
abbrev UnaryOp := Payload → Payload
/-- A lane-wise operation of two operands on payloads. -/
abbrev BinaryOp := Payload → Payload → Payload

/-- An operation that is legal for the Float kinds, from its lane operation on each. -/
def floatUnary (f64 : BitVec 64 → BitVec 64) (f32 : BitVec 32 → BitVec 32) : Kind → Option UnaryOp
  | .f64x2 => some (map1 64 2 f64)
  | .f32x4 => some (map1 32 4 f32)
  | .i32x4 | .i16x8 | .i8x16 | .b2 | .b4 | .b8 | .b16 => none

/-- As floatUnary, for two operands. -/
def floatBinary (f64 : BitVec 64 → BitVec 64 → BitVec 64) (f32 : BitVec 32 → BitVec 32 → BitVec 32) :
    Kind → Option BinaryOp
  | .f64x2 => some (map2 64 2 f64)
  | .f32x4 => some (map2 32 4 f32)
  | .i32x4 | .i16x8 | .i8x16 | .b2 | .b4 | .b8 | .b16 => none

/-- An operation that is legal for the Int kinds, from its lane operation at each width. -/
def intUnary (int : (w : Nat) → BitVec w → BitVec w) : Kind → Option UnaryOp
  | .i32x4 => some (map1 32 4 (int 32))
  | .i16x8 => some (map1 16 8 (int 16))
  | .i8x16 => some (map1 8 16 (int 8))
  | .f64x2 | .f32x4 | .b2 | .b4 | .b8 | .b16 => none

/-- As intUnary, for two operands. -/
def intBinary (int : (w : Nat) → BitVec w → BitVec w → BitVec w) : Kind → Option BinaryOp
  | .i32x4 => some (map2 32 4 (int 32))
  | .i16x8 => some (map2 16 8 (int 16))
  | .i8x16 => some (map2 8 16 (int 8))
  | .f64x2 | .f32x4 | .b2 | .b4 | .b8 | .b16 => none

/-- An operation that is legal for the five numeric kinds. -/
def numericUnary (int : (w : Nat) → BitVec w → BitVec w) (f64 : BitVec 64 → BitVec 64) (f32 : BitVec 32 → BitVec 32)
    (k : Kind) : Option UnaryOp :=
  (floatUnary f64 f32 k).or (intUnary int k)

/-- As numericUnary, for two operands. -/
def numericBinary (int : (w : Nat) → BitVec w → BitVec w → BitVec w) (f64 : BitVec 64 → BitVec 64 → BitVec 64)
    (f32 : BitVec 32 → BitVec 32 → BitVec 32) (k : Kind) : Option BinaryOp :=
  (floatBinary f64 f32 k).or (intBinary int k)

/-- A comparison, legal for the five numeric kinds (42_compare_logic_select.md R150). -/
def numericCompare (int : (w : Nat) → BitVec w → BitVec w → Bool) (f64 : BitVec 64 → BitVec 64 → Bool)
    (f32 : BitVec 32 → BitVec 32 → Bool) : Kind → Option BinaryOp
  | .f64x2 => some (cmp2 64 2 f64)
  | .f32x4 => some (cmp2 32 4 f32)
  | .i32x4 => some (cmp2 32 4 (int 32))
  | .i16x8 => some (cmp2 16 8 (int 16))
  | .i8x16 => some (cmp2 8 16 (int 8))
  | .b2 | .b4 | .b8 | .b16 => none

/-- A bitwise operation of one operand, legal for the Int and Bool kinds; a Bool lane is one bit
(42_compare_logic_select.md R158 to R161). -/
def logicUnary (op : (w : Nat) → BitVec w → BitVec w) : Kind → Option UnaryOp
  | .i32x4 => some (map1 32 4 (op 32))
  | .i16x8 => some (map1 16 8 (op 16))
  | .i8x16 => some (map1 8 16 (op 8))
  | .b2 => some (map1 1 2 (op 1))
  | .b4 => some (map1 1 4 (op 1))
  | .b8 => some (map1 1 8 (op 1))
  | .b16 => some (map1 1 16 (op 1))
  | .f64x2 | .f32x4 => none

/-- As logicUnary, for two operands. -/
def logicBinary (op : (w : Nat) → BitVec w → BitVec w → BitVec w) : Kind → Option BinaryOp
  | .i32x4 => some (map2 32 4 (op 32))
  | .i16x8 => some (map2 16 8 (op 16))
  | .i8x16 => some (map2 8 16 (op 8))
  | .b2 => some (map2 1 2 (op 1))
  | .b4 => some (map2 1 4 (op 1))
  | .b8 => some (map2 1 8 (op 1))
  | .b16 => some (map2 1 16 (op 1))
  | .f64x2 | .f32x4 => none

/-! ## Value scalars -/

/-- coerce_E of 10_state.md R23: an operand word to a lane of kind K (the operand word readings of 30_encoding.md R68). -/
def coerce : (k : Kind) → Word → BitVec k.width
  | .f64x2, x => x
  | .f32x4, x => roundF32 x
  | .i32x4, x => x.setWidth 32
  | .i16x8, x => x.setWidth 16
  | .i8x16, x => x.setWidth 8
  | .b2, x | .b4, x | .b8, x | .b16, x => BitVec.ofBool (x != 0)

/-- missing_E of 40_lane_access.md R100: the lane an absent constructor argument gives. -/
def missing : (k : Kind) → BitVec k.width
  | .f64x2 => Config.nanF64
  | .f32x4 => Config.nanF32
  | .i32x4 | .i16x8 | .i8x16 | .b2 | .b4 | .b8 | .b16 => 0

/-- out_E of 40_lane_access.md R100 and 30_encoding.md R71: the scalar result of a lane. -/
def laneOut : (k : Kind) → BitVec k.width → Word
  | .f64x2, l => l
  | .f32x4, l => widenF32 l
  | .i32x4, l | .i16x8, l | .i8x16, l => l.signExtend 64
  | .b2, l | .b4, l | .b8, l | .b16, l => l.setWidth 64

/-! ## Operand words -/

/-- Operand word X[j]; j is below 16 wherever a rule uses it (30_encoding.md R67). -/
def word (x : Operands) (j : Nat) : Word := x[j]?.getD 0

/-- isInt32 of 30_encoding.md R69. -/
def isInt32 (x : Word) : Bool := decide ((x.setWidth 32).signExtend 64 = x)

/-- The lane-index check of 40_lane_access.md R100 passes: a 32-bit integer in [0, N). -/
def laneIndexOk (x : Word) (n : Nat) : Bool := isInt32 x && decide (0 ≤ x.toInt) && decide (x.toInt < n)

/-- The permutation indices X[0] .. X[n-1], each read as sint_64, all lie in [0, limit) (44_swizzle_shuffle.md R200). -/
def indicesOk (x : Operands) (limit : Nat) : (n : Nat) → Bool
  | 0 => true
  | n + 1 => indicesOk x limit n && decide (0 ≤ (word x n).toInt) && decide ((word x n).toInt < limit)

/-- The shift count: the low 32 bits of the operand word, unsigned (30_encoding.md R68, 43_shift_saturate_convert.md
R180). -/
def shiftCount (x : Word) : Nat := (x.setWidth 32).toNat

/-- The element width in bytes of a buffer kind; none for an unrecognised one (20_memory.md R42). -/
def elementWidth (bkind : Word) : Option Nat :=
  if bkind = 1 then some 8
  else if bkind = 2 then some 4
  else if bkind = 3 then some 4
  else if bkind = 4 then some 2
  else if bkind = 5 then some 1
  else none

/-- The bytes moved: cnt lanes of a kind (46_load_store.md R222). -/
def requiredBytes (k : Kind) (cnt : Nat) : Nat := cnt * k.width / 8

end Sys2Proof.Machine
end

