-- ==== Sys2Proof/Machine/State.lean ====
section
/-! DEFINITION. The state of VALU128 and of the system around it (10_state.md R37), as plain data: sixteen tagged vector
registers, SCRATCH, the byte memory, what the host still presents and what the unit has answered; the state after
reset; the reasons a step may stop. -/

namespace Sys2Proof.Machine

/-- A vector register: its tag, `none` for the EMPTY tag, and its 128-bit payload (10_state.md R24, R29; log entry
12). -/
structure VReg where
  tag  : Option Kind
  bits : Payload
  deriving DecidableEq, Repr

/-- The byte memory (20_memory.md R40): address and byte pairs, addresses strictly rising, none equal to what an
unlisted address reads as. -/
abbrev Memory := List Host.Cell

/-- The status of a response (60_exceptions.md R250, 30_encoding.md R71). -/
inductive Status where
  | ok | typeKind | bounds | conversionRange | illegalCommand
  deriving DecidableEq, Repr

/-- One response on RSP: a status and the scalar result XD (30_encoding.md R60, R71). -/
structure Response where
  status : Status
  xd     : Word
  deriving DecidableEq, Repr

/-- What the host does next (30_encoding.md R60, 70_reset_and_hazards.md R280, 20_memory.md R49; log entries 3, 7, 8,
9). -/
inductive HostEvent where
  /-- The host issues a command on CMD. -/
  | command (c : Command)
  /-- The host writes one byte of its memory while the unit is idle. -/
  | hostWrite (addr : Word) (b : Byte)
  /-- RESET is asserted while the unit is idle. -/
  | reset
  /-- The host issues a command and RESET is asserted while the command is in flight. -/
  | resetDuring (c : Command)
  deriving DecidableEq, Repr

/-- The state: the unit's own (`regs`, `scratch`), the memory it reaches (`mem`), and the model's own fields for what is
outside the unit (`host`, `responses`, `freeCount`). INVENTORY.md lists each with its rule and reset value. -/
structure State where
  /-- V0 .. V15 (10_state.md R24). -/
  regs      : Vector VReg 16
  /-- The staging region (10_state.md R30). -/
  scratch   : Payload
  /-- The data space (20_memory.md R40). -/
  mem       : Memory
  /-- The events still to come, oldest first; a command at the head is the command in flight (log entry 3). -/
  host      : List HostEvent
  /-- The responses given so far, in order (70_reset_and_hazards.md R288; log entry 5). -/
  responses : List Response
  /-- How many free values have been used (log entry 8). -/
  freeCount : Nat
  deriving DecidableEq, Repr

/-- Why the machine stops with a fault. It has no constructor: "nothing in this unit is undefined: every command word
and every operand value has a defined outcome" (60_exceptions.md R266), and no address is said not to exist (20_memory.md
R40, R48; log entry 6). -/
inductive Fault where
  deriving DecidableEq, Repr

/-- Why an instruction is refused. -/
inductive Refusal where
  /-- Raised by an arm of `exec` whose instruction has no meaning yet; safe: the run stops. No arm raises it: every
  command of the opcode table has its meaning. -/
  | notModelled (mnemonic : String)
  deriving DecidableEq, Repr

/-- What a register holds after RESET: the EMPTY tag (10_state.md R36) and the payload this model names where the spec
says "unspecified; never readable" (DESIGN CHOICE, log entry 1). -/
def VReg.empty : VReg := ⟨none, 0⟩

/-- What SCRATCH holds after RESET, where the spec says "unspecified; never observable" (10_state.md R36; DESIGN CHOICE,
log entry 2). -/
def scratchReset : Payload := 0

/-- The machine right after reset (10_state.md R36, 70_reset_and_hazards.md R280, R281): every tag EMPTY, no command in
flight; no memory byte listed, no event pending, no response given. -/
def State.reset : State where
  regs := Vector.replicate 16 VReg.empty
  scratch := scratchReset
  mem := []
  host := []
  responses := []
  freeCount := 0

end Sys2Proof.Machine
end

