-- ==== Sys2Proof/Machine/Ops.lean ====
section
/-! DEFINITION. The named operations over registers, SCRATCH, memory and the interfaces: a response, an error (this
hardware's way of taking an exception), a command that completes, the tag check, the memory accesses and the buffer
validation, and the templates that many commands share. -/

namespace Sys2Proof.Machine

/-- What a meaning answers. -/
abbrev Result := Host.Outcome State Fault Refusal

/-! ## Registers and SCRATCH -/

/-- V[r] (00_scope.md R10). -/
def State.reg (s : State) (r : VIdx) : VReg := s.regs[r]

/-- V[r].tag. -/
def State.tag (s : State) (r : VIdx) : Option Kind := (s.reg r).tag

/-- V[r].bits. -/
def State.bits (s : State) (r : VIdx) : Payload := (s.reg r).bits

/-- V[r] <- (k, b): tag and payload at once (10_state.md R28). -/
def State.setReg (s : State) (r : VIdx) (k : Kind) (b : Payload) : State :=
  { s with regs := s.regs.set r ⟨some k, b⟩ }

/-- SCRATCH <- b (10_state.md R30). -/
def State.setScratch (s : State) (b : Payload) : State := { s with scratch := b }

/-! ## Memory (20_memory.md R40, R45) -/

/-- What an address that is not listed reads as (DESIGN CHOICE, log entry 6). -/
def Memory.unlisted : Byte := 0

/-- The canonical form: addresses rising from lo on and below 2^64, no byte equal to an unlisted one. -/
def Memory.wfFrom (lo : Nat) : Memory → Bool
  | [] => true
  | (a, b) :: m => decide (lo ≤ a) && decide (a < 2 ^ 64) && decide (b ≠ Memory.unlisted) && Memory.wfFrom (a + 1) m

/-- The memory is in its canonical form. -/
def Memory.wf (m : Memory) : Bool := Memory.wfFrom 0 m

/-- The byte at an address. -/
def Memory.read : Memory → Nat → Byte
  | [], _ => Memory.unlisted
  | (a, b) :: m, addr => if a = addr then b else Memory.read m addr

/-- The memory without an address. -/
def Memory.erase : Memory → Nat → Memory
  | [], _ => []
  | (a, b) :: m, addr => if a = addr then Memory.erase m addr else (a, b) :: Memory.erase m addr

/-- The memory with a byte listed before the first higher address. -/
def Memory.insert : Memory → Nat → Byte → Memory
  | [], addr, v => [(addr, v)]
  | (a, b) :: m, addr, v => if addr < a then (addr, v) :: (a, b) :: m else (a, b) :: Memory.insert m addr v

/-- The byte v is written at an address; a byte equal to an unlisted one is not listed. -/
def Memory.write (m : Memory) (addr : Nat) (v : Byte) : Memory :=
  if v = Memory.unlisted then Memory.erase m addr else Memory.insert (Memory.erase m addr) addr v

/-- The address of byte k of an access: modulo 2^64 (20_memory.md R40). -/
def byteAddress (addr : Word) (k : Nat) : Nat := (addr + BitVec.ofNat 64 k).toNat

/-- MemRead(addr, n), extended with zeros to 128 bits: the byte at addr + k in bits [8k+7:8k] (20_memory.md R45). -/
def memRead (m : Memory) (addr : Word) : (n : Nat) → Payload
  | 0 => 0
  | n + 1 => memRead m addr n ||| ((Memory.read m (byteAddress addr n)).setWidth 128 <<< (8 * n))

/-- MemWrite(addr, n, v): bits [8k+7:8k] of v to the byte at addr + k (20_memory.md R45). -/
def memWrite (m : Memory) (addr : Word) : (n : Nat) → Payload → Memory
  | 0, _ => m
  | n + 1, v => Memory.write (memWrite m addr n v) (byteAddress addr n) (lane 8 v n)

/-- Memory after one byte written. -/
def State.writeByte (s : State) (addr : Word) (b : Byte) : State :=
  { s with mem := Memory.write s.mem addr.toNat b }

/-- Memory after a MemWrite of the low n bytes of SCRATCH (46_load_store.md R229). -/
def State.storeScratch (s : State) (addr : Word) (n : Nat) : State :=
  { s with mem := memWrite s.mem addr n s.scratch }

/-! ## Responses and errors -/

/-- The four error classes (60_exceptions.md R250). -/
inductive Error where
  | typeKind | bounds | conversionRange | illegalCommand
  deriving DecidableEq, Repr

/-- The status that reports an error (60_exceptions.md R250). -/
def Error.status : Error → Status
  | .typeKind => .typeKind
  | .bounds => .bounds
  | .conversionRange => .conversionRange
  | .illegalCommand => .illegalCommand

/-- The 3-bit status code on RSP (60_exceptions.md R250, 30_encoding.md R71). -/
def Status.code : Status → BitVec 3
  | .ok => 0#3
  | .typeKind => 1#3
  | .bounds => 2#3
  | .conversionRange => 3#3
  | .illegalCommand => 4#3

/-- The response to the command in flight is given, and the unit is idle again (30_encoding.md R60). -/
def State.respond (s : State) (status : Status) (xd : Word) : State :=
  { s with host := s.host.tail, responses := s.responses ++ [⟨status, xd⟩] }

/-- Taking an error, the one way an exception is taken on this hardware: nothing is written, the status goes into the
response, XD is 0, and the next command runs as usual (60_exceptions.md R255, R256, R257). -/
def State.raise (s : State) (e : Error) : State := s.respond e.status 0

/-- `raise E` (00_scope.md R10). -/
def raise (e : Error) (s : State) : Result := .next (s.raise e)

/-- The command ends with status OK and a scalar result (30_encoding.md R71, R72 stage 5). -/
def complete (xd : Word) (s : State) : Result := .next (s.respond .ok xd)

/-! ## Templates -/

/-- The unary template (41_arithmetic.md R124), with a result of kind rk: a kind without an operation is illegal
(30_encoding.md R66, R70), then the tag check, then the write. -/
def unary (op : Option UnaryOp) (k rk : Kind) (vd vs1 : VIdx) (s : State) : Result :=
  match op with
  | none => raise .illegalCommand s
  | some f =>
    if s.tag vs1 = some k then complete 0 (s.setReg vd rk (f (s.bits vs1)))
    else raise .typeKind s

/-- The binary template (41_arithmetic.md R124, 42_compare_logic_select.md R150), with a result of kind rk. -/
def binary (op : Option BinaryOp) (k rk : Kind) (vd vs1 vs2 : VIdx) (s : State) : Result :=
  match op with
  | none => raise .illegalCommand s
  | some f =>
    if s.tag vs1 = some k ∧ s.tag vs2 = some k then complete 0 (s.setReg vd rk (f (s.bits vs1) (s.bits vs2)))
    else raise .typeKind s

/-! ## Buffers (46_load_store.md R220 to R224, R229) -/

/-- The lanes that a LOAD or STORE command with prefix count aux moves: N for 0, else aux, which must be below N; none
where the command is illegal (30_encoding.md R66, R76, 46_load_store.md R223). -/
def lanesMoved (k : Kind) (aux : Nat) : Option Nat :=
  match k with
  | .b2 | .b4 | .b8 | .b16 => none
  | .f64x2 | .f32x4 | .i32x4 | .i16x8 | .i8x16 =>
    if aux = 0 then some k.lanes else if aux < k.lanes then some aux else none

/-- The byte address of an access: base plus index times element width, modulo 2^64 (46_load_store.md R222). -/
def bufferAddress (b : Buffer) (ew : Nat) : Word := BitVec.ofInt 64 (b.base.toNat + b.index.toInt * ew)

/-- The validation sequence V1 to V3 (46_load_store.md R221) for req bytes: the address of the access, or the error. -/
def validate (b : Buffer) (req : Nat) : Except Error Word :=
  match elementWidth b.bkind with
  | none => .error .typeKind
  | some ew =>
    if isInt32 b.index = false then .error .typeKind
    else if b.index.toInt < 0 then .error .bounds
    else if b.index.toInt * ew + req > b.byteLength.toNat then .error .bounds
    else .ok (bufferAddress b ew)

/-- A LOAD command with prefix count aux (46_load_store.md R221, R224): through SCRATCH, with zeros beyond the bytes
read. -/
def loadLanes (aux : Nat) (k : Kind) (vd : VIdx) (b : Buffer) (s : State) : Result :=
  match lanesMoved k aux with
  | none => raise .illegalCommand s
  | some cnt =>
    match validate b (requiredBytes k cnt) with
    | .error e => raise e s
    | .ok a =>
      let t := s.setScratch (memRead s.mem a (requiredBytes k cnt))
      complete 0 (t.setReg vd k t.scratch)

/-- A STORE command with prefix count aux (46_load_store.md R221, R229): the tag check first, then through SCRATCH. -/
def storeLanes (aux : Nat) (k : Kind) (vs1 : VIdx) (b : Buffer) (s : State) : Result :=
  match lanesMoved k aux with
  | none => raise .illegalCommand s
  | some cnt =>
    if s.tag vs1 = some k then
      match validate b (requiredBytes k cnt) with
      | .error e => raise e s
      | .ok a => complete 0 ((s.setScratch (s.bits vs1)).storeScratch a (requiredBytes k cnt))
    else raise .typeKind s

end Sys2Proof.Machine
end

