-- ==== Sys2Proof/Machine/Arithmetic.lean ====
section
/-! DEFINITION. The elementwise arithmetic commands (41_arithmetic.md R123 to R137): for each its lane operation on Int,
Float64 and Float32 lanes, put through the templates of Machine/Ops.lean. -/

namespace Sys2Proof.Machine

/-- ADD (41_arithmetic.md R125). -/
def execAdd (k : Kind) (vd vs1 vs2 : VIdx) (s : State) : Result :=
  binary (numericBinary (fun w a b => BitVec.ofInt w (a.toInt + b.toInt)) f64Add (viaF64 f64Add) k) k k vd vs1 vs2 s

/-- SUB (41_arithmetic.md R126). -/
def execSub (k : Kind) (vd vs1 vs2 : VIdx) (s : State) : Result :=
  binary (numericBinary (fun w a b => BitVec.ofInt w (a.toInt - b.toInt)) f64Sub (viaF64 f64Sub) k) k k vd vs1 vs2 s

/-- MUL (41_arithmetic.md R127): the low W bits of the exact product. -/
def execMul (k : Kind) (vd vs1 vs2 : VIdx) (s : State) : Result :=
  binary (numericBinary (fun w a b => BitVec.ofInt w (a.toInt * b.toInt)) f64Mul (viaF64 f64Mul) k) k k vd vs1 vs2 s

/-- DIV (41_arithmetic.md R128), Float kinds only. -/
def execDiv (k : Kind) (vd vs1 vs2 : VIdx) (s : State) : Result :=
  binary (floatBinary f64Div (viaF64 f64Div) k) k k vd vs1 vs2 s

/-- NEG (41_arithmetic.md R129). -/
def execNeg (k : Kind) (vd vs1 : VIdx) (s : State) : Result :=
  unary (numericUnary (fun w a => BitVec.ofInt w (-a.toInt)) (binary64.negLane Config.nanF64)
    (binary32.negLane Config.nanF32) k) k k vd vs1 s

/-- ABS (41_arithmetic.md R130). -/
def execAbs (k : Kind) (vd vs1 : VIdx) (s : State) : Result :=
  unary (numericUnary (fun w a => BitVec.ofInt w a.toInt.natAbs) (binary64.absLane Config.nanF64)
    (binary32.absLane Config.nanF32) k) k k vd vs1 s

/-- SQRT (41_arithmetic.md R131), Float kinds only. -/
def execSqrt (k : Kind) (vd vs1 : VIdx) (s : State) : Result :=
  unary (floatUnary f64Sqrt (viaF64Unary f64Sqrt) k) k k vd vs1 s

/-- 1.0 in binary64 (41_arithmetic.md R132). -/
def one64 : BitVec 64 := 0x3FF0000000000000#64

/-- RCPA (41_arithmetic.md R132), Float kinds only: the correctly rounded quotient 1/a (RCPA_EXACT, log entry 13). -/
def execRcpa (k : Kind) (vd vs1 : VIdx) (s : State) : Result :=
  unary (floatUnary (f64Div one64) (viaF64Unary (f64Div one64)) k) k k vd vs1 s

/-- MIN (41_arithmetic.md R133), Int lanes signed. -/
def execMin (k : Kind) (vd vs1 vs2 : VIdx) (s : State) : Result :=
  binary (numericBinary (fun _ a b => if a.toInt ≤ b.toInt then a else b) (binary64.minLane Config.nanF64)
    (binary32.minLane Config.nanF32) k) k k vd vs1 vs2 s

/-- MAX (41_arithmetic.md R134), Int lanes signed. -/
def execMax (k : Kind) (vd vs1 vs2 : VIdx) (s : State) : Result :=
  binary (numericBinary (fun _ a b => if a.toInt ≥ b.toInt then a else b) (binary64.maxLane Config.nanF64)
    (binary32.maxLane Config.nanF32) k) k k vd vs1 vs2 s

/-- MINNUM (41_arithmetic.md R135), Float kinds only. -/
def execMinnum (k : Kind) (vd vs1 vs2 : VIdx) (s : State) : Result :=
  binary (floatBinary (binary64.minNumLane Config.nanF64) (binary32.minNumLane Config.nanF32) k) k k vd vs1 vs2 s

/-- MAXNUM (41_arithmetic.md R136), Float kinds only. -/
def execMaxnum (k : Kind) (vd vs1 vs2 : VIdx) (s : State) : Result :=
  binary (floatBinary (binary64.maxNumLane Config.nanF64) (binary32.maxNumLane Config.nanF32) k) k k vd vs1 vs2 s

end Sys2Proof.Machine
end

