-- ==== Sys2Proof/Machine/Bitcast.lean ====
section
/-! DEFINITION. The bit-width reinterpretation multiplexer (45_bitcast.md R210 to R214). -/

namespace Sys2Proof.Machine

/-- The kinds that take part in a bitcast: the numeric ones (45_bitcast.md R210, R213). -/
def castable : Kind → Bool
  | .f64x2 | .f32x4 | .i32x4 | .i16x8 | .i8x16 => true
  | .b2 | .b4 | .b8 | .b16 => false

/-- BCAST (45_bitcast.md R210, R211): the source's payload into SCRATCH, SCRATCH into the destination under the target
kind; neither kind may be a Bool kind (R213). -/
def execBcast (k target : Kind) (vd vs1 : VIdx) (s : State) : Result :=
  if castable k && castable target then
    if s.tag vs1 = some k then
      let t := s.setScratch (s.bits vs1)
      complete 0 (t.setReg vd target t.scratch)
    else raise .typeKind s
  else raise .illegalCommand s

end Sys2Proof.Machine
end

