-- ==== Sys2Proof/Machine/CompareLogic.lean ====
section
/-! DEFINITION. Comparison, bitwise logic and select (42_compare_logic_select.md R150 to R163). -/

namespace Sys2Proof.Machine

/-! ## Comparison: a Bool vector with the operands' lane count (42_compare_logic_select.md R150, R157) -/

/-- EQ (42_compare_logic_select.md R151). -/
def execEq (k : Kind) (vd vs1 vs2 : VIdx) (s : State) : Result :=
  binary (numericCompare (fun _ a b => decide (a.toInt = b.toInt)) binary64.eq binary32.eq k) k k.boolOf vd vs1 vs2 s

/-- NE (42_compare_logic_select.md R152): the negation of EQ, so true of unordered lanes. -/
def execNe (k : Kind) (vd vs1 vs2 : VIdx) (s : State) : Result :=
  binary (numericCompare (fun _ a b => decide (a.toInt ≠ b.toInt)) (fun a b => !binary64.eq a b)
    (fun a b => !binary32.eq a b) k) k k.boolOf vd vs1 vs2 s

/-- LT (42_compare_logic_select.md R153). -/
def execLt (k : Kind) (vd vs1 vs2 : VIdx) (s : State) : Result :=
  binary (numericCompare (fun _ a b => decide (a.toInt < b.toInt)) binary64.lt binary32.lt k) k k.boolOf vd vs1 vs2 s

/-- LE (42_compare_logic_select.md R154): ordered, and less or equal. -/
def execLe (k : Kind) (vd vs1 vs2 : VIdx) (s : State) : Result :=
  binary (numericCompare (fun _ a b => decide (a.toInt ≤ b.toInt)) (fun a b => binary64.lt a b || binary64.eq a b)
    (fun a b => binary32.lt a b || binary32.eq a b) k) k k.boolOf vd vs1 vs2 s

/-- GT (42_compare_logic_select.md R155). -/
def execGt (k : Kind) (vd vs1 vs2 : VIdx) (s : State) : Result :=
  binary (numericCompare (fun _ a b => decide (a.toInt > b.toInt)) (fun a b => binary64.lt b a)
    (fun a b => binary32.lt b a) k) k k.boolOf vd vs1 vs2 s

/-- GE (42_compare_logic_select.md R156): ordered, and greater or equal. -/
def execGe (k : Kind) (vd vs1 vs2 : VIdx) (s : State) : Result :=
  binary (numericCompare (fun _ a b => decide (a.toInt ≥ b.toInt)) (fun a b => binary64.lt b a || binary64.eq a b)
    (fun a b => binary32.lt b a || binary32.eq a b) k) k k.boolOf vd vs1 vs2 s

/-! ## Logic -/

/-- AND (42_compare_logic_select.md R158). -/
def execAnd (k : Kind) (vd vs1 vs2 : VIdx) (s : State) : Result :=
  binary (logicBinary (fun _ a b => a &&& b) k) k k vd vs1 vs2 s

/-- OR (42_compare_logic_select.md R159). -/
def execOr (k : Kind) (vd vs1 vs2 : VIdx) (s : State) : Result :=
  binary (logicBinary (fun _ a b => a ||| b) k) k k vd vs1 vs2 s

/-- XOR (42_compare_logic_select.md R160). -/
def execXor (k : Kind) (vd vs1 vs2 : VIdx) (s : State) : Result :=
  binary (logicBinary (fun _ a b => a ^^^ b) k) k k vd vs1 vs2 s

/-- NOT (42_compare_logic_select.md R161): lane by lane, so a Bool payload keeps bits [127:N] zero. -/
def execNot (k : Kind) (vd vs1 : VIdx) (s : State) : Result :=
  unary (logicUnary (fun _ a => ~~~ a) k) k k vd vs1 s

/-! ## Select -/

/-- The payload that takes lane j from t where bit j of the mask is 1, else from f (42_compare_logic_select.md R162). -/
def selectLanes (w n : Nat) (m t f : Payload) : Payload :=
  pack w (fun j => if m.getLsbD j then lane w t j else lane w f j) n

/-- SEL (42_compare_logic_select.md R162): the mask must be a Bool vector with k's lane count. -/
def execSel (k : Kind) (vd vs1 vs2 vs3 : VIdx) (s : State) : Result :=
  match k with
  | .b2 | .b4 | .b8 | .b16 => raise .illegalCommand s
  | .f64x2 | .f32x4 | .i32x4 | .i16x8 | .i8x16 =>
    if s.tag vs1 = some k.boolOf ∧ s.tag vs2 = some k ∧ s.tag vs3 = some k then
      complete 0 (s.setReg vd k (selectLanes k.width k.lanes (s.bits vs1) (s.bits vs2) (s.bits vs3)))
    else raise .typeKind s

/-- The per-bit composition (m & t) | (~m & f) on all 128 bits (42_compare_logic_select.md R163). -/
def selectBits (m t f : Payload) : Payload := (m &&& t) ||| (~~~ m &&& f)

/-- SELB (42_compare_logic_select.md R163), Int kinds only. -/
def execSelb (k : Kind) (vd vs1 vs2 vs3 : VIdx) (s : State) : Result :=
  match k with
  | .f64x2 | .f32x4 | .b2 | .b4 | .b8 | .b16 => raise .illegalCommand s
  | .i32x4 | .i16x8 | .i8x16 =>
    if s.tag vs1 = some k ∧ s.tag vs2 = some k ∧ s.tag vs3 = some k then
      complete 0 (s.setReg vd k (selectBits (s.bits vs1) (s.bits vs2) (s.bits vs3)))
    else raise .typeKind s

end Sys2Proof.Machine
end

