-- ==== Sys2Proof/Machine/LaneAccess.lean ====
section
/-! DEFINITION. The lane access commands (40_lane_access.md R101 to R105). -/

namespace Sys2Proof.Machine

/-- CHECK (40_lane_access.md R101). -/
def execCheck (k : Kind) (vs1 : VIdx) (s : State) : Result :=
  if s.tag vs1 = some k then complete 0 s else raise .typeKind s

/-- EXTRACT (40_lane_access.md R102): the tag check, the lane-index check, the lane as a scalar. -/
def execExtract (k : Kind) (vs1 : VIdx) (index : Word) (s : State) : Result :=
  if s.tag vs1 = some k then
    if laneIndexOk index k.lanes then complete (laneOut k (lane k.width (s.bits vs1) index.toNat)) s
    else raise .bounds s
  else raise .typeKind s

/-- REPLACE (40_lane_access.md R103): the tag check, the lane-index check, one lane replaced by the coerced scalar. -/
def execReplace (k : Kind) (vd vs1 : VIdx) (index scalar : Word) (s : State) : Result :=
  if s.tag vs1 = some k then
    if laneIndexOk index k.lanes then
      complete 0 (s.setReg vd k (replaceLane k.width (s.bits vs1) index.toNat (coerce k scalar)))
    else raise .bounds s
  else raise .typeKind s

/-- SPLAT (40_lane_access.md R104): every lane the coerced scalar. -/
def execSplat (k : Kind) (vd : VIdx) (scalar : Word) (s : State) : Result :=
  complete 0 (s.setReg vd k (pack k.width (fun _ => coerce k scalar) k.lanes))

/-- CONS (40_lane_access.md R105): coerced scalars below argc, absent ones beyond. -/
def execCons (k : Kind) (vd : VIdx) (argc : Fin 32) (x : Operands) (s : State) : Result :=
  if argc.val ≤ k.lanes then
    complete 0 (s.setReg vd k
      (pack k.width (fun j => if j < argc.val then coerce k (word x j) else missing k) k.lanes))
  else raise .illegalCommand s

end Sys2Proof.Machine
end

