-- ==== Sys2Proof/Machine/LoadStore.lean ====
section
/-! DEFINITION. The vector load/store controller (46_load_store.md R220 to R236): eight commands over the shared load and
store of Machine/Ops.lean, told apart by the prefix count. The bytes move unchanged for every pair of buffer kind and
vector kind (R234). -/

namespace Sys2Proof.Machine

/-- LOAD (46_load_store.md R225). -/
def execLoad (k : Kind) (vd : VIdx) (buf : Buffer) (s : State) : Result := loadLanes 0 k vd buf s
/-- LOAD1 (46_load_store.md R226). -/
def execLoad1 (k : Kind) (vd : VIdx) (buf : Buffer) (s : State) : Result := loadLanes 1 k vd buf s
/-- LOAD2 (46_load_store.md R227). -/
def execLoad2 (k : Kind) (vd : VIdx) (buf : Buffer) (s : State) : Result := loadLanes 2 k vd buf s
/-- LOAD3 (46_load_store.md R228). -/
def execLoad3 (k : Kind) (vd : VIdx) (buf : Buffer) (s : State) : Result := loadLanes 3 k vd buf s

/-- STORE (46_load_store.md R230). -/
def execStore (k : Kind) (vs1 : VIdx) (buf : Buffer) (s : State) : Result := storeLanes 0 k vs1 buf s
/-- STORE1 (46_load_store.md R231). -/
def execStore1 (k : Kind) (vs1 : VIdx) (buf : Buffer) (s : State) : Result := storeLanes 1 k vs1 buf s
/-- STORE2 (46_load_store.md R232). -/
def execStore2 (k : Kind) (vs1 : VIdx) (buf : Buffer) (s : State) : Result := storeLanes 2 k vs1 buf s
/-- STORE3 (46_load_store.md R233). -/
def execStore3 (k : Kind) (vs1 : VIdx) (buf : Buffer) (s : State) : Result := storeLanes 3 k vs1 buf s

end Sys2Proof.Machine
end

