-- ==== Sys2Proof/Machine/Permute.lean ====
section
/-! DEFINITION. The swizzle and shuffle network (44_swizzle_shuffle.md R200 to R203). -/

namespace Sys2Proof.Machine

/-- The payload whose lane j is lane X[j] of the source (44_swizzle_shuffle.md R201). -/
def swizzleLanes (w n : Nat) (x : Operands) (a : Payload) : Payload :=
  pack w (fun j => lane w a (word x j).toNat) n

/-- The payload whose lane j is lane X[j] of the two sources laid end to end, the first source's lanes first
(44_swizzle_shuffle.md R202). -/
def shuffleLanes (w n : Nat) (x : Operands) (a b : Payload) : Payload :=
  pack w (fun j => if (word x j).toNat < n then lane w a (word x j).toNat else lane w b ((word x j).toNat - n)) n

/-- SWZ (44_swizzle_shuffle.md R201): the tag check, then every index, then the write. -/
def execSwz (k : Kind) (vd vs1 : VIdx) (x : Operands) (s : State) : Result :=
  match k with
  | .b2 | .b4 | .b8 | .b16 => raise .illegalCommand s
  | .f64x2 | .f32x4 | .i32x4 | .i16x8 | .i8x16 =>
    if s.tag vs1 = some k then
      if indicesOk x k.lanes k.lanes then
        complete 0 (s.setReg vd k (swizzleLanes k.width k.lanes x (s.bits vs1)))
      else raise .bounds s
    else raise .typeKind s

/-- SHUF (44_swizzle_shuffle.md R202). -/
def execShuf (k : Kind) (vd vs1 vs2 : VIdx) (x : Operands) (s : State) : Result :=
  match k with
  | .b2 | .b4 | .b8 | .b16 => raise .illegalCommand s
  | .f64x2 | .f32x4 | .i32x4 | .i16x8 | .i8x16 =>
    if s.tag vs1 = some k ∧ s.tag vs2 = some k then
      if indicesOk x (2 * k.lanes) k.lanes then
        complete 0 (s.setReg vd k (shuffleLanes k.width k.lanes x (s.bits vs1) (s.bits vs2)))
      else raise .bounds s
    else raise .typeKind s

end Sys2Proof.Machine
end

