-- ==== Sys2Proof/Machine/ShiftSaturate.lean ====
section
/-! DEFINITION. Shifts, saturating arithmetic, the sum of absolute differences and the float-to-integer conversion
(43_shift_saturate_convert.md R180 to R188). -/

namespace Sys2Proof.Machine

/-! ## Shifts (43_shift_saturate_convert.md R180 to R184) -/

/-- A lane shifted left: wrap_W(uint(a) * 2^c). -/
def shlLane (c : Nat) (w : Nat) (a : BitVec w) : BitVec w := BitVec.ofNat w (a.toNat * 2 ^ c)

/-- A lane shifted right, zeros entering at the top: wrap_W(floor(uint(a) / 2^c)). -/
def shrlLane (c : Nat) (w : Nat) (a : BitVec w) : BitVec w := BitVec.ofNat w (a.toNat / 2 ^ c)

/-- A lane shifted right, copies of the sign entering at the top: wrap_W(floor(sint(a) / 2^c)). -/
def shraLane (c : Nat) (w : Nat) (a : BitVec w) : BitVec w := BitVec.ofInt w (a.toInt / 2 ^ c)

/-- The count of a left or logical right shift (43_shift_saturate_convert.md R180): none where the result is all zero
(32-bit lanes, count 32 and above); clamped on narrower lanes. -/
def logicalCount (w c : Nat) : Option Nat :=
  if w = 32 then if c ≥ 32 then none else some c
  else some (Nat.min c (Config.narrowShiftClamp w))

/-- The count of an arithmetic right shift (43_shift_saturate_convert.md R180): clamped to 31 on 32-bit lanes. -/
def arithmeticCount (w c : Nat) : Nat :=
  if w = 32 then Nat.min c 31 else Nat.min c (Config.narrowShiftClamp w)

/-- A left or logical right shift of a lane, zero where there is no count. -/
def logicalShiftLane (shift : Nat → (w : Nat) → BitVec w → BitVec w) (c w : Nat) (a : BitVec w) : BitVec w :=
  match logicalCount w c with
  | none => 0
  | some c' => shift c' w a

/-- SHL (43_shift_saturate_convert.md R181). -/
def execShl (k : Kind) (vd vs1 : VIdx) (count : Word) (s : State) : Result :=
  unary (intUnary (logicalShiftLane shlLane (shiftCount count)) k) k k vd vs1 s

/-- SHRL (43_shift_saturate_convert.md R182). -/
def execShrl (k : Kind) (vd vs1 : VIdx) (count : Word) (s : State) : Result :=
  unary (intUnary (logicalShiftLane shrlLane (shiftCount count)) k) k k vd vs1 s

/-- SHRA (43_shift_saturate_convert.md R183). -/
def execShra (k : Kind) (vd vs1 : VIdx) (count : Word) (s : State) : Result :=
  unary (intUnary (fun w a => shraLane (arithmeticCount w (shiftCount count)) w a) k) k k vd vs1 s

/-! ## Saturating arithmetic -/

/-- A saturated sum (43_shift_saturate_convert.md R185). -/
def addsLane (w : Nat) (a b : BitVec w) : BitVec w := if addOverflow a b then clampLane a else wrappedSum a b

/-- A saturated difference (43_shift_saturate_convert.md R186). -/
def subsLane (w : Nat) (a b : BitVec w) : BitVec w := if subOverflow a b then clampLane a else wrappedDifference a b

/-- An operation that is legal for Int16x8 and Int8x16 only. -/
def narrowBinary (int : (w : Nat) → BitVec w → BitVec w → BitVec w) : Kind → Option BinaryOp
  | .i16x8 => some (map2 16 8 (int 16))
  | .i8x16 => some (map2 8 16 (int 8))
  | .f64x2 | .f32x4 | .i32x4 | .b2 | .b4 | .b8 | .b16 => none

/-- ADDS (43_shift_saturate_convert.md R185). -/
def execAdds (k : Kind) (vd vs1 vs2 : VIdx) (s : State) : Result :=
  binary (narrowBinary addsLane k) k k vd vs1 vs2 s

/-- SUBS (43_shift_saturate_convert.md R186). -/
def execSubs (k : Kind) (vd vs1 vs2 : VIdx) (s : State) : Result :=
  binary (narrowBinary subsLane k) k k vd vs1 vs2 s

/-! ## Sum of absolute differences -/

/-- The exact sum over the first n lanes of the absolute differences of signed 8-bit lanes
(43_shift_saturate_convert.md R187). -/
def sumAbsDiff (a b : Payload) : (n : Nat) → Nat
  | 0 => 0
  | n + 1 => sumAbsDiff a b n + ((lane 8 a n).toInt - (lane 8 b n).toInt).natAbs

/-- SAD (43_shift_saturate_convert.md R187), Int8x16 only; the sum goes to XD. -/
def execSad (k : Kind) (vs1 vs2 : VIdx) (s : State) : Result :=
  match k with
  | .f64x2 | .f32x4 | .i32x4 | .i16x8 | .b2 | .b4 | .b8 | .b16 => raise .illegalCommand s
  | .i8x16 =>
    if s.tag vs1 = some k ∧ s.tag vs2 = some k then
      complete (BitVec.ofNat 64 (sumAbsDiff (s.bits vs1) (s.bits vs2) 16)) s
    else raise .typeKind s

/-! ## Conversion -/

/-- The four lanes truncated, or none where one lane fails (43_shift_saturate_convert.md R188). -/
def truncLanes (a : Payload) : Option Payload :=
  match truncLane (lane 32 a 0), truncLane (lane 32 a 1), truncLane (lane 32 a 2), truncLane (lane 32 a 3) with
  | some r0, some r1, some r2, some r3 => some (r3 ++ r2 ++ r1 ++ r0)
  | _, _, _, _ => none

/-- FROMF (43_shift_saturate_convert.md R188): the result kind is Int32x4, the source must be Float32x4. -/
def execFromf (k : Kind) (vd vs1 : VIdx) (s : State) : Result :=
  match k with
  | .f64x2 | .f32x4 | .i16x8 | .i8x16 | .b2 | .b4 | .b8 | .b16 => raise .illegalCommand s
  | .i32x4 =>
    if s.tag vs1 = some .f32x4 then
      match truncLanes (s.bits vs1) with
      | none => raise .conversionRange s
      | some r => complete 0 (s.setReg vd .i32x4 r)
    else raise .typeKind s

end Sys2Proof.Machine
end

