-- ==== Sys2Proof/Machine/Dispatch.lean ====
section
/-! DEFINITION. One arm per command: each calls that command's meaning. -/

namespace Sys2Proof.Machine

-- The execution of a decoded command (30_encoding.md R72, stages 2 to 5).
def exec (i : Instr) (s : State) : Host.Outcome State Fault Refusal :=
  match i with
  | .check k vs1 => Sys2Proof.Machine.execCheck k vs1 s
  | .extract k vs1 index => Sys2Proof.Machine.execExtract k vs1 index s
  | .replace k vd vs1 index scalar => Sys2Proof.Machine.execReplace k vd vs1 index scalar s
  | .splat k vd scalar => Sys2Proof.Machine.execSplat k vd scalar s
  | .cons k vd argc x => Sys2Proof.Machine.execCons k vd argc x s
  | .add k vd vs1 vs2 => Sys2Proof.Machine.execAdd k vd vs1 vs2 s
  | .sub k vd vs1 vs2 => Sys2Proof.Machine.execSub k vd vs1 vs2 s
  | .mul k vd vs1 vs2 => Sys2Proof.Machine.execMul k vd vs1 vs2 s
  | .div k vd vs1 vs2 => Sys2Proof.Machine.execDiv k vd vs1 vs2 s
  | .neg k vd vs1 => Sys2Proof.Machine.execNeg k vd vs1 s
  | .abs k vd vs1 => Sys2Proof.Machine.execAbs k vd vs1 s
  | .sqrt k vd vs1 => Sys2Proof.Machine.execSqrt k vd vs1 s
  | .rcpa k vd vs1 => Sys2Proof.Machine.execRcpa k vd vs1 s
  | .min k vd vs1 vs2 => Sys2Proof.Machine.execMin k vd vs1 vs2 s
  | .max k vd vs1 vs2 => Sys2Proof.Machine.execMax k vd vs1 vs2 s
  | .minnum k vd vs1 vs2 => Sys2Proof.Machine.execMinnum k vd vs1 vs2 s
  | .maxnum k vd vs1 vs2 => Sys2Proof.Machine.execMaxnum k vd vs1 vs2 s
  | .eq k vd vs1 vs2 => Sys2Proof.Machine.execEq k vd vs1 vs2 s
  | .ne k vd vs1 vs2 => Sys2Proof.Machine.execNe k vd vs1 vs2 s
  | .lt k vd vs1 vs2 => Sys2Proof.Machine.execLt k vd vs1 vs2 s
  | .le k vd vs1 vs2 => Sys2Proof.Machine.execLe k vd vs1 vs2 s
  | .gt k vd vs1 vs2 => Sys2Proof.Machine.execGt k vd vs1 vs2 s
  | .ge k vd vs1 vs2 => Sys2Proof.Machine.execGe k vd vs1 vs2 s
  | .and k vd vs1 vs2 => Sys2Proof.Machine.execAnd k vd vs1 vs2 s
  | .or k vd vs1 vs2 => Sys2Proof.Machine.execOr k vd vs1 vs2 s
  | .xor k vd vs1 vs2 => Sys2Proof.Machine.execXor k vd vs1 vs2 s
  | .not k vd vs1 => Sys2Proof.Machine.execNot k vd vs1 s
  | .sel k vd vs1 vs2 vs3 => Sys2Proof.Machine.execSel k vd vs1 vs2 vs3 s
  | .selb k vd vs1 vs2 vs3 => Sys2Proof.Machine.execSelb k vd vs1 vs2 vs3 s
  | .shl k vd vs1 count => Sys2Proof.Machine.execShl k vd vs1 count s
  | .shrl k vd vs1 count => Sys2Proof.Machine.execShrl k vd vs1 count s
  | .shra k vd vs1 count => Sys2Proof.Machine.execShra k vd vs1 count s
  | .adds k vd vs1 vs2 => Sys2Proof.Machine.execAdds k vd vs1 vs2 s
  | .subs k vd vs1 vs2 => Sys2Proof.Machine.execSubs k vd vs1 vs2 s
  | .sad k vs1 vs2 => Sys2Proof.Machine.execSad k vs1 vs2 s
  | .fromf k vd vs1 => Sys2Proof.Machine.execFromf k vd vs1 s
  | .swz k vd vs1 x => Sys2Proof.Machine.execSwz k vd vs1 x s
  | .shuf k vd vs1 vs2 x => Sys2Proof.Machine.execShuf k vd vs1 vs2 x s
  | .bcast k target vd vs1 => Sys2Proof.Machine.execBcast k target vd vs1 s
  | .load k vd buf => Sys2Proof.Machine.execLoad k vd buf s
  | .load1 k vd buf => Sys2Proof.Machine.execLoad1 k vd buf s
  | .load2 k vd buf => Sys2Proof.Machine.execLoad2 k vd buf s
  | .load3 k vd buf => Sys2Proof.Machine.execLoad3 k vd buf s
  | .store k vs1 buf => Sys2Proof.Machine.execStore k vs1 buf s
  | .store1 k vs1 buf => Sys2Proof.Machine.execStore1 k vs1 buf s
  | .store2 k vs1 buf => Sys2Proof.Machine.execStore2 k vs1 buf s
  | .store3 k vs1 buf => Sys2Proof.Machine.execStore3 k vs1 buf s

end Sys2Proof.Machine
end

