-- ==== Sys2Proof/Machine/Host.lean ====
section
/-! DEFINITION. What the host does beside issuing commands: its own writes to its memory (20_memory.md R49) and RESET
(70_reset_and_hazards.md R280, R281). -/

namespace Sys2Proof.Machine

/-- The host has written a byte of its memory while the unit is idle; no response is given (log entry 9). -/
def State.afterHostWrite (s : State) (addr : Word) (b : Byte) : State :=
  { s.writeByte addr b with host := s.host.tail }

/-- RESET while the unit is idle: the unit is in its reset state, the memory is not touched (70_reset_and_hazards.md
R280; log entry 7). -/
def State.afterReset (s : State) : State :=
  { s with regs := State.reset.regs, scratch := State.reset.scratch, host := s.host.tail }

/-- The memory that a command would have left; a command that answers no next state leaves the memory as it is. -/
def memoryAfter (s : State) (r : Result) : Memory :=
  match r with
  | .next t => t.mem
  | .fault _ => s.mem
  | .refused _ => s.mem

/-- RESET while a command is in flight, r being what the command would have answered: no response is given, the unit is
in its reset state, and a store has written all its bytes or none of them, as a free value says (70_reset_and_hazards.md
R280, 93_implementation_defined.md U12; log entry 8). -/
def State.afterResetDuring (s : State) (r : Result) : State :=
  { s.afterReset with
    mem := if Config.abandonedStoreLands s.freeCount then memoryAfter s r else s.mem
    freeCount := s.freeCount + 1 }

end Sys2Proof.Machine
end

