-- ==== Sys2Proof/Machine/Step.lean ====
section
/-! DEFINITION. One step: the next event of the host. A command is decoded and executed, an illegal one raises
IllegalCommand (30_encoding.md R70, R72); a write of the host and RESET act as Machine/Host.lean says; with no event the
unit is idle. -/

namespace Sys2Proof.Machine

/-- One command, whole (30_encoding.md R72). -/
def runCommand (c : Command) (s : State) : Host.Outcome State Fault Refusal :=
  match decode c with
  | .ok i => exec i s
  | .error _ => raise .illegalCommand s

/-- One step: the event at the head of the host's list. -/
def step (s : State) : Host.Outcome State Fault Refusal :=
  match s.host with
  | [] => .next s
  | .command c :: _ => runCommand c s
  | .hostWrite addr b :: _ => .next (s.afterHostWrite addr b)
  | .reset :: _ => .next s.afterReset
  | .resetDuring c :: _ => .next (s.afterResetDuring (runCommand c s))

/-- The command whose bits are w, presented before every event still to come, so that the next step runs it (log entries
3 and 15). -/
def State.withFetchWord (s : State) (nbits w : Nat) : State :=
  { s with host := .command (commandOfBits (w % 2 ^ nbits)) :: s.host }

end Sys2Proof.Machine
end

