-- ==== Sys2Proof/Safety.lean ====
section
/-! DEFINITION. The terms that claims are made in: what a command reads and writes, which error a command meets, what a
vector of lanes is, correct rounding, the invariant of every state, and when two states cannot be told apart. Nothing
here is used by the machine. -/

namespace Sys2Proof

/-! ## What a command names (30_encoding.md R65) -/

/-- The register that a command writes. -/
def Instr.dest : Instr → Option VIdx
  | .check _ _ | .extract _ _ _ | .sad _ _ _ => none
  | .store _ _ _ | .store1 _ _ _ | .store2 _ _ _ | .store3 _ _ _ => none
  | .replace _ vd _ _ _ | .splat _ vd _ | .cons _ vd _ _ => some vd
  | .add _ vd _ _ | .sub _ vd _ _ | .mul _ vd _ _ | .div _ vd _ _ => some vd
  | .neg _ vd _ | .abs _ vd _ | .sqrt _ vd _ | .rcpa _ vd _ => some vd
  | .min _ vd _ _ | .max _ vd _ _ | .minnum _ vd _ _ | .maxnum _ vd _ _ => some vd
  | .eq _ vd _ _ | .ne _ vd _ _ | .lt _ vd _ _ | .le _ vd _ _ | .gt _ vd _ _ | .ge _ vd _ _ => some vd
  | .and _ vd _ _ | .or _ vd _ _ | .xor _ vd _ _ | .not _ vd _ => some vd
  | .sel _ vd _ _ _ | .selb _ vd _ _ _ => some vd
  | .shl _ vd _ _ | .shrl _ vd _ _ | .shra _ vd _ _ => some vd
  | .adds _ vd _ _ | .subs _ vd _ _ | .fromf _ vd _ => some vd
  | .swz _ vd _ _ | .shuf _ vd _ _ _ | .bcast _ _ vd _ => some vd
  | .load _ vd _ | .load1 _ vd _ | .load2 _ vd _ | .load3 _ vd _ => some vd

/-- The source registers of a command, each with the kind that its tag must have: `k`, but BoolOf(k) for the mask of SEL
and Float32x4 for the source of FROMF (60_exceptions.md R251). -/
def Instr.sources : Instr → List (VIdx × Kind)
  | .check k a | .extract k a _ | .replace k _ a _ _ => [(a, k)]
  | .splat _ _ _ | .cons _ _ _ _ => []
  | .add k _ a b | .sub k _ a b | .mul k _ a b | .div k _ a b => [(a, k), (b, k)]
  | .neg k _ a | .abs k _ a | .sqrt k _ a | .rcpa k _ a | .not k _ a => [(a, k)]
  | .min k _ a b | .max k _ a b | .minnum k _ a b | .maxnum k _ a b => [(a, k), (b, k)]
  | .eq k _ a b | .ne k _ a b | .lt k _ a b | .le k _ a b | .gt k _ a b | .ge k _ a b => [(a, k), (b, k)]
  | .and k _ a b | .or k _ a b | .xor k _ a b => [(a, k), (b, k)]
  | .sel k _ m t f => [(m, k.boolOf), (t, k), (f, k)]
  | .selb k _ m t f => [(m, k), (t, k), (f, k)]
  | .shl k _ a _ | .shrl k _ a _ | .shra k _ a _ => [(a, k)]
  | .adds k _ a b | .subs k _ a b | .sad k a b => [(a, k), (b, k)]
  | .fromf _ _ a => [(a, .f32x4)]
  | .swz k _ a _ => [(a, k)]
  | .shuf k _ a b _ => [(a, k), (b, k)]
  | .bcast k _ _ a => [(a, k)]
  | .load _ _ _ | .load1 _ _ _ | .load2 _ _ _ | .load3 _ _ _ => []
  | .store k a _ | .store1 k a _ | .store2 k a _ | .store3 k a _ => [(a, k)]

/-- The lanes that a prefix count moves (46_load_store.md R220): all N for 0. -/
def Kind.prefixLanes (k : Kind) (aux : Nat) : Nat := if aux = 0 then k.lanes else aux

/-- The buffer operand of a LOAD or STORE command and the bytes it moves, cnt * W(K)/8 (46_load_store.md R222). -/
def Instr.access : Instr → Option (Buffer × Nat)
  | .load k _ b | .store k _ b => some (b, k.prefixLanes 0 * k.width / 8)
  | .load1 k _ b | .store1 k _ b => some (b, k.prefixLanes 1 * k.width / 8)
  | .load2 k _ b | .store2 k _ b => some (b, k.prefixLanes 2 * k.width / 8)
  | .load3 k _ b | .store3 k _ b => some (b, k.prefixLanes 3 * k.width / 8)
  | .check _ _ | .extract _ _ _ | .replace _ _ _ _ _ | .splat _ _ _ | .cons _ _ _ _ => none
  | .add _ _ _ _ | .sub _ _ _ _ | .mul _ _ _ _ | .div _ _ _ _ | .neg _ _ _ | .abs _ _ _ | .sqrt _ _ _ => none
  | .rcpa _ _ _ | .min _ _ _ _ | .max _ _ _ _ | .minnum _ _ _ _ | .maxnum _ _ _ _ => none
  | .eq _ _ _ _ | .ne _ _ _ _ | .lt _ _ _ _ | .le _ _ _ _ | .gt _ _ _ _ | .ge _ _ _ _ => none
  | .and _ _ _ _ | .or _ _ _ _ | .xor _ _ _ _ | .not _ _ _ | .sel _ _ _ _ _ | .selb _ _ _ _ _ => none
  | .shl _ _ _ _ | .shrl _ _ _ _ | .shra _ _ _ _ | .adds _ _ _ _ | .subs _ _ _ _ | .sad _ _ _ => none
  | .fromf _ _ _ | .swz _ _ _ _ | .shuf _ _ _ _ _ | .bcast _ _ _ _ => none

/-- The STORE commands. -/
def Instr.isStore : Instr → Bool
  | .store _ _ _ | .store1 _ _ _ | .store2 _ _ _ | .store3 _ _ _ => true
  | .check _ _ | .extract _ _ _ | .replace _ _ _ _ _ | .splat _ _ _ | .cons _ _ _ _ => false
  | .add _ _ _ _ | .sub _ _ _ _ | .mul _ _ _ _ | .div _ _ _ _ | .neg _ _ _ | .abs _ _ _ | .sqrt _ _ _ => false
  | .rcpa _ _ _ | .min _ _ _ _ | .max _ _ _ _ | .minnum _ _ _ _ | .maxnum _ _ _ _ => false
  | .eq _ _ _ _ | .ne _ _ _ _ | .lt _ _ _ _ | .le _ _ _ _ | .gt _ _ _ _ | .ge _ _ _ _ => false
  | .and _ _ _ _ | .or _ _ _ _ | .xor _ _ _ _ | .not _ _ _ | .sel _ _ _ _ _ | .selb _ _ _ _ _ => false
  | .shl _ _ _ _ | .shrl _ _ _ _ | .shra _ _ _ _ | .adds _ _ _ _ | .subs _ _ _ _ | .sad _ _ _ => false
  | .fromf _ _ _ | .swz _ _ _ _ | .shuf _ _ _ _ _ | .bcast _ _ _ _ => false
  | .load _ _ _ | .load1 _ _ _ | .load2 _ _ _ | .load3 _ _ _ => false

/-- The commands that go through SCRATCH: BCAST, LOAD and STORE (10_state.md R30). -/
def Instr.usesScratch (i : Instr) : Bool :=
  match i with
  | .bcast _ _ _ _ => true
  | i => i.access.isSome

/-- The commands with a scalar result: EXTRACT and SAD (30_encoding.md R71). -/
def Instr.hasScalarResult (i : Instr) : Bool :=
  match i with
  | .extract _ _ _ | .sad _ _ _ => true
  | _ => false

namespace Machine

/-! ## Vectors -/

/-- b is pack_K(l 0, .., l (N-1)) of 00_scope.md R10: those lanes, and every bit that belongs to no lane 0. -/
def IsVector (k : Kind) (b : Payload) (l : Nat → BitVec k.width) : Prop :=
  (∀ j < k.lanes, lane k.width b j = l j) ∧ b >>> (k.lanes * k.width) = 0

/-! ## Which error a command meets (60_exceptions.md R251 to R254) -/

/-- Stage 2 of 30_encoding.md R72: every source register has its kind; a buffer kind is one of 1 .. 5 and a buffer index
a 32-bit integer. -/
def kindsValid (i : Instr) (s : State) : Bool :=
  i.sources.all (fun p => decide (s.tag p.1 = some p.2)) &&
    match i.access with
    | none => true
    | some (b, _) => decide (1 ≤ b.bkind.toNat ∧ b.bkind.toNat ≤ 5) &&
        decide (-2 ^ 31 ≤ b.index.toInt ∧ b.index.toInt < 2 ^ 31)

/-- An operand word, read as sint_64, lies in [0, limit). -/
def inRange (x : Word) (limit : Nat) : Bool := decide (0 ≤ x.toInt ∧ x.toInt < limit)

/-- The element width of a buffer kind 1 .. 5 (20_memory.md R42). -/
def widthOfBufferKind (bkind : Nat) : Nat := [0, 8, 4, 4, 2, 1].getD bkind 0

/-- Stage 3: lane indices, permutation indices and the byte range of an access. -/
def rangesValid (i : Instr) : Bool :=
  (match i with
   | .extract k _ x | .replace k _ _ x _ => inRange x k.lanes
   | .swz k _ _ x => (List.range k.lanes).all fun j => inRange (word x j) k.lanes
   | .shuf k _ _ _ x => (List.range k.lanes).all fun j => inRange (word x j) (2 * k.lanes)
   | _ => true) &&
    match i.access with
    | none => true
    | some (b, req) => decide (0 ≤ b.index.toInt ∧
        b.index.toInt * widthOfBufferKind b.bkind.toNat + req ≤ b.byteLength.toNat)

/-- A Float32 lane's value lies in the open interval (-2^31 - 1, 2^31) (43_shift_saturate_convert.md R188). -/
def convertible (l : BitVec 32) : Bool :=
  match binary32.unpack l with
  | .nan | .inf _ => false
  | .fin n u => decide (-(2 ^ 31 + 1) * 2 ^ 149 < signedUnits n u ∧ signedUnits n u < 2 ^ 31 * 2 ^ 149)

/-- Stage 4: every lane of FROMF's source is in range. -/
def valuesValid (i : Instr) (s : State) : Bool :=
  match i with
  | .fromf _ _ a => (List.range 4).all fun j => convertible (lane 32 (s.bits a) j)
  | _ => true

/-- The first error a command meets, in the order of the stages of 30_encoding.md R72 (60_exceptions.md R254). -/
def firstError (i : Instr) (s : State) : Option Error :=
  if i.wellFormed = false then some .illegalCommand
  else if kindsValid i s = false then some .typeKind
  else if rangesValid i = false then some .bounds
  else if valuesValid i s = false then some .conversionRange
  else none

/-- The status that reports the first error, OK where there is none (60_exceptions.md R250). -/
def expectedStatus (i : Instr) (s : State) : Status :=
  match firstError i s with
  | none => .ok
  | some e => e.status

/-! ## Correct rounding (41_arithmetic.md R120, R121) -/

/-- The units of the encoding whose bits below the sign bit are m; for the bits of infinity, the power of two that the
largest finite value is followed by. -/
def FloatFormat.unitsAt (F : FloatFormat) (m : Nat) : Nat :=
  if m < 2 ^ F.fracBits then m else (2 ^ F.fracBits + m % 2 ^ F.fracBits) * 2 ^ (m / 2 ^ F.fracBits - 1)

/-- `low` are the bits below the sign bit of the value nearest to n/d units, ties to even, an infinity where that value
is beyond the range: n/d lies between the midpoints to every other encoding, and on one only if `low` is even. -/
def FloatFormat.NearestEven (F : FloatFormat) (low n d : Nat) : Prop :=
  low ≤ F.infBits ∧
  (∀ m < low, (F.unitsAt m + F.unitsAt low) * d ≤ 2 * n ∧
    ((F.unitsAt m + F.unitsAt low) * d = 2 * n → low % 2 = 0)) ∧
  (∀ m ≤ F.infBits, low < m → 2 * n ≤ (F.unitsAt low + F.unitsAt m) * d ∧
    (2 * n = (F.unitsAt low + F.unitsAt m) * d → low % 2 = 0))

/-- As NearestEven, for the value nearest to the square root of n, in units. -/
def FloatFormat.NearestEvenRoot (F : FloatFormat) (low n : Nat) : Prop :=
  low ≤ F.infBits ∧
  (∀ m < low, (F.unitsAt m + F.unitsAt low) ^ 2 ≤ 4 * n ∧
    ((F.unitsAt m + F.unitsAt low) ^ 2 = 4 * n → low % 2 = 0)) ∧
  (∀ m ≤ F.infBits, low < m → 4 * n ≤ (F.unitsAt low + F.unitsAt m) ^ 2 ∧
    (4 * n = (F.unitsAt low + F.unitsAt m) ^ 2 → low % 2 = 0))

/-! ## Float lanes by their bits (10_state.md R25, 41_arithmetic.md R122) -/

/-- The bits below the sign bit of a float lane. -/
def lowBits {w : Nat} (b : BitVec w) : Nat := b.toNat % 2 ^ (w - 1)

/-- The format of the lanes of a Float kind. -/
def floatFormat : Kind → FloatFormat
  | .f64x2 => binary64
  | .f32x4 | .i32x4 | .i16x8 | .i8x16 | .b2 | .b4 | .b8 | .b16 => binary32

/-- A lane of a Float kind is a NaN: exponent field all ones, fraction not zero, so above the bits of an infinity. -/
def isNaNLane (k : Kind) (l : BitVec k.width) : Bool := decide ((floatFormat k).infBits < lowBits l)

/-- The place of a float lane that is no NaN in the order of the extended real numbers: its bits below the sign bit, with
the sign; both zeros have place 0. -/
def orderKey {w : Nat} (l : BitVec w) : Int := if l.msb then -(lowBits l : Int) else lowBits l

/-- The lane operation of a Float kind for a binary64 operation of two operands: itself on Float64 lanes, through binary64
on Float32 lanes (41_arithmetic.md R137). -/
def floatLane2 (op : BitVec 64 → BitVec 64 → BitVec 64) : (k : Kind) → BitVec k.width → BitVec k.width → BitVec k.width
  | .f64x2, a, b => op a b
  | .f32x4, a, b => roundF32 (op (widenF32 a) (widenF32 b))
  | .i32x4, a, _ | .i16x8, a, _ | .i8x16, a, _ | .b2, a, _ | .b4, a, _ | .b8, a, _ | .b16, a, _ => a

/-- As floatLane2, for one operand. -/
def floatLane1 (op : BitVec 64 → BitVec 64) : (k : Kind) → BitVec k.width → BitVec k.width
  | .f64x2, a => op a
  | .f32x4, a => roundF32 (op (widenF32 a))
  | .i32x4, a | .i16x8, a | .i8x16, a | .b2, a | .b4, a | .b8, a | .b16, a => a

/-! ## The LOAD and STORE commands by their prefix count -/

/-- LOAD, LOAD1, LOAD2, LOAD3. -/
def loadCommand (c : Fin 4) (k : Kind) (vd : VIdx) (b : Buffer) : Instr :=
  match c with
  | 0 => .load k vd b
  | 1 => .load1 k vd b
  | 2 => .load2 k vd b
  | 3 => .load3 k vd b

/-- STORE, STORE1, STORE2, STORE3. -/
def storeCommand (c : Fin 4) (k : Kind) (vs1 : VIdx) (b : Buffer) : Instr :=
  match c with
  | 0 => .store k vs1 b
  | 1 => .store1 k vs1 b
  | 2 => .store2 k vs1 b
  | 3 => .store3 k vs1 b

/-- The bytes that a prefix count moves (46_load_store.md R222). -/
def bytesMoved (c : Fin 4) (k : Kind) : Nat := k.prefixLanes c.val * k.width / 8

/-- A command with this buffer operand and n bytes to move passes the validation of 46_load_store.md R221. -/
def bufferValid (b : Buffer) (n : Nat) : Bool :=
  decide (1 ≤ b.bkind.toNat ∧ b.bkind.toNat ≤ 5) && decide (b.index.toInt < 2 ^ 31) && decide (0 ≤ b.index.toInt) &&
    decide (b.index.toInt * widthOfBufferKind b.bkind.toNat + n ≤ b.byteLength.toNat)

/-- The address of byte n of an access (46_load_store.md R222, 20_memory.md R40). -/
def accessAddress (b : Buffer) (n : Nat) : Nat :=
  (b.base.toNat + b.index.toNat * widthOfBufferKind b.bkind.toNat + n) % 2 ^ 64

/-! ## Chains of commands -/

/-- A chain of bitcasts: from kind k in register r, hop by hop, each hop a target kind and the register it goes to. -/
def bcastChain (k : Kind) (r : VIdx) : List (Kind × VIdx) → State → Result
  | [], s => .next s
  | (k', r') :: hops, s =>
    match exec (.bcast k k' r' r) s with
    | .next t => bcastChain k' r' hops t
    | .fault f => .fault f
    | .refused q => .refused q

/-- The kind and the register in which a chain ends. -/
def chainEnd (k : Kind) (r : VIdx) : List (Kind × VIdx) → Kind × VIdx
  | [] => (k, r)
  | (k', r') :: hops => chainEnd k' r' hops

/-! ## The invariant -/

/-- A register holds what 10_state.md R27 calls legal: under a tag of kind K the bits above its lanes are 0 (which says
something for the Bool kinds only); under the EMPTY tag anything. -/
def VReg.legal (v : VReg) : Bool :=
  match v.tag with
  | none => true
  | some k => decide (v.bits >>> (k.lanes * k.width) = 0)

/-- The invariant: the memory is in its canonical form and every register is legal. -/
def State.Inv (s : State) : Prop := Memory.wf s.mem = true ∧ ∀ r : VIdx, (s.reg r).legal = true

/-! ## What can be observed (10_state.md R29, R30, 70_reset_and_hazards.md R281, R288) -/

/-- Two states that differ at most in SCRATCH and in the payloads of EMPTY registers. -/
def SameObservations (s t : State) : Prop :=
  s.mem = t.mem ∧ s.host = t.host ∧ s.responses = t.responses ∧ s.freeCount = t.freeCount ∧
  ∀ r : VIdx, s.tag r = t.tag r ∧ (s.tag r ≠ none → s.bits r = t.bits r)

end Machine

end Sys2Proof
end

