-- ==== Sys2Proof/Certificates/Slice0/Obligations.lean ====
section
/-! DEFINITION. The statements for the provers, from the numbered rules of spec/: each is a Prop named for what it says.
In every one, s and t are any states, also such as no run reaches. -/

open Sys2Proof Sys2Proof.Machine

/-! ## Encoding -/

/-- 30_encoding.md R61 to R67: decoding the encoding of a well-formed instruction gives the instruction, with every
operand at every value. -/
def Obligations.DecodeInvertsEncode : Prop :=
  ∀ i : Instr, i.wellFormed = true → decode (encode i) = .ok i

/-- 30_encoding.md R70: every word is either one command, well-formed, whose encoding is that word, or illegal. -/
def Obligations.EveryWordIsOneCommandOrIllegal : Prop :=
  ∀ c : Command,
    (∃ i, decode c = .ok i ∧ i.wellFormed = true ∧ (encode i).insn = c.insn) ∨
    ((∃ e, decode c = .error e) ∧ ∀ i : Instr, i.wellFormed = true → (encode i).insn ≠ c.insn)

/-- 30_encoding.md R64, R77: a word that decodes to a command has the `match` of the command's row under the row's `mask`,
and no word has the `match` of two rows under their masks (R77 is the spec's own inference from R61 to R66 and R76). -/
def Obligations.EachWordBelongsToOneRow : Prop :=
  (∀ (c : Command) (i : Instr), decode c = .ok i → c.insn &&& i.row.mask = i.row.matchBits) ∧
  (∀ (w : InsnWord) (i j : Instr), w &&& i.row.mask = i.row.matchBits → w &&& j.row.mask = j.row.matchBits →
    i.row = j.row)

/-- Words written out in the spec (40_lane_access.md R105, 41_arithmetic.md R125, 42_compare_logic_select.md R162,
45_bitcast.md R210, 46_load_store.md R227, R231) decode to the commands they stand for. -/
def Obligations.SampleWordsDecode : Prop :=
  ∀ x : Operands,
    decode ⟨0x00021305#32, x⟩ = .ok (.cons .i32x4 1 2 x) ∧
    decode ⟨0x00210310#32, x⟩ = .ok (.add .i32x4 0 1 2) ∧
    decode ⟨0x0321032C#32, x⟩ = .ok (.sel .i32x4 0 1 2 3) ∧
    decode ⟨0x50010348#32, x⟩ = .ok (.bcast .i32x4 .i8x16 0 1) ∧
    decode ⟨0x20000250#32, x⟩ = .ok (.load2 .f32x4 0 ⟨x[0], x[1], x[2], x[3]⟩) ∧
    decode ⟨0x10010551#32, x⟩ = .ok (.store1 .i8x16 1 ⟨x[0], x[1], x[2], x[3]⟩) ∧
    decode ⟨0x20000150#32, x⟩ = .error .illegalKind

/-! ## Steps and responses -/

/-- 30_encoding.md R72, 10_state.md R20: a step with a command at the head of the host's events that decodes to i is exec
of i; nothing is added around it (exec itself takes the event and gives the response; a command as an event of the host is
the model's choice, log entry 3). -/
def Obligations.StepRunsTheDecodedCommand : Prop :=
  ∀ (s : State) (c : Command) (rest : List HostEvent) (i : Instr),
    s.host = .command c :: rest → decode c = .ok i → step s = exec i s

/-- 30_encoding.md R70: a word that does not decode raises IllegalCommand; nothing is written (a command as an event of the
host is the model's choice, log entry 3). -/
def Obligations.IllegalWordRaisesIllegalCommand : Prop :=
  ∀ (s : State) (c : Command) (rest : List HostEvent) (e : DecodeError),
    s.host = .command c :: rest → decode c = .error e →
    step s = .next { s with host := rest, responses := s.responses ++ [⟨.illegalCommand, 0⟩] }

/-- 60_exceptions.md R257, R266: whatever the state and whatever the host does, the unit goes on. -/
def Obligations.NothingStopsTheUnit : Prop :=
  ∀ s : State, ∃ t, step s = .next t

/-- 30_encoding.md R60: n commands get n responses, in n steps, and then the unit is idle (the lists of events and of
responses are the model's choice, log entries 3 and 5). -/
def Obligations.EveryCommandIsAnsweredOnce : Prop :=
  ∀ (cs : List Command) (s : State), s.host = cs.map .command →
    ∃ (t : State) (rs : List Response), core.run cs.length s = .next t ∧ t.host = [] ∧
      rs.length = cs.length ∧ t.responses = s.responses ++ rs

/-! ## Errors -/

/-- 60_exceptions.md R254: every command answers once, with IllegalCommand where the word does not decode, else with the
first error that it meets in the order TypeKind, Bounds, ConversionRange, and with OK exactly when it meets none. -/
def Obligations.StatusIsTheFirstErrorMet : Prop :=
  ∀ (c : Command) (s : State), ∃ (t : State) (xd : Word), runCommand c s = .next t ∧ t.host = s.host.tail ∧
    t.responses = s.responses ++
      [⟨match decode c with | .ok i => expectedStatus i s | .error _ => .illegalCommand, xd⟩]

/-- 60_exceptions.md R255: a command that ends in an error changes no register, no byte of memory and not SCRATCH, answers
XD = 0, and reads no memory (over any other memory it ends the same). -/
def Obligations.FailedCommandChangesNothing : Prop :=
  ∀ (c : Command) (s t : State) (st : Status) (xd : Word), runCommand c s = .next t →
    t.responses = s.responses ++ [⟨st, xd⟩] → st ≠ .ok →
    ∀ m : Memory, runCommand c { s with mem := m } = .next
      { regs := s.regs, scratch := s.scratch, mem := m, host := s.host.tail,
        responses := s.responses ++ [⟨st, 0⟩], freeCount := s.freeCount }

/-- 10_state.md R29: an EMPTY register named as a source of a legal command raises TypeKind; no command writes the EMPTY
tag, so only a register that was EMPTY is EMPTY after it; after reset every register is EMPTY. -/
def Obligations.EmptyRegisters : Prop :=
  (∀ (i : Instr) (s : State) (r : VIdx) (k : Kind), i.wellFormed = true → (r, k) ∈ i.sources → s.tag r = none →
    exec i s = .next (s.raise .typeKind)) ∧
  (∀ (i : Instr) (s t : State) (r : VIdx), exec i s = .next t → t.tag r = none → s.tag r = none) ∧
  (∀ r : VIdx, State.reset.tag r = none)

/-- 30_encoding.md R71: XD is 0 in every response but those of EXTRACT and SAD with status OK. -/
def Obligations.OnlyExtractAndSadReturnAScalar : Prop :=
  ∀ (i : Instr) (s t : State) (st : Status) (xd : Word), exec i s = .next t →
    t.responses = s.responses ++ [⟨st, xd⟩] → (i.hasScalarResult = false ∨ st ≠ .ok) → xd = 0

/-! ## Frames -/

/-- 10_state.md R28: every register but the destination keeps tag and payload; a command without a destination (CHECK,
EXTRACT, SAD, the STORE commands) changes no register. -/
def Obligations.OnlyTheDestinationRegisterChanges : Prop :=
  ∀ (i : Instr) (s t : State) (r : VIdx), exec i s = .next t → i.dest ≠ some r → t.reg r = s.reg r

/-- 20_memory.md R47: a command that is no STORE leaves every byte of memory. -/
def Obligations.OnlyStoresChangeMemory : Prop :=
  ∀ (i : Instr) (s t : State), i.isStore = false → exec i s = .next t →
    ∀ a : Nat, Memory.read t.mem a = Memory.read s.mem a

/-- 46_load_store.md R229, R235: a STORE command leaves every byte outside the bytes from the address it computes on
(bufferAddress of the descriptor and the buffer kind's element width); with a buffer kind that gives no element width it
leaves every byte. -/
def Obligations.StoreLeavesTheOtherBytes : Prop :=
  ∀ (c : Fin 4) (k : Kind) (vs1 : VIdx) (b : Buffer) (s t : State), exec (storeCommand c k vs1 b) s = .next t →
    (∀ ew, elementWidth b.bkind = some ew → ∀ a : Nat,
      (∀ n < bytesMoved c k, a ≠ byteAddress (bufferAddress b ew) n) → Memory.read t.mem a = Memory.read s.mem a) ∧
    (elementWidth b.bkind = none → ∀ a : Nat, Memory.read t.mem a = Memory.read s.mem a)

/-- 20_memory.md R47: a byte that a command changes lies inside its buffer: at base + d modulo 2^64 with d below
byteLength. -/
def Obligations.WritesStayInsideTheBuffer : Prop :=
  ∀ (i : Instr) (s t : State) (a : Nat), exec i s = .next t → Memory.read t.mem a ≠ Memory.read s.mem a →
    ∃ (b : Buffer) (req d : Nat), i.access = some (b, req) ∧ d < b.byteLength.toNat ∧ a = (b.base.toNat + d) % 2 ^ 64

/-- 20_memory.md R47: what a command does to the unit depends on no byte outside its buffer: with two memories that agree
on the buffer's bytes it gives the same registers, the same SCRATCH and the same response. -/
def Obligations.ReadsStayInsideTheBuffer : Prop :=
  ∀ (i : Instr) (s t : State) (m : Memory),
    (∀ (b : Buffer) (req d : Nat), i.access = some (b, req) → d < b.byteLength.toNat →
      Memory.read m ((b.base.toNat + d) % 2 ^ 64) = Memory.read s.mem ((b.base.toNat + d) % 2 ^ 64)) →
    exec i s = .next t →
    ∃ m' : Memory, exec i { s with mem := m } = .next { t with mem := m' }

/-- 10_state.md R30: SCRATCH is written by BCAST, the LOAD and the STORE commands only. -/
def Obligations.OnlyStagingCommandsWriteScratch : Prop :=
  ∀ (i : Instr) (s t : State), i.usesScratch = false → exec i s = .next t → t.scratch = s.scratch

/-! ## Lane access -/

/-- 40_lane_access.md R101: CHECK of a register of kind k answers OK and changes nothing. -/
def Obligations.CheckAnswersOk : Prop :=
  ∀ (k : Kind) (a : VIdx) (s : State), s.tag a = some k → exec (.check k a) s = .next (s.respond .ok 0)

/-- 40_lane_access.md R102, 30_encoding.md R71: EXTRACT of a register of kind k with an index in range answers the lane:
sign-extended from an Int kind, as it stands from Float64, widened from Float32, 1 or 0 from a Bool kind. -/
def Obligations.ExtractAnswersTheLane : Prop :=
  ∀ (k : Kind) (a : VIdx) (x : Word) (s : State), s.tag a = some k → 0 ≤ x.toInt → x.toInt < k.lanes →
    ∃ xd : Word, exec (.extract k a x) s = .next (s.respond .ok xd) ∧
      (k.isInt = true → xd.toInt = (lane k.width (s.bits a) x.toNat).toInt) ∧
      (k = .f64x2 → xd = lane 64 (s.bits a) x.toNat) ∧
      (k = .f32x4 → xd = widenF32 (lane 32 (s.bits a) x.toNat)) ∧
      (k.isBool = true → xd = if (s.bits a).getLsbD x.toNat then 1 else 0)

/-- 40_lane_access.md R103: REPLACE writes the coerced scalar into lane i and copies every other bit. -/
def Obligations.ReplaceWritesOneLane : Prop :=
  ∀ (k : Kind) (vd a : VIdx) (x y : Word) (s : State), s.tag a = some k → 0 ≤ x.toInt → x.toInt < k.lanes →
    ∃ r : Payload, exec (.replace k vd a x y) s = .next ((s.setReg vd k r).respond .ok 0) ∧
      lane k.width r x.toNat = coerce k y ∧
      ∀ n : Nat, (n < x.toNat * k.width ∨ (x.toNat + 1) * k.width ≤ n) → r.getLsbD n = (s.bits a).getLsbD n

/-- 40_lane_access.md R104: SPLAT writes the coerced scalar into every lane, from any state. -/
def Obligations.SplatFillsEveryLane : Prop :=
  ∀ (k : Kind) (vd : VIdx) (x : Word) (s : State),
    ∃ r : Payload, exec (.splat k vd x) s = .next ((s.setReg vd k r).respond .ok 0) ∧ IsVector k r (fun _ => coerce k x)

/-- 40_lane_access.md R105: CONS with at most N scalars writes the coerced scalars into the first lanes and the missing
lane (the canonical NaN, zero or false) into the others. -/
def Obligations.ConsFillsMissingLanes : Prop :=
  ∀ (k : Kind) (vd : VIdx) (argc : Fin 32) (x : Operands) (s : State), argc.val ≤ k.lanes →
    ∃ r : Payload, exec (.cons k vd argc x) s = .next ((s.setReg vd k r).respond .ok 0) ∧
      IsVector k r (fun j => if j < argc.val then coerce k (word x j) else missing k)

/-- 10_state.md R23: coercion of an operand word: wrapped to the lane's width for the Int kinds, unchanged for Float64,
truth for the Bool kinds, narrowed by round_f32 for Float32. -/
def Obligations.CoercionOfOperandWords : Prop :=
  (∀ (k : Kind) (x : Word), k.isInt = true → (coerce k x).toInt = x.toInt.bmod (2 ^ k.width)) ∧
  (∀ x : Word, coerce .f64x2 x = x) ∧
  (∀ (k : Kind) (x : Word), k.isBool = true → ((coerce k x).toNat = 1 ↔ x ≠ 0)) ∧
  (∀ x : Word, coerce .f32x4 x = roundF32 x)

/-! ## Arithmetic -/

/-- 41_arithmetic.md R123, R125 to R127: ADD, SUB and MUL on Int kinds are addition, subtraction and multiplication modulo
2^W in every lane. -/
def Obligations.IntegerAddSubMul : Prop :=
  ∀ (k : Kind) (vd a b : VIdx) (s : State), k.isInt = true → s.tag a = some k → s.tag b = some k →
    (∃ r, exec (.add k vd a b) s = .next ((s.setReg vd k r).respond .ok 0) ∧
      IsVector k r (fun j => lane k.width (s.bits a) j + lane k.width (s.bits b) j)) ∧
    (∃ r, exec (.sub k vd a b) s = .next ((s.setReg vd k r).respond .ok 0) ∧
      IsVector k r (fun j => lane k.width (s.bits a) j - lane k.width (s.bits b) j)) ∧
    (∃ r, exec (.mul k vd a b) s = .next ((s.setReg vd k r).respond .ok 0) ∧
      IsVector k r (fun j => lane k.width (s.bits a) j * lane k.width (s.bits b) j))

/-- 41_arithmetic.md R129, R130: NEG and ABS on Int kinds, modulo 2^W in every lane. -/
def Obligations.IntegerNegAbs : Prop :=
  ∀ (k : Kind) (vd a : VIdx) (s : State), k.isInt = true → s.tag a = some k →
    (∃ r, exec (.neg k vd a) s = .next ((s.setReg vd k r).respond .ok 0) ∧
      IsVector k r (fun j => -lane k.width (s.bits a) j)) ∧
    (∃ r, exec (.abs k vd a) s = .next ((s.setReg vd k r).respond .ok 0) ∧
      IsVector k r (fun j => if (lane k.width (s.bits a) j).msb then -lane k.width (s.bits a) j
        else lane k.width (s.bits a) j))

/-- 41_arithmetic.md R133, R134: MIN and MAX on Int kinds, by the signed value of the lanes. -/
def Obligations.IntegerMinMax : Prop :=
  ∀ (k : Kind) (vd a b : VIdx) (s : State), k.isInt = true → s.tag a = some k → s.tag b = some k →
    (∃ r, exec (.min k vd a b) s = .next ((s.setReg vd k r).respond .ok 0) ∧ ∀ j < k.lanes,
      (lane k.width r j).toInt = min (lane k.width (s.bits a) j).toInt (lane k.width (s.bits b) j).toInt) ∧
    (∃ r, exec (.max k vd a b) s = .next ((s.setReg vd k r).respond .ok 0) ∧ ∀ j < k.lanes,
      (lane k.width r j).toInt = max (lane k.width (s.bits a) j).toInt (lane k.width (s.bits b) j).toInt)

/-- 41_arithmetic.md R125 to R128, R137: ADD, SUB, MUL and DIV on Float kinds are the binary64 operation in every lane,
narrowed once on Float32 lanes. -/
def Obligations.FloatAddSubMulDiv : Prop :=
  ∀ (k : Kind) (vd a b : VIdx) (s : State), k.isFloat = true → s.tag a = some k → s.tag b = some k →
    (∃ r, exec (.add k vd a b) s = .next ((s.setReg vd k r).respond .ok 0) ∧
      IsVector k r (fun j => floatLane2 f64Add k (lane k.width (s.bits a) j) (lane k.width (s.bits b) j))) ∧
    (∃ r, exec (.sub k vd a b) s = .next ((s.setReg vd k r).respond .ok 0) ∧
      IsVector k r (fun j => floatLane2 f64Sub k (lane k.width (s.bits a) j) (lane k.width (s.bits b) j))) ∧
    (∃ r, exec (.mul k vd a b) s = .next ((s.setReg vd k r).respond .ok 0) ∧
      IsVector k r (fun j => floatLane2 f64Mul k (lane k.width (s.bits a) j) (lane k.width (s.bits b) j))) ∧
    (∃ r, exec (.div k vd a b) s = .next ((s.setReg vd k r).respond .ok 0) ∧
      IsVector k r (fun j => floatLane2 f64Div k (lane k.width (s.bits a) j) (lane k.width (s.bits b) j)))

/-- 41_arithmetic.md R131, R132: SQRT and RCPA on Float kinds; RCPA is the quotient of 1.0 and the lane. -/
def Obligations.FloatSqrtRcpa : Prop :=
  ∀ (k : Kind) (vd a : VIdx) (s : State), k.isFloat = true → s.tag a = some k →
    (∃ r, exec (.sqrt k vd a) s = .next ((s.setReg vd k r).respond .ok 0) ∧
      IsVector k r (fun j => floatLane1 f64Sqrt k (lane k.width (s.bits a) j))) ∧
    (∃ r, exec (.rcpa k vd a) s = .next ((s.setReg vd k r).respond .ok 0) ∧
      IsVector k r (fun j => floatLane1 (f64Div 0x3FF0000000000000#64) k (lane k.width (s.bits a) j)))

/-- 41_arithmetic.md R129, R130: NEG and ABS on Float kinds: a NaN gives the canonical NaN; of any other lane the sign bit
is inverted or cleared and the other bits kept. -/
def Obligations.FloatNegAbs : Prop :=
  ∀ (k : Kind) (vd a : VIdx) (s : State), k.isFloat = true → s.tag a = some k →
    (∃ r, exec (.neg k vd a) s = .next ((s.setReg vd k r).respond .ok 0) ∧ ∀ j < k.lanes,
      (isNaNLane k (lane k.width (s.bits a) j) = true → lane k.width r j = missing k) ∧
      (isNaNLane k (lane k.width (s.bits a) j) = false →
        (lane k.width r j).msb = !(lane k.width (s.bits a) j).msb ∧
        lowBits (lane k.width r j) = lowBits (lane k.width (s.bits a) j))) ∧
    (∃ r, exec (.abs k vd a) s = .next ((s.setReg vd k r).respond .ok 0) ∧ ∀ j < k.lanes,
      (isNaNLane k (lane k.width (s.bits a) j) = true → lane k.width r j = missing k) ∧
      (isNaNLane k (lane k.width (s.bits a) j) = false → (lane k.width r j).msb = false ∧
        lowBits (lane k.width r j) = lowBits (lane k.width (s.bits a) j)))

/-- 41_arithmetic.md R133, R134: MIN and MAX on Float kinds: a NaN operand gives the canonical NaN; of two zeros the lower
or the higher, -0 below +0; else the lane lower or higher in the order of the real numbers (R133 marks the NaN and zero
clauses as from general knowledge). -/
def Obligations.FloatMinMax : Prop :=
  ∀ (k : Kind) (vd a b : VIdx) (s : State), k.isFloat = true → s.tag a = some k → s.tag b = some k →
    (∃ r, exec (.min k vd a b) s = .next ((s.setReg vd k r).respond .ok 0) ∧ IsVector k r (fun j =>
      let x := lane k.width (s.bits a) j
      let y := lane k.width (s.bits b) j
      if isNaNLane k x || isNaNLane k y then missing k
      else if orderKey x = 0 ∧ orderKey y = 0 then (if x.msb then x else y)
      else if orderKey x < orderKey y then x else y)) ∧
    (∃ r, exec (.max k vd a b) s = .next ((s.setReg vd k r).respond .ok 0) ∧ IsVector k r (fun j =>
      let x := lane k.width (s.bits a) j
      let y := lane k.width (s.bits b) j
      if isNaNLane k x || isNaNLane k y then missing k
      else if orderKey x = 0 ∧ orderKey y = 0 then (if x.msb then y else x)
      else if orderKey x > orderKey y then x else y))

/-- 41_arithmetic.md R135, R136: MINNUM and MAXNUM: of two NaNs the canonical NaN, of one NaN the other operand bit for
bit, of none the lane that MIN or MAX gives. -/
def Obligations.FloatMinnumMaxnum : Prop :=
  ∀ (k : Kind) (vd a b : VIdx) (s : State), k.isFloat = true → s.tag a = some k → s.tag b = some k →
    (∃ r q, exec (.minnum k vd a b) s = .next ((s.setReg vd k r).respond .ok 0) ∧
      exec (.min k vd a b) s = .next ((s.setReg vd k q).respond .ok 0) ∧ IsVector k r (fun j =>
      let x := lane k.width (s.bits a) j
      let y := lane k.width (s.bits b) j
      if isNaNLane k x && isNaNLane k y then missing k
      else if isNaNLane k x then y else if isNaNLane k y then x else lane k.width q j)) ∧
    (∃ r q, exec (.maxnum k vd a b) s = .next ((s.setReg vd k r).respond .ok 0) ∧
      exec (.max k vd a b) s = .next ((s.setReg vd k q).respond .ok 0) ∧ IsVector k r (fun j =>
      let x := lane k.width (s.bits a) j
      let y := lane k.width (s.bits b) j
      if isNaNLane k x && isNaNLane k y then missing k
      else if isNaNLane k x then y else if isNaNLane k y then x else lane k.width q j))

/-! ## Binary64 arithmetic -/

/-- 41_arithmetic.md R120: the sum, the difference, the product and the quotient of finite operands is the exact result
rounded once to the nearest value, ties to even; its sign is that of the exact result (for a product or quotient the
exclusive-or of the signs). -/
def Obligations.Float64RoundsTheExactResultOnce : Prop :=
  ∀ (a b : BitVec 64) (n m : Bool) (x y : Nat), binary64.unpack a = .fin n x → binary64.unpack b = .fin m y →
    (signedUnits n x + signedUnits m y ≠ 0 →
      (f64Add a b).msb = decide (signedUnits n x + signedUnits m y < 0) ∧
      binary64.NearestEven (lowBits (f64Add a b)) (signedUnits n x + signedUnits m y).natAbs 1) ∧
    (signedUnits n x - signedUnits m y ≠ 0 →
      (f64Sub a b).msb = decide (signedUnits n x - signedUnits m y < 0) ∧
      binary64.NearestEven (lowBits (f64Sub a b)) (signedUnits n x - signedUnits m y).natAbs 1) ∧
    ((f64Mul a b).msb = (n != m) ∧ binary64.NearestEven (lowBits (f64Mul a b)) (x * y) (2 ^ 1074)) ∧
    (y ≠ 0 → (f64Div a b).msb = (n != m) ∧ binary64.NearestEven (lowBits (f64Div a b)) (x * 2 ^ 1074) y)

/-- 41_arithmetic.md R120: the square root of a positive value is the exact root rounded once, ties to even. -/
def Obligations.Float64RoundsTheExactRootOnce : Prop :=
  ∀ (a : BitVec 64) (x : Nat), binary64.unpack a = .fin false x → x ≠ 0 →
    (f64Sqrt a).msb = false ∧ binary64.NearestEvenRoot (lowBits (f64Sqrt a)) (x * 2 ^ 1074)

/-- 41_arithmetic.md R120, R122: the special cases: an invalid operation and every operation on a NaN gives the canonical
NaN; exact zeros, infinities and their signs (R120 marks the list as from general knowledge). -/
def Obligations.Float64SpecialCases : Prop :=
  ∀ (a b : BitVec 64),
    (isNaNLane .f64x2 a = true ∨ isNaNLane .f64x2 b = true →
      f64Add a b = Config.nanF64 ∧ f64Sub a b = Config.nanF64 ∧ f64Mul a b = Config.nanF64 ∧ f64Div a b = Config.nanF64) ∧
    (isNaNLane .f64x2 a = true → f64Sqrt a = Config.nanF64) ∧
    (∀ (n m : Bool), binary64.unpack a = .inf n → binary64.unpack b = .inf m →
      f64Add a b = (if n = m then a else Config.nanF64) ∧ f64Sub a b = (if n = m then Config.nanF64 else a) ∧
      f64Mul a b = inf64 (n != m) ∧ f64Div a b = Config.nanF64) ∧
    (∀ (n m : Bool) (y : Nat), binary64.unpack a = .inf n → binary64.unpack b = .fin m y →
      f64Add a b = a ∧ f64Sub a b = a ∧ f64Div a b = inf64 (n != m) ∧
      f64Mul a b = (if y = 0 then Config.nanF64 else inf64 (n != m))) ∧
    (∀ (n m : Bool) (x : Nat), binary64.unpack a = .fin n x → binary64.unpack b = .inf m →
      f64Add a b = b ∧ f64Sub a b = inf64 (!m) ∧ f64Div a b = zero64 (n != m) ∧
      f64Mul a b = (if x = 0 then Config.nanF64 else inf64 (n != m))) ∧
    (∀ (n m : Bool) (x : Nat), binary64.unpack a = .fin n x → binary64.unpack b = .fin m 0 →
      f64Div a b = (if x = 0 then Config.nanF64 else inf64 (n != m))) ∧
    (∀ (n m : Bool) (x : Nat), binary64.unpack a = .fin n x → binary64.unpack b = .fin m x →
      (n ≠ m → f64Add a b = zero64 false) ∧ (n = m → f64Sub a b = zero64 false)) ∧
    (∀ (n m : Bool), binary64.unpack a = .fin n 0 → binary64.unpack b = .fin m 0 →
      f64Add a b = zero64 (n && m) ∧ f64Sub a b = zero64 (n && !m)) ∧
    (∀ (x : Nat), binary64.unpack a = .fin true x → f64Sqrt a = if x = 0 then a else Config.nanF64) ∧
    (binary64.unpack a = .fin false 0 → f64Sqrt a = a) ∧
    (∀ n, binary64.unpack a = .inf n → f64Sqrt a = if n then Config.nanF64 else a)

/-- 10_state.md R25, 41_arithmetic.md R120: the reading of an encoding: sign on top, the value of the bits below it, an
infinity at the largest exponent and a zero fraction, a NaN above. -/
def Obligations.EncodingOfFloatValues : Prop :=
  (∀ a : BitVec 64, binary64.unpack a =
    if lowBits a < binary64.infBits then .fin a.msb (binary64.unitsAt (lowBits a))
    else if lowBits a = binary64.infBits then .inf a.msb else .nan) ∧
  (∀ a : BitVec 32, binary32.unpack a =
    if lowBits a < binary32.infBits then .fin a.msb (binary32.unitsAt (lowBits a))
    else if lowBits a = binary32.infBits then .inf a.msb else .nan)

/-- 41_arithmetic.md R121: round_f32 of a finite value is the nearest binary32 value, ties to even, with its sign;
infinities keep their sign; a NaN of any payload becomes NAN_F32. -/
def Obligations.NarrowingRoundsToNearest : Prop :=
  ∀ x : BitVec 64,
    (∀ (n : Bool) (u : Nat), binary64.unpack x = .fin n u →
      (roundF32 x).msb = n ∧ binary32.NearestEven (lowBits (roundF32 x)) u (2 ^ 925)) ∧
    (∀ n : Bool, binary64.unpack x = .inf n → binary32.unpack (roundF32 x) = .inf n) ∧
    (binary64.unpack x = .nan → roundF32 x = 0x7FC00000#32)

/-- 41_arithmetic.md R121: widen_f32 is exact, and narrowing undoes it, but for the payload of a NaN. -/
def Obligations.WideningIsExact : Prop :=
  ∀ l : BitVec 32,
    (∀ (n : Bool) (u : Nat), binary32.unpack l = .fin n u → binary64.unpack (widenF32 l) = .fin n (u * 2 ^ 925)) ∧
    (∀ n : Bool, binary32.unpack l = .inf n → binary64.unpack (widenF32 l) = .inf n) ∧
    (binary32.unpack l = .nan → widenF32 l = 0x7FF8000000000000#64) ∧
    (binary32.unpack l ≠ .nan → roundF32 (widenF32 l) = l)

/-! ## Comparison, logic, select -/

/-- 42_compare_logic_select.md R150 to R156: the comparisons on Int kinds are signed, and give the Bool kind with the same
lane count. -/
def Obligations.IntegerComparisons : Prop :=
  ∀ (k : Kind) (vd a b : VIdx) (s : State), k.isInt = true → s.tag a = some k → s.tag b = some k →
    ∀ (i : Instr) (rel : Int → Int → Bool),
      (i, rel) ∈ [(.eq k vd a b, fun x y => decide (x = y)), (.ne k vd a b, fun x y => decide (x ≠ y)),
        (.lt k vd a b, fun x y => decide (x < y)), (.le k vd a b, fun x y => decide (x ≤ y)),
        (.gt k vd a b, fun x y => decide (x > y)), (.ge k vd a b, fun x y => decide (x ≥ y))] →
      ∃ r, exec i s = .next ((s.setReg vd k.boolOf r).respond .ok 0) ∧ ∀ j : Nat, r.getLsbD j =
        (decide (j < k.lanes) && rel (lane k.width (s.bits a) j).toInt (lane k.width (s.bits b) j).toInt)

/-- 42_compare_logic_select.md R150 to R157: the comparisons on Float kinds: with a NaN all false but NE; else by the
order of the extended real numbers, +0 and -0 equal (R157, which the spec marks as from general knowledge). -/
def Obligations.FloatComparisons : Prop :=
  ∀ (k : Kind) (vd a b : VIdx) (s : State), k.isFloat = true → s.tag a = some k → s.tag b = some k →
    ∀ (i : Instr) (unordered : Bool) (rel : Int → Int → Bool),
      (i, unordered, rel) ∈ [(.eq k vd a b, false, fun x y => decide (x = y)),
        (.ne k vd a b, true, fun x y => decide (x ≠ y)), (.lt k vd a b, false, fun x y => decide (x < y)),
        (.le k vd a b, false, fun x y => decide (x ≤ y)), (.gt k vd a b, false, fun x y => decide (x > y)),
        (.ge k vd a b, false, fun x y => decide (x ≥ y))] →
      ∃ r, exec i s = .next ((s.setReg vd k.boolOf r).respond .ok 0) ∧ ∀ j : Nat, r.getLsbD j = (decide (j < k.lanes) &&
        if isNaNLane k (lane k.width (s.bits a) j) || isNaNLane k (lane k.width (s.bits b) j) then unordered
        else rel (orderKey (lane k.width (s.bits a) j)) (orderKey (lane k.width (s.bits b) j)))

/-- 42_compare_logic_select.md R158 to R161: AND, OR and XOR are those of the payloads and NOT is the complement, on the
bits of the lanes; the bits above a Bool kind's lanes are 0. -/
def Obligations.LogicIsBitwise : Prop :=
  ∀ (k : Kind) (vd a b : VIdx) (s : State), k.isInt = true ∨ k.isBool = true → s.tag a = some k → s.tag b = some k →
    ∀ (i : Instr) (op : Bool → Bool → Bool),
      (i, op) ∈ [(.and k vd a b, fun x y => x && y), (.or k vd a b, fun x y => x || y),
        (.xor k vd a b, fun x y => x != y), (.not k vd a, fun x _ => !x)] →
      ∃ r, exec i s = .next ((s.setReg vd k r).respond .ok 0) ∧
        ∀ n : Nat, r.getLsbD n = (decide (n < k.lanes * k.width) && op ((s.bits a).getLsbD n) ((s.bits b).getLsbD n))

/-- 42_compare_logic_select.md R162: SEL takes each lane whole, by the mask's lane. -/
def Obligations.SelTakesWholeLanes : Prop :=
  ∀ (k : Kind) (vd m t f : VIdx) (s : State), k.isNumeric = true → s.tag m = some k.boolOf → s.tag t = some k →
    s.tag f = some k → ∃ r, exec (.sel k vd m t f) s = .next ((s.setReg vd k r).respond .ok 0) ∧
      IsVector k r (fun j => if (s.bits m).getLsbD j then lane k.width (s.bits t) j else lane k.width (s.bits f) j)

/-- 42_compare_logic_select.md R163: SELB takes each bit by the mask's bit. -/
def Obligations.SelbTakesBits : Prop :=
  ∀ (k : Kind) (vd m t f : VIdx) (s : State), k.isInt = true → s.tag m = some k → s.tag t = some k →
    s.tag f = some k → ∃ r, exec (.selb k vd m t f) s = .next ((s.setReg vd k r).respond .ok 0) ∧
      ∀ n : Nat, r.getLsbD n = if (s.bits m).getLsbD n then (s.bits t).getLsbD n else (s.bits f).getLsbD n

/-- 42_compare_logic_select.md R164: SEL with a Bool mask and SELB with the canonical mask of it (all ones or all zeros a
lane) write the same; for a bit mask with a lane that is neither there is no Bool mask with which they agree for all
operands (R164 is the spec's own inference from R162 and R163). -/
def Obligations.SelAndSelbCoincideOnCanonicalMasks : Prop :=
  (∀ (k : Kind) (vd m c t f : VIdx) (s : State), k.isInt = true → s.tag m = some k.boolOf → s.tag c = some k →
    s.tag t = some k → s.tag f = some k →
    (∀ j < k.lanes, lane k.width (s.bits c) j = if (s.bits m).getLsbD j then BitVec.allOnes k.width else 0) →
    exec (.sel k vd m t f) s = exec (.selb k vd c t f) s) ∧
  (∀ (k : Kind) (c : Payload), k.isInt = true →
    (∃ j < k.lanes, lane k.width c j ≠ 0 ∧ lane k.width c j ≠ BitVec.allOnes k.width) →
    ¬∃ m : Payload, ∀ t f : Payload, selectLanes k.width k.lanes m t f = selectBits c t f)

/-! ## Shifts, saturation, sum of differences, conversion -/

/-- 43_shift_saturate_convert.md R180 to R184: with c the low 32 bits of the count, SHL and SHRL shift every lane by c
(nothing is left from W on) and SHRA shifts in copies of the sign, for every count. -/
def Obligations.ShiftsByAnyCount : Prop :=
  ∀ (k : Kind) (vd a : VIdx) (x : Word) (s : State), k.isInt = true → s.tag a = some k →
    (∃ r, exec (.shl k vd a x) s = .next ((s.setReg vd k r).respond .ok 0) ∧
      IsVector k r (fun j => lane k.width (s.bits a) j <<< (x.toNat % 2 ^ 32))) ∧
    (∃ r, exec (.shrl k vd a x) s = .next ((s.setReg vd k r).respond .ok 0) ∧
      IsVector k r (fun j => lane k.width (s.bits a) j >>> (x.toNat % 2 ^ 32))) ∧
    (∃ r, exec (.shra k vd a x) s = .next ((s.setReg vd k r).respond .ok 0) ∧
      IsVector k r (fun j => (lane k.width (s.bits a) j).sshiftRight (x.toNat % 2 ^ 32)))

/-- 43_shift_saturate_convert.md R185, R186: ADDS and SUBS clamp the exact sum and the exact difference to the signed
range of the lane. -/
def Obligations.SaturationClampsTheExactResult : Prop :=
  ∀ (k : Kind) (vd a b : VIdx) (s : State), k = .i16x8 ∨ k = .i8x16 → s.tag a = some k → s.tag b = some k →
    (∃ r, exec (.adds k vd a b) s = .next ((s.setReg vd k r).respond .ok 0) ∧ ∀ j < k.lanes,
      (lane k.width r j).toInt = max (-2 ^ (k.width - 1)) (min (2 ^ (k.width - 1) - 1)
        ((lane k.width (s.bits a) j).toInt + (lane k.width (s.bits b) j).toInt))) ∧
    (∃ r, exec (.subs k vd a b) s = .next ((s.setReg vd k r).respond .ok 0) ∧ ∀ j < k.lanes,
      (lane k.width r j).toInt = max (-2 ^ (k.width - 1)) (min (2 ^ (k.width - 1) - 1)
        ((lane k.width (s.bits a) j).toInt - (lane k.width (s.bits b) j).toInt)))

/-- 43_shift_saturate_convert.md R187: SAD answers the exact sum of the absolute differences of the sixteen signed lanes,
at most 4080, and changes no register. -/
def Obligations.SadIsTheExactSum : Prop :=
  ∀ (a b : VIdx) (s : State), s.tag a = some .i8x16 → s.tag b = some .i8x16 →
    ∃ xd : Word, exec (.sad .i8x16 a b) s = .next (s.respond .ok xd) ∧ xd.toNat ≤ 4080 ∧
      xd.toNat = ((List.range 16).map fun j => ((lane 8 (s.bits a) j).toInt - (lane 8 (s.bits b) j).toInt).natAbs).sum

/-- 43_shift_saturate_convert.md R188: FROMF of four lanes in range truncates each toward zero. -/
def Obligations.FromfTruncatesTowardZero : Prop :=
  ∀ (vd a : VIdx) (s : State), s.tag a = some .f32x4 → (∀ j < 4, convertible (lane 32 (s.bits a) j) = true) →
    ∃ r, exec (.fromf .i32x4 vd a) s = .next ((s.setReg vd .i32x4 r).respond .ok 0) ∧
      ∀ j < 4, ∀ (n : Bool) (u : Nat), binary32.unpack (lane 32 (s.bits a) j) = .fin n u →
        (lane 32 r j).toInt = (signedUnits n u).tdiv (2 ^ 149)

/-! ## Permutation and bitcast -/

/-- 44_swizzle_shuffle.md R201: SWZ with every index in [0, N) copies lane X[j] to lane j. -/
def Obligations.SwizzleCopiesTheIndexedLanes : Prop :=
  ∀ (k : Kind) (vd a : VIdx) (x : Operands) (s : State), k.isNumeric = true → s.tag a = some k →
    (∀ j < k.lanes, inRange (word x j) k.lanes = true) →
    ∃ r, exec (.swz k vd a x) s = .next ((s.setReg vd k r).respond .ok 0) ∧
      IsVector k r (fun j => lane k.width (s.bits a) (word x j).toNat)

/-- 44_swizzle_shuffle.md R202: SHUF with every index in [0, 2N) copies lane X[j] of the first source, then of the second,
to lane j. -/
def Obligations.ShuffleCopiesFromBothSources : Prop :=
  ∀ (k : Kind) (vd a b : VIdx) (x : Operands) (s : State), k.isNumeric = true → s.tag a = some k → s.tag b = some k →
    (∀ j < k.lanes, inRange (word x j) (2 * k.lanes) = true) →
    ∃ r, exec (.shuf k vd a b x) s = .next ((s.setReg vd k r).respond .ok 0) ∧
      IsVector k r (fun j => if (word x j).toNat < k.lanes then lane k.width (s.bits a) (word x j).toNat
        else lane k.width (s.bits b) ((word x j).toNat - k.lanes))

/-- 45_bitcast.md R210, R211, R214: BCAST between numeric kinds writes the same 128 bits under the target kind, through
SCRATCH, also where the two kinds are one. -/
def Obligations.BitcastKeepsTheBits : Prop :=
  ∀ (k t : Kind) (vd a : VIdx) (s : State), k.isNumeric = true → t.isNumeric = true → s.tag a = some k →
    exec (.bcast k t vd a) s = .next (((s.setScratch (s.bits a)).setReg vd t (s.bits a)).respond .ok 0)

/-- 45_bitcast.md R212: a bitcast from A to B and back to A gives the tag and the payload there was; more generally a chain
of bitcasts that ends in A does (R212 is the spec's own inference from R210). -/
def Obligations.BitcastRoundTrip : Prop :=
  (∀ (A B : Kind) (vs vt vu : VIdx) (s : State), A.isNumeric = true → B.isNumeric = true → s.tag vs = some A →
    ∃ s1 s2, exec (.bcast A B vt vs) s = .next s1 ∧ exec (.bcast B A vu vt) s1 = .next s2 ∧ s2.reg vu = s.reg vs) ∧
  (∀ (A : Kind) (vs : VIdx) (hops : List (Kind × VIdx)) (s : State), A.isNumeric = true →
    (∀ p ∈ hops, p.1.isNumeric = true) → s.tag vs = some A → (chainEnd A vs hops).1 = A →
    ∃ t, bcastChain A vs hops s = .next t ∧ t.reg (chainEnd A vs hops).2 = s.reg vs)

/-! ## Load and store -/

/-- 46_load_store.md R222 to R228: LOAD, LOAD1, LOAD2 and LOAD3 from a buffer that passes the validation fill the register
with the bytes from base + index * element width on, zeros beyond them, through SCRATCH (the address is R222, the spec's own
inference from 20_memory.md R46). -/
def Obligations.LoadsReadTheBytes : Prop :=
  ∀ (c : Fin 4) (k : Kind) (vd : VIdx) (b : Buffer) (s : State), k.isNumeric = true → c.val < k.lanes →
    bufferValid b (bytesMoved c k) = true →
    ∃ r, exec (loadCommand c k vd b) s = .next (((s.setScratch r).setReg vd k r).respond .ok 0) ∧
      ∀ n < 16, lane 8 r n = if n < bytesMoved c k then Memory.read s.mem (accessAddress b n) else 0

/-- 46_load_store.md R222, R223, R229 to R233: STORE, STORE1, STORE2 and STORE3 of a register of kind k to a buffer that
passes the validation store the first bytes of its payload from base + index * element width on and leave every other
byte; no register changes. -/
def Obligations.StoresWriteTheBytes : Prop :=
  ∀ (c : Fin 4) (k : Kind) (vs1 : VIdx) (b : Buffer) (s : State), k.isNumeric = true → c.val < k.lanes →
    s.tag vs1 = some k → bufferValid b (bytesMoved c k) = true →
    ∃ t, exec (storeCommand c k vs1 b) s = .next t ∧
      (∀ n < bytesMoved c k, Memory.read t.mem (accessAddress b n) = lane 8 (s.bits vs1) n) ∧
      (∀ a : Nat, (∀ n < bytesMoved c k, a ≠ accessAddress b n) → Memory.read t.mem a = Memory.read s.mem a) ∧
      t.regs = s.regs ∧ t.scratch = s.bits vs1 ∧ t.host = s.host.tail ∧
      t.responses = s.responses ++ [⟨.ok, 0⟩] ∧ t.freeCount = s.freeCount

/-- 46_load_store.md R236: a store and a load with the same descriptor and index give back the register, whole for LOAD and
STORE, the first C lanes and zeros for the partial forms; storing with kind A and loading with kind B gives the register
that a bitcast from A to B gives (R236 is the spec's own inference from R224 and R229). -/
def Obligations.StoreThenLoadRoundTrip : Prop :=
  (∀ (c : Fin 4) (k : Kind) (vs vd : VIdx) (b : Buffer) (s : State), k.isNumeric = true → c.val < k.lanes →
    s.tag vs = some k → bufferValid b (bytesMoved c k) = true →
    ∃ s1 s2, exec (storeCommand c k vs b) s = .next s1 ∧ exec (loadCommand c k vd b) s1 = .next s2 ∧
      (c = 0 → s2.reg vd = s.reg vs) ∧ s2.tag vd = some k ∧
      ∀ j < k.lanes, lane k.width (s2.bits vd) j =
        if c = 0 ∨ j < c.val then lane k.width (s.bits vs) j else 0) ∧
  (∀ (A B : Kind) (vs vd : VIdx) (b : Buffer) (s : State), A.isNumeric = true → B.isNumeric = true →
    s.tag vs = some A → bufferValid b 16 = true →
    ∃ s1 s2 s3, exec (.store A vs b) s = .next s1 ∧ exec (.load B vd b) s1 = .next s2 ∧
      exec (.bcast A B vd vs) s = .next s3 ∧ s2.reg vd = s3.reg vd)

/-! ## Invariant, reset, what cannot be observed -/

/-- 10_state.md R27: every step keeps the memory in its canonical form and every register legal: no command writes a Bool
register with a bit above its lanes (R27 is the spec's own inference; the canonical form of the memory is the model's, log
entry 6). -/
def Obligations.StepKeepsInvariant : Prop :=
  ∀ s t : State, s.Inv → step s = .next t → t.Inv

/-- 10_state.md R36: the invariant holds at reset (that no memory byte is listed then is the model's choice, log entry 6). -/
def Obligations.ResetMeetsTheInvariant : Prop := State.reset.Inv

/-- 10_state.md R29, R30, 70_reset_and_hazards.md R281: no run can tell two states apart that differ in SCRATCH and in the
payloads of EMPTY registers only, whatever the host does. -/
def Obligations.ScratchAndEmptyPayloadsAreInvisible : Prop :=
  ∀ (n : Nat) (s t s' : State), SameObservations s t → core.run n s = .next s' →
    ∃ t', core.run n t = .next t' ∧ SameObservations s' t'

/-- 70_reset_and_hazards.md R280, 10_state.md R36: RESET makes every tag EMPTY, leaves the memory and gets no response; a
command in flight when RESET is asserted is abandoned and gets no response, and the memory is as if the command had not
run, or as if it had run whole (RESET as an event of the host and the free value: the model's choice, log entries 7 and
8). -/
def Obligations.ResetAtAnyTime : Prop :=
  (∀ (s : State) (rest : List HostEvent), s.host = .reset :: rest →
    ∃ t, step s = .next t ∧ (∀ r : VIdx, t.tag r = none) ∧ t.mem = s.mem ∧ t.host = rest ∧ t.responses = s.responses) ∧
  (∀ (s : State) (c : Command) (rest : List HostEvent), s.host = .resetDuring c :: rest →
    ∃ t, step s = .next t ∧ (∀ r : VIdx, t.tag r = none) ∧ t.host = rest ∧ t.responses = s.responses ∧
      (t.mem = s.mem ∨ ∃ u, runCommand c s = .next u ∧ t.mem = u.mem))

/-- 20_memory.md R49: a byte that the host writes between commands is in memory, every other byte, every register and
SCRATCH unchanged (the write as an event: the model's choice, log entry 9). -/
def Obligations.HostWritesOneByte : Prop :=
  ∀ (s : State) (addr : Word) (v : Byte) (rest : List HostEvent), s.host = .hostWrite addr v :: rest →
    ∃ t, step s = .next t ∧ (∀ a : Nat, Memory.read t.mem a = if a = addr.toNat then v else Memory.read s.mem a) ∧
      t.regs = s.regs ∧ t.scratch = s.scratch ∧ t.host = rest ∧ t.responses = s.responses
end

