-- ==== Sys2Proof/Laws/Decode.lean ====
section
/-! SUPPORT. What the fields of an encoded word are, and when the kind check of the decoder passes. -/

namespace Sys2Proof

/-! ## Kind codes -/

@[simp] theorem Kind.ofCode_code (k : Kind) : Kind.ofCode k.code = some k := by cases k <;> rfl

theorem Kind.code_of_ofCode {c : BitVec 4} {k : Kind} (h : Kind.ofCode c = some k) : k.code = c := by
  revert c; cases k <;> decide

/-! ## Fields of format R -/

section
variable (aux vs3 vs2 vs1 vd k : BitVec 4) (op : BitVec 8)

/-- Bit i of a word of format R. -/
theorem getLsbD_wordR (i : Nat) : (wordR aux vs3 vs2 vs1 vd k op).getLsbD i =
    if i < 8 then op.getLsbD i else if i < 12 then k.getLsbD (i - 8) else if i < 16 then vd.getLsbD (i - 12)
    else if i < 20 then vs1.getLsbD (i - 16) else if i < 24 then vs2.getLsbD (i - 20)
    else if i < 28 then vs3.getLsbD (i - 24) else aux.getLsbD (i - 28) := by
  show BitVec.getLsbD (w := 4 + 4 + 4 + 4 + 4 + 4 + 8) (aux ++ vs3 ++ vs2 ++ vs1 ++ vd ++ k ++ op) i = _
  simp only [BitVec.getLsbD_append]
  repeat' split
  all_goals first
    | omega
    | (congr 1; try omega)

@[simp] theorem opField_wordR : opField (wordR aux vs3 vs2 vs1 vd k op) = op := by
  apply BitVec.eq_of_getLsbD_eq; intro i hi
  simp only [opField, BitVec.getLsbD_extractLsb', hi, getLsbD_wordR, decide_true, Bool.true_and]
  simp only [Nat.zero_add, if_pos hi]
@[simp] theorem kField_wordR : kField (wordR aux vs3 vs2 vs1 vd k op) = k := by
  apply BitVec.eq_of_getLsbD_eq; intro i hi
  simp only [kField, BitVec.getLsbD_extractLsb', hi, getLsbD_wordR, decide_true, Bool.true_and]
  simp only [if_neg (by omega : ¬ 8 + i < 8), if_pos (by omega : 8 + i < 12), Nat.add_sub_cancel_left]
@[simp] theorem vdField_wordR : vdField (wordR aux vs3 vs2 vs1 vd k op) = vd := by
  apply BitVec.eq_of_getLsbD_eq; intro i hi
  simp only [vdField, BitVec.getLsbD_extractLsb', hi, getLsbD_wordR, decide_true, Bool.true_and]
  simp only [if_neg (by omega : ¬ 12 + i < 8), if_neg (by omega : ¬ 12 + i < 12), if_pos (by omega : 12 + i < 16),
    Nat.add_sub_cancel_left]
@[simp] theorem vs1Field_wordR : vs1Field (wordR aux vs3 vs2 vs1 vd k op) = vs1 := by
  apply BitVec.eq_of_getLsbD_eq; intro i hi
  simp only [vs1Field, BitVec.getLsbD_extractLsb', hi, getLsbD_wordR, decide_true, Bool.true_and]
  simp only [if_neg (by omega : ¬ 16 + i < 8), if_neg (by omega : ¬ 16 + i < 12), if_neg (by omega : ¬ 16 + i < 16),
    if_pos (by omega : 16 + i < 20), Nat.add_sub_cancel_left]
@[simp] theorem vs2Field_wordR : vs2Field (wordR aux vs3 vs2 vs1 vd k op) = vs2 := by
  apply BitVec.eq_of_getLsbD_eq; intro i hi
  simp only [vs2Field, BitVec.getLsbD_extractLsb', hi, getLsbD_wordR, decide_true, Bool.true_and]
  simp only [if_neg (by omega : ¬ 20 + i < 8), if_neg (by omega : ¬ 20 + i < 12), if_neg (by omega : ¬ 20 + i < 16),
    if_neg (by omega : ¬ 20 + i < 20), if_pos (by omega : 20 + i < 24), Nat.add_sub_cancel_left]
@[simp] theorem vs3Field_wordR : vs3Field (wordR aux vs3 vs2 vs1 vd k op) = vs3 := by
  apply BitVec.eq_of_getLsbD_eq; intro i hi
  simp only [vs3Field, BitVec.getLsbD_extractLsb', hi, getLsbD_wordR, decide_true, Bool.true_and]
  simp only [if_neg (by omega : ¬ 24 + i < 8), if_neg (by omega : ¬ 24 + i < 12), if_neg (by omega : ¬ 24 + i < 16),
    if_neg (by omega : ¬ 24 + i < 20), if_neg (by omega : ¬ 24 + i < 24), if_pos (by omega : 24 + i < 28),
    Nat.add_sub_cancel_left]
@[simp] theorem auxField_wordR : auxField (wordR aux vs3 vs2 vs1 vd k op) = aux := by
  apply BitVec.eq_of_getLsbD_eq; intro i hi
  simp only [auxField, BitVec.getLsbD_extractLsb', hi, getLsbD_wordR, decide_true, Bool.true_and]
  simp only [if_neg (by omega : ¬ 28 + i < 8), if_neg (by omega : ¬ 28 + i < 12), if_neg (by omega : ¬ 28 + i < 16),
    if_neg (by omega : ¬ 28 + i < 20), if_neg (by omega : ¬ 28 + i < 24), if_neg (by omega : ¬ 28 + i < 28),
    Nat.add_sub_cancel_left]

end

/-! ## Fields of format C -/

section
variable (argc : BitVec 5) (vd k : BitVec 4) (op : BitVec 8)

/-- Bit i of a word of format C. -/
theorem getLsbD_wordC (i : Nat) : (wordC argc vd k op).getLsbD i =
    if i < 8 then op.getLsbD i else if i < 12 then k.getLsbD (i - 8) else if i < 16 then vd.getLsbD (i - 12)
    else if i < 21 then argc.getLsbD (i - 16) else false := by
  show BitVec.getLsbD (w := 11 + 5 + 4 + 4 + 8) (0#11 ++ argc ++ vd ++ k ++ op) i = _
  simp only [BitVec.getLsbD_append, BitVec.getLsbD_zero]
  repeat' split
  all_goals first
    | omega
    | rfl

@[simp] theorem opField_wordC : opField (wordC argc vd k op) = op := by
  apply BitVec.eq_of_getLsbD_eq; intro i hi
  simp only [opField, BitVec.getLsbD_extractLsb', hi, getLsbD_wordC, decide_true, Bool.true_and]
  simp only [Nat.zero_add, if_pos hi]
@[simp] theorem kField_wordC : kField (wordC argc vd k op) = k := by
  apply BitVec.eq_of_getLsbD_eq; intro i hi
  simp only [kField, BitVec.getLsbD_extractLsb', hi, getLsbD_wordC, decide_true, Bool.true_and]
  simp only [if_neg (by omega : ¬ 8 + i < 8), if_pos (by omega : 8 + i < 12), Nat.add_sub_cancel_left]
@[simp] theorem vdField_wordC : vdField (wordC argc vd k op) = vd := by
  apply BitVec.eq_of_getLsbD_eq; intro i hi
  simp only [vdField, BitVec.getLsbD_extractLsb', hi, getLsbD_wordC, decide_true, Bool.true_and]
  simp only [if_neg (by omega : ¬ 12 + i < 8), if_neg (by omega : ¬ 12 + i < 12), if_pos (by omega : 12 + i < 16),
    Nat.add_sub_cancel_left]
@[simp] theorem argcField_wordC : argcField (wordC argc vd k op) = argc := by
  apply BitVec.eq_of_getLsbD_eq; intro i hi
  simp only [argcField, BitVec.getLsbD_extractLsb', hi, getLsbD_wordC, decide_true, Bool.true_and]
  simp only [if_neg (by omega : ¬ 16 + i < 8), if_neg (by omega : ¬ 16 + i < 12), if_neg (by omega : ¬ 16 + i < 16),
    if_pos (by omega : 16 + i < 21), Nat.add_sub_cancel_left]
@[simp] theorem mbzCField_wordC : mbzCField (wordC argc vd k op) = 0 := by
  apply BitVec.eq_of_getLsbD_eq; intro i hi
  simp only [mbzCField, BitVec.getLsbD_extractLsb', hi, getLsbD_wordC, decide_true, Bool.true_and]
  simp only [if_neg (by omega : ¬ 21 + i < 8), if_neg (by omega : ¬ 21 + i < 12), if_neg (by omega : ¬ 21 + i < 16),
    if_neg (by omega : ¬ 21 + i < 21)]
  simp

end

/-! ## Words from their fields -/

/-- A word is what its format R fields make it. -/
theorem wordR_fields (w : InsnWord) :
    wordR (auxField w) (vs3Field w) (vs2Field w) (vs1Field w) (vdField w) (kField w) (opField w) = w := by
  simp only [wordR, auxField, vs3Field, vs2Field, vs1Field, vdField, kField, opField]
  ext i hi
  simp only [BitVec.getElem_append, BitVec.getElem_extractLsb']
  repeat' split
  all_goals
    rw [← BitVec.getLsbD_eq_getElem]
    congr 1
    omega

/-- A word with zeros in bits 31:21 is what its format C fields make it. -/
theorem wordC_fields (w : InsnWord) (h : mbzCField w = 0) :
    wordC (argcField w) (vdField w) (kField w) (opField w) = w := by
  have hw : mbzCField w ++ argcField w ++ vdField w ++ kField w ++ opField w = w := by
    simp only [mbzCField, argcField, vdField, kField, opField]
    ext i hi
    simp only [BitVec.getElem_append, BitVec.getElem_extractLsb']
    repeat' split
    all_goals
      rw [← BitVec.getLsbD_eq_getElem]
      congr 1
      omega
  rw [h] at hw
  exact hw

@[simp] theorem toFin_regBits (r : VIdx) : (regBits r).toFin = r := rfl
@[simp] theorem regBits_toFin (b : BitVec 4) : regBits b.toFin = b := rfl

/-! ## The decoder's lists of kinds are those of WellFormed.lean -/

theorem mem_allKinds (k : Kind) : k ∈ allKinds := by cases k <;> decide
theorem mem_numericKinds (k : Kind) : k ∈ numericKinds ↔ k.isNumeric = true := by cases k <;> decide
theorem mem_floatKinds (k : Kind) : k ∈ floatKinds ↔ k.isFloat = true := by cases k <;> decide
theorem mem_intKinds (k : Kind) : k ∈ intKinds ↔ k.isInt = true := by cases k <;> decide
theorem mem_logicKinds (k : Kind) : k ∈ logicKinds ↔ (k.isInt || k.isBool) = true := by cases k <;> decide
theorem mem_narrowKinds (k : Kind) :
    k ∈ narrowKinds ↔ (decide (k = .i16x8) || decide (k = .i8x16)) = true := by cases k <;> decide

/-- The kinds with a prefix of two lanes are those with a prefix of three: all numeric kinds but Float64x2. -/
theorem mem_prefixKinds (k : Kind) :
    (k ∈ prefixKinds ↔ (k.isNumeric && decide (2 < k.lanes)) = true) ∧
    (k ∈ prefixKinds ↔ (k.isNumeric && decide (3 < k.lanes)) = true) := by cases k <;> decide

/-! ## The kind check -/

/-- The kind check passes exactly when the unused fields are zero and `k` is the code of a legal kind. -/
theorem decodeKind_ok_iff (u : Bool) (legal : List Kind) (w : InsnWord) (k : Kind) :
    decodeKind u legal w = .ok k ↔ u = true ∧ kField w = k.code ∧ k ∈ legal := by
  unfold decodeKind
  cases u
  · simp
  · simp only [if_true, true_and]
    constructor
    · intro h
      split at h
      · cases h
      · next k' hk' =>
        split at h
        · next hm => cases h; exact ⟨(Kind.code_of_ofCode hk').symm, hm⟩
        · cases h
    · rintro ⟨hk, hm⟩
      simp [hk, hm]

end Sys2Proof
end

