-- ==== Sys2Proof/Laws/Float.lean ====
section
/-! SUPPORT. The integer square root, signed units, and what rounding and packing leave in range. -/

namespace Sys2Proof.Machine

/-! ## The integer square root -/

/-- The bits settled so far keep their square at most n, and the bits still open are enough to reach the root. -/
theorem isqrtFrom_spec (n bits r : Nat) (hlo : r * r ≤ n) (hhi : n < (r + 2 ^ bits) * (r + 2 ^ bits)) :
    isqrtFrom n bits r * isqrtFrom n bits r ≤ n ∧ n < (isqrtFrom n bits r + 1) * (isqrtFrom n bits r + 1) := by
  induction bits generalizing r with
  | zero => exact ⟨hlo, by simpa [isqrtFrom] using hhi⟩
  | succ bits ih =>
    simp only [isqrtFrom]
    have h2 : r + 2 ^ (bits + 1) = r + 2 ^ bits + 2 ^ bits := by rw [Nat.pow_succ]; omega
    split
    · next h => exact ih _ h (by rw [← h2]; exact hhi)
    · next h => exact ih _ hlo (by omega)

/-- isqrt n is the floor of the square root of n. -/
theorem isqrt_spec (n : Nat) : isqrt n * isqrt n ≤ n ∧ n < (isqrt n + 1) * (isqrt n + 1) := by
  refine isqrtFrom_spec n _ 0 (by omega) ?_
  rw [Nat.zero_add, ← Nat.pow_add]
  refine Nat.lt_of_lt_of_le (Nat.lt_log2_self (n := n)) (Nat.pow_le_pow_right (by omega) (by omega))

/-! ## Signed units -/

@[simp] theorem signedUnits_zero (n : Bool) : signedUnits n 0 = 0 := by cases n <;> rfl
@[simp] theorem signedUnits_not (n : Bool) (x : Nat) : signedUnits (!n) x = -signedUnits n x := by
  cases n <;> simp [signedUnits]
@[simp] theorem natAbs_signedUnits (n : Bool) (x : Nat) : (signedUnits n x).natAbs = x := by
  cases n <;> simp [signedUnits]

/-! ## Rounding and packing -/

/-- No rounding goes past infinity. -/
theorem FloatFormat.roundBits_le (F : FloatFormat) (q m : Nat) (half : Ordering) : F.roundBits q m half ≤ F.infBits :=
  Nat.min_le_right _ _

theorem FloatFormat.roundRatio_le (F : FloatFormat) (n d : Nat) : F.roundRatio n d ≤ F.infBits :=
  F.roundBits_le _ _ _

theorem FloatFormat.roundRoot_le (F : FloatFormat) (n : Nat) : F.roundRoot n ≤ F.infBits := F.roundBits_le _ _ _

/-- The bits of a binary64 encoding, as a number. -/
theorem toNat_pack64 (neg : Bool) (low : Nat) (h : low ≤ binary64.infBits) :
    (binary64.pack 64 neg low).toNat = (if neg then 2 ^ 63 else 0) + low := by
  have hi : binary64.infBits < 2 ^ 63 := by decide
  unfold FloatFormat.pack
  rw [BitVec.toNat_ofNat, Nat.mod_eq_of_lt]
  · rfl
  · have : 2 ^ (binary64.fracBits + binary64.expBits) = 2 ^ 63 := rfl
    rw [this]; cases neg <;> simp <;> omega

/-- The bits of a binary32 encoding, as a number. -/
theorem toNat_pack32 (neg : Bool) (low : Nat) (h : low ≤ binary32.infBits) :
    (binary32.pack 32 neg low).toNat = (if neg then 2 ^ 31 else 0) + low := by
  have hi : binary32.infBits < 2 ^ 31 := by decide
  unfold FloatFormat.pack
  rw [BitVec.toNat_ofNat, Nat.mod_eq_of_lt]
  · rfl
  · have : 2 ^ (binary32.fracBits + binary32.expBits) = 2 ^ 31 := rfl
    rw [this]; cases neg <;> simp <;> omega

end Sys2Proof.Machine
end

