-- ==== Sys2Proof/Laws/Lanes.lean ====
section
/-! SUPPORT. What pack, replaceLane and the lane-wise templates do lane by lane and bit by bit. -/

namespace Sys2Proof

/-- The lanes of every kind fit its payload. -/
theorem Kind.lanes_mul_width_le (k : Kind) : k.lanes * k.width ≤ 128 := by cases k <;> decide

/-- A lane has at least one bit. -/
theorem Kind.width_pos (k : Kind) : 0 < k.width := by cases k <;> decide

end Sys2Proof

namespace Sys2Proof.Machine

/-- Bit i of a packed payload. -/
theorem getLsbD_pack (w : Nat) (hw : 0 < w) (l : Nat → BitVec w) (n i : Nat) :
    (pack w l n).getLsbD i = (decide (i < 128) && decide (i < n * w) && (l (i / w)).getLsbD (i % w)) := by
  induction n with
  | zero => simp [pack]
  | succ n ih =>
    simp only [pack, BitVec.getLsbD_or, ih, BitVec.getLsbD_shiftLeft, BitVec.getLsbD_setWidth]
    by_cases h128 : i < 128
    · by_cases h1 : i < n * w
      · have : i < (n + 1) * w := by rw [Nat.add_mul]; omega
        simp [h128, h1, this]
      · by_cases h2 : i < (n + 1) * w
        · have hd : i / w = n := Nat.div_eq_of_lt_le (by omega) h2
          have hm : i - n * w = i % w := by
            have := Nat.div_add_mod i w
            rw [hd, Nat.mul_comm] at this
            omega
          have hlt : i % w < 128 := by have := Nat.mod_le i w; omega
          simp [h128, h1, h2, hd, hm, hlt]
        · have hge : w ≤ i - n * w := by rw [Nat.add_mul] at h2; omega
          simp [h128, h1, h2, BitVec.getLsbD_of_ge _ _ hge]
    · simp [h128]

/-- Lane j of a packed payload. -/
theorem lane_pack (w : Nat) (hw : 0 < w) (l : Nat → BitVec w) (n j : Nat) (hj : j < n) (hn : n * w ≤ 128) :
    lane w (pack w l n) j = l j := by
  apply BitVec.eq_of_getLsbD_eq
  intro i hi
  have hlt : j * w + i < n * w := by
    calc j * w + i < j * w + w := by omega
      _ = (j + 1) * w := by rw [Nat.add_mul, Nat.one_mul]
      _ ≤ n * w := Nat.mul_le_mul_right w hj
  have hd : (j * w + i) / w = j := by
    rw [Nat.add_comm, Nat.add_mul_div_right _ _ hw, Nat.div_eq_of_lt hi, Nat.zero_add]
  have hm : (j * w + i) % w = i := by
    rw [Nat.add_comm, Nat.add_mul_mod_self_right, Nat.mod_eq_of_lt hi]
  have h128 : j * w + i < 128 := by omega
  simp only [lane, BitVec.getLsbD_extractLsb', hi, decide_true, Bool.true_and]
  rw [getLsbD_pack w hw, hd, hm]
  simp only [hlt, h128, decide_true, Bool.true_and]

/-- Payload bits that belong to no lane are zero. -/
theorem getLsbD_pack_of_ge (w : Nat) (hw : 0 < w) (l : Nat → BitVec w) (n i : Nat) (hi : n * w ≤ i) :
    (pack w l n).getLsbD i = false := by
  rw [getLsbD_pack w hw]
  simp [Nat.not_lt.2 hi]

theorem lane_map1 (w n : Nat) (hw : 0 < w) (hn : n * w ≤ 128) (f : BitVec w → BitVec w) (a : Payload) (j : Nat)
    (hj : j < n) : lane w (map1 w n f a) j = f (lane w a j) := lane_pack w hw _ n j hj hn

theorem lane_map2 (w n : Nat) (hw : 0 < w) (hn : n * w ≤ 128) (f : BitVec w → BitVec w → BitVec w) (a b : Payload)
    (j : Nat) (hj : j < n) : lane w (map2 w n f a b) j = f (lane w a j) (lane w b j) := lane_pack w hw _ n j hj hn

/-- Bit j of a comparison's result. -/
theorem getLsbD_cmp2 (w n : Nat) (hn : n ≤ 128) (rel : BitVec w → BitVec w → Bool) (a b : Payload) (j : Nat) :
    (cmp2 w n rel a b).getLsbD j = (decide (j < n) && rel (lane w a j) (lane w b j)) := by
  unfold cmp2
  rw [getLsbD_pack 1 (by omega)]
  simp only [Nat.mul_one, Nat.div_one, Nat.mod_one]
  by_cases h : j < n
  · have : j < 128 := by omega
    cases hr : rel (lane w a j) (lane w b j) <;> simp [h, this, BitVec.ofBool]
  · simp [h]

/-- Two payloads whose lanes agree are equal, where the lanes fill the payload. -/
theorem eq_of_lane_eq (w n : Nat) (hw : 0 < w) (hn : n * w = 128) (a b : Payload)
    (h : ∀ j < n, lane w a j = lane w b j) : a = b := by
  apply BitVec.eq_of_getLsbD_eq
  intro i hi
  have hj : i / w < n := (Nat.div_lt_iff_lt_mul hw).2 (by omega)
  have hm : i % w < w := Nat.mod_lt _ hw
  have := congrArg (fun x => x.getLsbD (i % w)) (h (i / w) hj)
  simp only [lane, BitVec.getLsbD_extractLsb', hm, decide_true, Bool.true_and] at this
  have hd : i / w * w + i % w = i := by rw [Nat.mul_comm]; exact Nat.div_add_mod i w
  rwa [hd] at this

/-- Lane j after lane i is replaced. -/
theorem lane_replaceLane (w : Nat) (b : Payload) (i j : Nat) (l : BitVec w) (hi : (i + 1) * w ≤ 128)
    (hj : (j + 1) * w ≤ 128) : lane w (replaceLane w b i l) j = if j = i then l else lane w b j := by
  apply BitVec.eq_of_getLsbD_eq
  intro t ht
  have h128 : j * w + t < 128 := by rw [Nat.add_mul] at hj; omega
  simp only [lane, replaceLane, BitVec.getLsbD_extractLsb', ht, decide_true, Bool.true_and, BitVec.getLsbD_or,
    BitVec.getLsbD_and, BitVec.getLsbD_not, BitVec.getLsbD_shiftLeft, BitVec.getLsbD_setWidth,
    BitVec.getLsbD_allOnes, h128]
  by_cases hji : j = i
  · subst hji
    have : j * w + t - j * w = t := by omega
    have ht2 : t < 128 := by omega
    simp [this, ht, ht2]
  · simp only [hji, if_false]
    rcases Nat.lt_or_gt_of_ne hji with hlt | hgt
    · have h1 : j * w + t < i * w := by
        calc j * w + t < (j + 1) * w := by rw [Nat.add_mul]; omega
          _ ≤ i * w := Nat.mul_le_mul_right w hlt
      simp [h1, ht]
    · have h1 : w ≤ j * w + t - i * w := by
        have : (i + 1) * w ≤ j * w := Nat.mul_le_mul_right w hgt
        rw [Nat.add_mul] at this; omega
      have h2 : ¬ j * w + t - i * w < w := by omega
      simp [h2, BitVec.getLsbD_of_ge _ _ h1, ht]

/-- A replaced lane leaves every bit outside it. -/
theorem getLsbD_replaceLane_of_outside (w : Nat) (b : Payload) (i t : Nat) (l : BitVec w)
    (h : t < i * w ∨ (i + 1) * w ≤ t) : (replaceLane w b i l).getLsbD t = b.getLsbD t := by
  by_cases h128 : t < 128
  · simp only [replaceLane, BitVec.getLsbD_or, BitVec.getLsbD_and, BitVec.getLsbD_not, BitVec.getLsbD_shiftLeft,
      BitVec.getLsbD_setWidth, BitVec.getLsbD_allOnes, h128]
    rcases h with h | h
    · simp [h]
    · have h1 : w ≤ t - i * w := by rw [Nat.add_mul] at h; omega
      have h2 : ¬ t - i * w < w := by omega
      simp [h2, BitVec.getLsbD_of_ge _ _ h1]
  · rw [BitVec.getLsbD_of_ge _ _ (by omega), BitVec.getLsbD_of_ge _ _ (by omega)]

end Sys2Proof.Machine
end

