-- ==== Sys2Proof/Laws/Memory.lean ====
section
/-! SUPPORT. The laws of the byte memory: a read after a write, the canonical form kept by every operation, and what
memRead and memWrite do byte by byte. -/

namespace Sys2Proof.Machine

/-! ## One byte -/

theorem Memory.read_erase (m : Memory) (a c : Nat) :
    Memory.read (Memory.erase m a) c = if a = c then Memory.unlisted else Memory.read m c := by
  induction m with
  | nil => simp [Memory.erase, Memory.read]
  | cons p m ih =>
    obtain ⟨x, b⟩ := p
    simp only [Memory.erase]
    split <;> simp only [Memory.read] <;> split_ifs <;> simp_all

theorem Memory.read_insert (m : Memory) (a : Nat) (v : Byte) (c : Nat) (h : a = c → Memory.read m c = Memory.unlisted)
    (hn : ∀ p ∈ m, p.1 ≠ a) :
    Memory.read (Memory.insert m a v) c = if a = c then v else Memory.read m c := by
  induction m with
  | nil => simp [Memory.insert, Memory.read]
  | cons p m ih =>
    obtain ⟨x, b⟩ := p
    have hx : x ≠ a := hn (x, b) (by simp)
    simp only [Memory.insert]
    split
    · simp [Memory.read]
    · simp only [Memory.read]
      by_cases hxc : x = c
      · have : a ≠ c := fun e => hx (by omega)
        simp [hxc, this]
      · simp only [hxc, if_false]
        exact ih (fun e => by simpa [Memory.read, hxc] using h e) (fun q hq => hn q (by simp [hq]))

theorem Memory.mem_erase_ne (m : Memory) (a : Nat) : ∀ p ∈ Memory.erase m a, p.1 ≠ a := by
  induction m with
  | nil => simp [Memory.erase]
  | cons p m ih =>
    obtain ⟨x, b⟩ := p
    simp only [Memory.erase]
    split
    · exact ih
    · intro q hq
      rcases List.mem_cons.1 hq with rfl | hq
      · assumption
      · exact ih q hq

/-- A read after a write: the byte written at its address, what was there elsewhere, in any memory. -/
theorem Memory.read_write (m : Memory) (a : Nat) (v : Byte) (c : Nat) :
    Memory.read (Memory.write m a v) c = if a = c then v else Memory.read m c := by
  unfold Memory.write
  split
  · next h => rw [Memory.read_erase]; split <;> simp_all
  · rw [Memory.read_insert]
    · rw [Memory.read_erase]; split <;> simp_all
    · intro h; simp [Memory.read_erase, h]
    · exact Memory.mem_erase_ne m a

@[simp] theorem Memory.read_write_self (m : Memory) (a : Nat) (v : Byte) : Memory.read (Memory.write m a v) a = v := by
  simp [Memory.read_write]

theorem Memory.read_write_of_ne (m : Memory) {a c : Nat} (v : Byte) (h : a ≠ c) :
    Memory.read (Memory.write m a v) c = Memory.read m c := by simp [Memory.read_write, h]

/-! ## The canonical form -/

theorem Memory.wfFrom_mono (m : Memory) {lo lo' : Nat} (h : lo' ≤ lo) (hw : Memory.wfFrom lo m = true) :
    Memory.wfFrom lo' m = true := by
  cases m with
  | nil => rfl
  | cons p m =>
    obtain ⟨x, b⟩ := p
    simp only [Memory.wfFrom, Bool.and_eq_true, decide_eq_true_eq] at hw ⊢
    exact ⟨⟨⟨by omega, hw.1.1.2⟩, hw.1.2⟩, hw.2⟩

theorem Memory.wfFrom_erase (m : Memory) (lo a : Nat) (hw : Memory.wfFrom lo m = true) :
    Memory.wfFrom lo (Memory.erase m a) = true := by
  induction m generalizing lo with
  | nil => rfl
  | cons p m ih =>
    obtain ⟨x, b⟩ := p
    simp only [Memory.wfFrom, Bool.and_eq_true, decide_eq_true_eq] at hw
    simp only [Memory.erase]
    split
    · exact Memory.wfFrom_mono _ (by omega) (ih _ hw.2)
    · simp only [Memory.wfFrom, Bool.and_eq_true, decide_eq_true_eq]
      exact ⟨hw.1, ih _ hw.2⟩

theorem Memory.wfFrom_insert (m : Memory) (lo a : Nat) (v : Byte) (hw : Memory.wfFrom lo m = true) (hlo : lo ≤ a)
    (ha : a < 2 ^ 64) (hv : v ≠ Memory.unlisted) (hn : ∀ p ∈ m, p.1 ≠ a) :
    Memory.wfFrom lo (Memory.insert m a v) = true := by
  induction m generalizing lo with
  | nil =>
    simp only [Memory.insert, Memory.wfFrom, Bool.and_eq_true, decide_eq_true_eq, and_true]
    exact ⟨⟨hlo, ha⟩, hv⟩
  | cons p m ih =>
    obtain ⟨x, b⟩ := p
    have hx : x ≠ a := hn (x, b) (by simp)
    simp only [Memory.wfFrom, Bool.and_eq_true, decide_eq_true_eq] at hw
    simp only [Memory.insert]
    split
    · next hlt =>
      simp only [Memory.wfFrom, Bool.and_eq_true, decide_eq_true_eq]
      exact ⟨⟨⟨hlo, ha⟩, hv⟩, ⟨⟨by omega, hw.1.1.2⟩, hw.1.2⟩, hw.2⟩
    · next hge =>
      simp only [Memory.wfFrom, Bool.and_eq_true, decide_eq_true_eq]
      exact ⟨hw.1, ih _ hw.2 (by omega) (fun q hq => hn q (by simp [hq]))⟩

/-- A write keeps the canonical form. -/
theorem Memory.wf_write (m : Memory) (a : Nat) (v : Byte) (ha : a < 2 ^ 64) (hw : Memory.wf m = true) :
    Memory.wf (Memory.write m a v) = true := by
  unfold Memory.write
  split
  · exact Memory.wfFrom_erase m 0 a hw
  · exact Memory.wfFrom_insert _ 0 a v (Memory.wfFrom_erase m 0 a hw) (Nat.zero_le _) ha ‹_› (Memory.mem_erase_ne m a)

theorem byteAddress_lt (a : Word) (k : Nat) : byteAddress a k < 2 ^ 64 := BitVec.isLt _

/-- A MemWrite keeps the canonical form. -/
theorem Memory.wf_memWrite (m : Memory) (a : Word) (n : Nat) (v : Payload) (hw : Memory.wf m = true) :
    Memory.wf (memWrite m a n v) = true := by
  induction n with
  | zero => exact hw
  | succ n ih => exact Memory.wf_write _ _ _ (byteAddress_lt a n) ih

/-- The reset memory has the canonical form. -/
theorem Memory.wf_reset : Memory.wf State.reset.mem = true := rfl

/-! ## MemRead and MemWrite byte by byte (20_memory.md R45) -/

theorem byteAddress_inj (a : Word) {j k : Nat} (hj : j < 2 ^ 64) (hk : k < 2 ^ 64)
    (h : byteAddress a j = byteAddress a k) : j = k := by
  unfold byteAddress at h
  have h2 := BitVec.eq_of_toNat_eq h
  have h3 : BitVec.ofNat 64 j = BitVec.ofNat 64 k := by simpa using h2
  have h4 := congrArg BitVec.toNat h3
  simp only [BitVec.toNat_ofNat, Nat.mod_eq_of_lt hj, Nat.mod_eq_of_lt hk] at h4
  exact h4

/-- What a MemWrite of n bytes leaves at every address. -/
theorem Memory.read_memWrite_of_ne (m : Memory) (a : Word) (n : Nat) (v : Payload) (c : Nat)
    (h : ∀ k < n, c ≠ byteAddress a k) : Memory.read (memWrite m a n v) c = Memory.read m c := by
  induction n with
  | zero => rfl
  | succ n ih =>
    simp only [memWrite]
    rw [Memory.read_write_of_ne _ _ (Ne.symm (h n (by omega))), ih (fun k hk => h k (by omega))]

theorem Memory.read_memWrite (m : Memory) (a : Word) (n : Nat) (v : Payload) (k : Nat) (hk : k < n) (hn : n ≤ 16) :
    Memory.read (memWrite m a n v) (byteAddress a k) = lane 8 v k := by
  induction n with
  | zero => omega
  | succ n ih =>
    simp only [memWrite]
    by_cases h : k = n
    · subst h; simp
    · rw [Memory.read_write_of_ne, ih (by omega) (by omega)]
      intro e
      exact h (byteAddress_inj a (by omega) (by omega) e.symm)

/-- Bit i of a MemRead of n bytes. -/
theorem getLsbD_memRead (m : Memory) (a : Word) (n i : Nat) :
    (memRead m a n).getLsbD i =
      (decide (i < 128) && decide (i < 8 * n) && (Memory.read m (byteAddress a (i / 8))).getLsbD (i % 8)) := by
  induction n with
  | zero => simp [memRead]
  | succ n ih =>
    simp only [memRead, BitVec.getLsbD_or, ih, BitVec.getLsbD_shiftLeft, BitVec.getLsbD_setWidth]
    by_cases h128 : i < 128
    · by_cases h1 : i < 8 * n
      · have : i < 8 * (n + 1) := by omega
        simp [h128, h1, this]
      · by_cases h2 : i < 8 * (n + 1)
        · have hq : i / 8 = n := by omega
          have hr : i - 8 * n = i % 8 := by omega
          have hlt : i % 8 < 128 := by omega
          simp [h128, h1, h2, hq, hr, hlt]
        · have hge : 8 ≤ i - 8 * n := by omega
          simp [h128, h1, h2, BitVec.getLsbD_of_ge _ _ hge]
    · simp [h128]

/-- Byte k of a MemRead of n bytes: the byte at its address, or zero beyond. -/
theorem lane_memRead (m : Memory) (a : Word) (n k : Nat) (hk : k < 16) :
    lane 8 (memRead m a n) k = if k < n then Memory.read m (byteAddress a k) else 0 := by
  apply BitVec.eq_of_getLsbD_eq
  intro i hi
  simp only [lane, BitVec.getLsbD_extractLsb', hi, decide_true, Bool.true_and, getLsbD_memRead]
  have h1 : k * 8 + i < 128 := by omega
  have h2 : (k * 8 + i) / 8 = k := by omega
  have h3 : (k * 8 + i) % 8 = i := by omega
  rw [h2, h3]
  by_cases hkn : k < n
  · have : k * 8 + i < 8 * n := by omega
    simp [h1, this, hkn]
  · have : ¬ k * 8 + i < 8 * n := by omega
    simp [this, hkn]

end Sys2Proof.Machine
end

