-- ==== Sys2Proof/Laws/State.lean ====
section
/-! SUPPORT. One lemma per field per update of State: what each named operation leaves of every field. -/

namespace Sys2Proof.Machine

/-! ## setReg -/

@[simp] theorem State.setReg_regs (s : State) (r : VIdx) (k : Kind) (b : Payload) :
    (s.setReg r k b).regs = s.regs.set r ⟨some k, b⟩ := rfl
@[simp] theorem State.setReg_scratch (s : State) (r : VIdx) (k : Kind) (b : Payload) :
    (s.setReg r k b).scratch = s.scratch := rfl
@[simp] theorem State.setReg_mem (s : State) (r : VIdx) (k : Kind) (b : Payload) : (s.setReg r k b).mem = s.mem := rfl
@[simp] theorem State.setReg_host (s : State) (r : VIdx) (k : Kind) (b : Payload) : (s.setReg r k b).host = s.host := rfl
@[simp] theorem State.setReg_responses (s : State) (r : VIdx) (k : Kind) (b : Payload) :
    (s.setReg r k b).responses = s.responses := rfl
@[simp] theorem State.setReg_freeCount (s : State) (r : VIdx) (k : Kind) (b : Payload) :
    (s.setReg r k b).freeCount = s.freeCount := rfl

theorem State.setReg_reg (s : State) (r : VIdx) (k : Kind) (b : Payload) (q : VIdx) :
    (s.setReg r k b).reg q = if r = q then ⟨some k, b⟩ else s.reg q := by
  simp only [State.reg, State.setReg, Fin.getElem_fin, Vector.getElem_set, Fin.ext_iff]

@[simp] theorem State.setReg_reg_self (s : State) (r : VIdx) (k : Kind) (b : Payload) :
    (s.setReg r k b).reg r = ⟨some k, b⟩ := by simp [State.setReg_reg]

theorem State.setReg_reg_of_ne (s : State) {r q : VIdx} (k : Kind) (b : Payload) (h : r ≠ q) :
    (s.setReg r k b).reg q = s.reg q := by simp [State.setReg_reg, h]

/-! ## setScratch -/

@[simp] theorem State.setScratch_regs (s : State) (b : Payload) : (s.setScratch b).regs = s.regs := rfl
@[simp] theorem State.setScratch_scratch (s : State) (b : Payload) : (s.setScratch b).scratch = b := rfl
@[simp] theorem State.setScratch_mem (s : State) (b : Payload) : (s.setScratch b).mem = s.mem := rfl
@[simp] theorem State.setScratch_host (s : State) (b : Payload) : (s.setScratch b).host = s.host := rfl
@[simp] theorem State.setScratch_responses (s : State) (b : Payload) : (s.setScratch b).responses = s.responses := rfl
@[simp] theorem State.setScratch_freeCount (s : State) (b : Payload) : (s.setScratch b).freeCount = s.freeCount := rfl
@[simp] theorem State.setScratch_reg (s : State) (b : Payload) (r : VIdx) : (s.setScratch b).reg r = s.reg r := rfl

/-! ## storeScratch and writeByte -/

@[simp] theorem State.storeScratch_regs (s : State) (a : Word) (n : Nat) : (s.storeScratch a n).regs = s.regs := rfl
@[simp] theorem State.storeScratch_scratch (s : State) (a : Word) (n : Nat) :
    (s.storeScratch a n).scratch = s.scratch := rfl
@[simp] theorem State.storeScratch_mem (s : State) (a : Word) (n : Nat) :
    (s.storeScratch a n).mem = memWrite s.mem a n s.scratch := rfl
@[simp] theorem State.storeScratch_host (s : State) (a : Word) (n : Nat) : (s.storeScratch a n).host = s.host := rfl
@[simp] theorem State.storeScratch_responses (s : State) (a : Word) (n : Nat) :
    (s.storeScratch a n).responses = s.responses := rfl
@[simp] theorem State.storeScratch_freeCount (s : State) (a : Word) (n : Nat) :
    (s.storeScratch a n).freeCount = s.freeCount := rfl
@[simp] theorem State.storeScratch_reg (s : State) (a : Word) (n : Nat) (r : VIdx) :
    (s.storeScratch a n).reg r = s.reg r := rfl

@[simp] theorem State.writeByte_regs (s : State) (a : Word) (b : Byte) : (s.writeByte a b).regs = s.regs := rfl
@[simp] theorem State.writeByte_scratch (s : State) (a : Word) (b : Byte) : (s.writeByte a b).scratch = s.scratch := rfl
@[simp] theorem State.writeByte_mem (s : State) (a : Word) (b : Byte) :
    (s.writeByte a b).mem = Memory.write s.mem a.toNat b := rfl
@[simp] theorem State.writeByte_host (s : State) (a : Word) (b : Byte) : (s.writeByte a b).host = s.host := rfl
@[simp] theorem State.writeByte_responses (s : State) (a : Word) (b : Byte) :
    (s.writeByte a b).responses = s.responses := rfl
@[simp] theorem State.writeByte_freeCount (s : State) (a : Word) (b : Byte) :
    (s.writeByte a b).freeCount = s.freeCount := rfl

/-! ## respond and raise -/

@[simp] theorem State.respond_regs (s : State) (st : Status) (xd : Word) : (s.respond st xd).regs = s.regs := rfl
@[simp] theorem State.respond_scratch (s : State) (st : Status) (xd : Word) : (s.respond st xd).scratch = s.scratch := rfl
@[simp] theorem State.respond_mem (s : State) (st : Status) (xd : Word) : (s.respond st xd).mem = s.mem := rfl
@[simp] theorem State.respond_host (s : State) (st : Status) (xd : Word) : (s.respond st xd).host = s.host.tail := rfl
@[simp] theorem State.respond_responses (s : State) (st : Status) (xd : Word) :
    (s.respond st xd).responses = s.responses ++ [⟨st, xd⟩] := rfl
@[simp] theorem State.respond_freeCount (s : State) (st : Status) (xd : Word) :
    (s.respond st xd).freeCount = s.freeCount := rfl
@[simp] theorem State.respond_reg (s : State) (st : Status) (xd : Word) (r : VIdx) :
    (s.respond st xd).reg r = s.reg r := rfl

@[simp] theorem State.raise_regs (s : State) (e : Error) : (s.raise e).regs = s.regs := rfl
@[simp] theorem State.raise_scratch (s : State) (e : Error) : (s.raise e).scratch = s.scratch := rfl
@[simp] theorem State.raise_mem (s : State) (e : Error) : (s.raise e).mem = s.mem := rfl
@[simp] theorem State.raise_host (s : State) (e : Error) : (s.raise e).host = s.host.tail := rfl
@[simp] theorem State.raise_responses (s : State) (e : Error) :
    (s.raise e).responses = s.responses ++ [⟨e.status, 0⟩] := rfl
@[simp] theorem State.raise_freeCount (s : State) (e : Error) : (s.raise e).freeCount = s.freeCount := rfl
@[simp] theorem State.raise_reg (s : State) (e : Error) (r : VIdx) : (s.raise e).reg r = s.reg r := rfl

/-! ## The host's own acts -/

@[simp] theorem State.afterHostWrite_regs (s : State) (a : Word) (b : Byte) : (s.afterHostWrite a b).regs = s.regs := rfl
@[simp] theorem State.afterHostWrite_scratch (s : State) (a : Word) (b : Byte) :
    (s.afterHostWrite a b).scratch = s.scratch := rfl
@[simp] theorem State.afterHostWrite_mem (s : State) (a : Word) (b : Byte) :
    (s.afterHostWrite a b).mem = Memory.write s.mem a.toNat b := rfl
@[simp] theorem State.afterHostWrite_host (s : State) (a : Word) (b : Byte) :
    (s.afterHostWrite a b).host = s.host.tail := rfl
@[simp] theorem State.afterHostWrite_responses (s : State) (a : Word) (b : Byte) :
    (s.afterHostWrite a b).responses = s.responses := rfl
@[simp] theorem State.afterHostWrite_freeCount (s : State) (a : Word) (b : Byte) :
    (s.afterHostWrite a b).freeCount = s.freeCount := rfl

@[simp] theorem State.afterReset_regs (s : State) : s.afterReset.regs = State.reset.regs := rfl
@[simp] theorem State.afterReset_scratch (s : State) : s.afterReset.scratch = State.reset.scratch := rfl
@[simp] theorem State.afterReset_mem (s : State) : s.afterReset.mem = s.mem := rfl
@[simp] theorem State.afterReset_host (s : State) : s.afterReset.host = s.host.tail := rfl
@[simp] theorem State.afterReset_responses (s : State) : s.afterReset.responses = s.responses := rfl
@[simp] theorem State.afterReset_freeCount (s : State) : s.afterReset.freeCount = s.freeCount := rfl

@[simp] theorem State.afterResetDuring_regs (s : State) (r : Result) :
    (s.afterResetDuring r).regs = State.reset.regs := rfl
@[simp] theorem State.afterResetDuring_scratch (s : State) (r : Result) :
    (s.afterResetDuring r).scratch = State.reset.scratch := rfl
@[simp] theorem State.afterResetDuring_host (s : State) (r : Result) : (s.afterResetDuring r).host = s.host.tail := rfl
@[simp] theorem State.afterResetDuring_responses (s : State) (r : Result) :
    (s.afterResetDuring r).responses = s.responses := rfl
@[simp] theorem State.afterResetDuring_freeCount (s : State) (r : Result) :
    (s.afterResetDuring r).freeCount = s.freeCount + 1 := rfl

theorem State.afterResetDuring_mem (s : State) (r : Result) :
    (s.afterResetDuring r).mem = if Config.abandonedStoreLands s.freeCount then memoryAfter s r else s.mem := rfl

/-- Every register is EMPTY after reset. -/
theorem State.reset_reg (r : VIdx) : State.reset.reg r = VReg.empty := by
  simp [State.reg, State.reset]

/-! ## withFetchWord -/

@[simp] theorem State.withFetchWord_regs (s : State) (n w : Nat) : (s.withFetchWord n w).regs = s.regs := rfl
@[simp] theorem State.withFetchWord_mem (s : State) (n w : Nat) : (s.withFetchWord n w).mem = s.mem := rfl

/-- The step after withFetchWord runs the command placed. -/
theorem step_withFetchWord (s : State) (n w : Nat) :
    step (s.withFetchWord n w) = runCommand (commandOfBits (w % 2 ^ n)) (s.withFetchWord n w) := rfl

end Sys2Proof.Machine
end

