-- ==== Sys2Proof/Laws/Operands.lean ====
section
/-! SUPPORT. The checks of the machine against the terms of Safety.lean: 32-bit integers, lane and permutation indices,
buffer kinds, prefix counts, the buffer validation, addresses and the range of FROMF. -/

namespace Sys2Proof.Machine

/-! ## Indices -/

/-- A 32-bit integer is an operand word in [-2^31, 2^31) (30_encoding.md R69). -/
theorem isInt32_eq (x : Word) : isInt32 x = decide (-2 ^ 31 ≤ x.toInt ∧ x.toInt < 2 ^ 31) := by
  unfold isInt32
  congr 1
  apply propext
  have hw := BitVec.toInt_signExtend_of_le (x := x.setWidth 32) (v := 64) (by omega)
  constructor
  · intro h
    rw [← h, hw]
    have h1 := BitVec.toInt_lt (x := x.setWidth 32)
    have h2 := BitVec.le_toInt (x := x.setWidth 32)
    constructor <;> simp at * <;> omega
  · intro h
    apply BitVec.eq_of_toInt_eq
    rw [hw, BitVec.toInt_setWidth]
    have h3 := BitVec.toInt_eq_toNat_cond x
    have := x.isLt
    split at h3 <;> simp only [Int.bmod_def] <;> split <;> omega

/-- The lane-index check is that the index lies in [0, N). -/
theorem laneIndexOk_eq (x : Word) (n : Nat) (hn : n ≤ 16) : laneIndexOk x n = inRange x n := by
  unfold laneIndexOk inRange
  rw [isInt32_eq]
  apply Bool.eq_iff_iff.2
  simp
  omega

/-- The index check of SWZ and SHUF is that each index lies below the limit. -/
theorem indicesOk_eq (x : Operands) (limit n : Nat) :
    indicesOk x limit n = (List.range n).all fun j => inRange (word x j) limit := by
  induction n with
  | zero => rfl
  | succ n ih => simp [indicesOk, ih, List.range_succ, List.all_append, inRange, Bool.and_assoc]

/-- An index in range, read as a natural number. -/
theorem toNat_of_inRange {x : Word} {n : Nat} (h : inRange x n = true) : (x.toNat : Int) = x.toInt ∧ x.toNat < n := by
  simp only [inRange, decide_eq_true_eq] at h
  have h3 := BitVec.toInt_eq_toNat_cond x
  have := x.isLt
  split at h3 <;> omega

/-! ## Buffers -/

/-- The buffer kinds 1 .. 5 and their element widths (20_memory.md R42). -/
theorem elementWidth_eq (b : Word) :
    elementWidth b = if 1 ≤ b.toNat ∧ b.toNat ≤ 5 then some (widthOfBufferKind b.toNat) else none := by
  have e : ∀ n : Nat, n < 2 ^ 64 → (b = BitVec.ofNat 64 n) = (b.toNat = n) := by
    intro n hn
    apply propext
    constructor
    · intro h; rw [h, BitVec.toNat_ofNat, Nat.mod_eq_of_lt hn]
    · intro h; apply BitVec.eq_of_toNat_eq; rw [h, BitVec.toNat_ofNat, Nat.mod_eq_of_lt hn]
  unfold elementWidth
  simp only [show (b = 1) = _ from e 1 (by omega), show (b = 2) = _ from e 2 (by omega),
    show (b = 3) = _ from e 3 (by omega), show (b = 4) = _ from e 4 (by omega), show (b = 5) = _ from e 5 (by omega)]
  repeat' split
  all_goals first
    | omega
    | simp_all [widthOfBufferKind]

/-- The legal prefix counts (46_load_store.md R223). -/
theorem lanesMoved_eq (k : Kind) (c : Nat) (hc : c < 4) :
    lanesMoved k c = if k.isNumeric = true ∧ c < k.lanes then some (k.prefixLanes c) else none := by
  cases k <;> interval_cases c <;> rfl

theorem requiredBytes_prefixLanes (c : Fin 4) (k : Kind) : requiredBytes k (k.prefixLanes c.val) = bytesMoved c k := rfl

/-- No access moves more than sixteen bytes. -/
theorem bytesMoved_le (c : Fin 4) (k : Kind) (h : c.val < k.lanes) : bytesMoved c k ≤ 16 := by
  cases k <;> revert h <;> revert c <;> decide

/-- The validation in the terms of 46_load_store.md R221: TypeKind before Bounds. -/
theorem validate_eq (b : Buffer) (req : Nat) : validate b req =
    if (decide (1 ≤ b.bkind.toNat ∧ b.bkind.toNat ≤ 5) &&
        decide (-2 ^ 31 ≤ b.index.toInt ∧ b.index.toInt < 2 ^ 31)) = false then .error .typeKind
    else if decide (0 ≤ b.index.toInt ∧
        b.index.toInt * widthOfBufferKind b.bkind.toNat + req ≤ b.byteLength.toNat) = false then .error .bounds
    else .ok (bufferAddress b (widthOfBufferKind b.bkind.toNat)) := by
  unfold validate
  rw [elementWidth_eq, isInt32_eq]
  by_cases h1 : 1 ≤ b.bkind.toNat ∧ b.bkind.toNat ≤ 5
  · simp only [h1, and_self, if_true, decide_true, Bool.true_and]
    by_cases h2 : -2 ^ 31 ≤ b.index.toInt ∧ b.index.toInt < 2 ^ 31
    · simp only [h2, and_self, decide_true, Bool.true_eq_false, if_false, decide_eq_false_iff_not]
      split
      · rw [if_pos (by omega)]
      · split
        · rw [if_pos (by omega)]
        · rw [if_neg (by omega)]
    · rw [decide_eq_false h2]; rfl
  · rw [if_neg h1, decide_eq_false h1]; rfl

/-- A buffer that is valid passes the validation. -/
theorem validate_of_bufferValid {b : Buffer} {req : Nat} (h : bufferValid b req = true) :
    validate b req = .ok (bufferAddress b (widthOfBufferKind b.bkind.toNat)) := by
  simp only [bufferValid, Bool.and_eq_true, decide_eq_true_eq] at h
  rw [validate_eq, decide_eq_true h.1.1.1, decide_eq_true ⟨by omega, h.1.1.2⟩, decide_eq_true ⟨h.1.2, h.2⟩]
  rfl

/-- The bytes of an access are at base + index * element width + n, modulo 2^64 (46_load_store.md R222). -/
theorem byteAddress_bufferAddress (b : Buffer) (n : Nat) (h : 0 ≤ b.index.toInt) :
    byteAddress (bufferAddress b (widthOfBufferKind b.bkind.toNat)) n = accessAddress b n := by
  have hi : b.index.toInt = (b.index.toNat : Int) := by
    have := BitVec.toInt_eq_toNat_cond b.index
    split at this <;> omega
  unfold byteAddress bufferAddress accessAddress
  rw [hi]
  rw [show ((b.base.toNat : Int) + (b.index.toNat : Int) * (widthOfBufferKind b.bkind.toNat : Int))
    = ((b.base.toNat + b.index.toNat * widthOfBufferKind b.bkind.toNat : Nat) : Int) by push_cast; rfl]
  rw [BitVec.ofInt_natCast, BitVec.toNat_add, BitVec.toNat_ofNat, BitVec.toNat_ofNat, ← Nat.add_mod]

/-! ## FROMF -/

/-- A lane is truncated exactly when its value is in range. -/
theorem isSome_truncLane (l : BitVec 32) : (truncLane l).isSome = convertible l := by
  unfold truncLane convertible
  have hu : (2 : Int) ^ binary32.unitExp = 2 ^ 149 := rfl
  cases h : binary32.unpack l with
  | nan => rfl
  | inf n => rfl
  | fin n u =>
    simp only
    rw [hu]
    split <;> rename_i h2
    · symm; simpa only [Option.isSome_some, decide_eq_true_eq, Int.neg_mul] using h2
    · symm; simpa only [Option.isSome_none, decide_eq_false_iff_not, Int.neg_mul] using h2

/-- The four lanes are truncated exactly when each is in range. -/
theorem isSome_truncLanes (b : Payload) :
    (truncLanes b).isSome = (List.range 4).all fun j => convertible (lane 32 b j) := by
  unfold truncLanes
  simp only [← isSome_truncLane, List.range, List.range.loop, List.all_cons, List.all_nil, Bool.and_true]
  cases truncLane (lane 32 b 0) <;> cases truncLane (lane 32 b 1) <;> cases truncLane (lane 32 b 2) <;>
    cases truncLane (lane 32 b 3) <;> rfl

end Sys2Proof.Machine
end

