-- ==== Sys2Proof/Laws/Ops.lean ====
section
/-! SUPPORT. For each shared operation of Machine/Ops.lean what it answers, said once; and for `exec` the list of all that
a command can do. -/

namespace Sys2Proof.Machine

/-! ## Responses -/

@[simp] theorem raise_eq (e : Error) (s : State) : raise e s = .next (s.raise e) := rfl
@[simp] theorem complete_eq (xd : Word) (s : State) : complete xd s = .next (s.respond .ok xd) := rfl

/-- An error's status is never OK. -/
theorem Error.status_ne_ok (e : Error) : e.status ≠ .ok := by cases e <;> decide

/-- Different errors have different statuses. -/
theorem Error.status_inj {e f : Error} (h : e.status = f.status) : e = f := by
  cases e <;> cases f <;> first | rfl | exact absurd h (by decide)

/-! ## Templates -/

/-- What the unary template answers. -/
theorem unary_cases (op : Option UnaryOp) (k rk : Kind) (vd vs1 : VIdx) (s : State) :
    (op = none ∧ unary op k rk vd vs1 s = .next (s.raise .illegalCommand)) ∨
    (∃ f, op = some f ∧ s.tag vs1 ≠ some k ∧ unary op k rk vd vs1 s = .next (s.raise .typeKind)) ∨
    (∃ f, op = some f ∧ s.tag vs1 = some k ∧
      unary op k rk vd vs1 s = .next ((s.setReg vd rk (f (s.bits vs1))).respond .ok 0)) := by
  unfold unary
  cases op with
  | none => exact .inl ⟨rfl, rfl⟩
  | some f =>
    by_cases h : s.tag vs1 = some k
    · exact .inr (.inr ⟨f, rfl, h, if_pos h⟩)
    · exact .inr (.inl ⟨f, rfl, h, if_neg h⟩)

/-- What the binary template answers. -/
theorem binary_cases (op : Option BinaryOp) (k rk : Kind) (vd vs1 vs2 : VIdx) (s : State) :
    (op = none ∧ binary op k rk vd vs1 vs2 s = .next (s.raise .illegalCommand)) ∨
    (∃ f, op = some f ∧ ¬(s.tag vs1 = some k ∧ s.tag vs2 = some k) ∧
      binary op k rk vd vs1 vs2 s = .next (s.raise .typeKind)) ∨
    (∃ f, op = some f ∧ (s.tag vs1 = some k ∧ s.tag vs2 = some k) ∧
      binary op k rk vd vs1 vs2 s = .next ((s.setReg vd rk (f (s.bits vs1) (s.bits vs2))).respond .ok 0)) := by
  unfold binary
  cases op with
  | none => exact .inl ⟨rfl, rfl⟩
  | some f =>
    by_cases h : s.tag vs1 = some k ∧ s.tag vs2 = some k
    · exact .inr (.inr ⟨f, rfl, h, if_pos h⟩)
    · exact .inr (.inl ⟨f, rfl, h, if_neg h⟩)

theorem unary_of_tag {op : Option UnaryOp} {f : UnaryOp} {k : Kind} (rk : Kind) (vd : VIdx) {vs1 : VIdx} {s : State}
    (hop : op = some f) (h : s.tag vs1 = some k) :
    unary op k rk vd vs1 s = .next ((s.setReg vd rk (f (s.bits vs1))).respond .ok 0) := by
  subst hop; simp [unary, h]

theorem binary_of_tag {op : Option BinaryOp} {f : BinaryOp} {k : Kind} (rk : Kind) (vd : VIdx) {vs1 vs2 : VIdx}
    {s : State} (hop : op = some f) (h1 : s.tag vs1 = some k) (h2 : s.tag vs2 = some k) :
    binary op k rk vd vs1 vs2 s = .next ((s.setReg vd rk (f (s.bits vs1) (s.bits vs2))).respond .ok 0) := by
  subst hop; simp [binary, h1, h2]

/-! ## Buffers -/

/-- Where an access that passes the validation goes. -/
theorem validate_ok {b : Buffer} {req : Nat} {a : Word} (h : validate b req = .ok a) :
    ∃ ew, elementWidth b.bkind = some ew ∧ isInt32 b.index = true ∧ 0 ≤ b.index.toInt ∧
      b.index.toInt * ew + req ≤ b.byteLength.toNat ∧ a = bufferAddress b ew := by
  unfold validate at h
  split at h
  · cases h
  · next ew hew =>
    split at h
    · cases h
    · next h1 =>
      split at h
      · cases h
      · next h2 =>
        split at h
        · cases h
        · next h3 =>
          exact ⟨ew, hew, by simpa using h1, by omega, by omega, (Except.ok.inj h).symm⟩

/-- An access that fails the validation is a TypeKind or a Bounds error. -/
theorem validate_error {b : Buffer} {req : Nat} {e : Error} (h : validate b req = .error e) :
    e = .typeKind ∨ e = .bounds := by
  unfold validate at h
  repeat' split at h
  all_goals first
    | cases h; exact .inl rfl
    | cases h; exact .inr rfl
    | cases h

/-- What a LOAD answers. -/
theorem loadLanes_cases (aux : Nat) (k : Kind) (vd : VIdx) (b : Buffer) (s : State) :
    (lanesMoved k aux = none ∧ loadLanes aux k vd b s = .next (s.raise .illegalCommand)) ∨
    (∃ cnt e, lanesMoved k aux = some cnt ∧ validate b (requiredBytes k cnt) = .error e ∧
      loadLanes aux k vd b s = .next (s.raise e)) ∨
    (∃ cnt a, lanesMoved k aux = some cnt ∧ validate b (requiredBytes k cnt) = .ok a ∧
      loadLanes aux k vd b s = .next (((s.setScratch (memRead s.mem a (requiredBytes k cnt))).setReg vd k
        (memRead s.mem a (requiredBytes k cnt))).respond .ok 0)) := by
  unfold loadLanes
  cases hc : lanesMoved k aux with
  | none => exact .inl ⟨rfl, rfl⟩
  | some cnt =>
    cases hv : validate b (requiredBytes k cnt) with
    | error e => exact .inr (.inl ⟨cnt, e, rfl, hv, by simp [hv]⟩)
    | ok a => exact .inr (.inr ⟨cnt, a, rfl, hv, by simp [hv]⟩)

/-- What a STORE answers. -/
theorem storeLanes_cases (aux : Nat) (k : Kind) (vs1 : VIdx) (b : Buffer) (s : State) :
    (lanesMoved k aux = none ∧ storeLanes aux k vs1 b s = .next (s.raise .illegalCommand)) ∨
    (∃ cnt, lanesMoved k aux = some cnt ∧ s.tag vs1 ≠ some k ∧
      storeLanes aux k vs1 b s = .next (s.raise .typeKind)) ∨
    (∃ cnt e, lanesMoved k aux = some cnt ∧ s.tag vs1 = some k ∧ validate b (requiredBytes k cnt) = .error e ∧
      storeLanes aux k vs1 b s = .next (s.raise e)) ∨
    (∃ cnt a, lanesMoved k aux = some cnt ∧ s.tag vs1 = some k ∧ validate b (requiredBytes k cnt) = .ok a ∧
      storeLanes aux k vs1 b s =
        .next (((s.setScratch (s.bits vs1)).storeScratch a (requiredBytes k cnt)).respond .ok 0)) := by
  unfold storeLanes
  cases hc : lanesMoved k aux with
  | none => exact .inl ⟨rfl, rfl⟩
  | some cnt =>
    by_cases ht : s.tag vs1 = some k
    · cases hv : validate b (requiredBytes k cnt) with
      | error e => exact .inr (.inr (.inl ⟨cnt, e, rfl, ht, hv, by simp [ht, hv]⟩))
      | ok a => exact .inr (.inr (.inr ⟨cnt, a, rfl, ht, hv, by simp [ht, hv]⟩))
    · exact .inr (.inl ⟨cnt, rfl, ht, by simp [ht]⟩)

/-! ## All that a command can do -/

/-- The ways in which a command can end. -/
inductive Ending (i : Instr) (s : State) : State → Prop where
  /-- With an error. -/
  | failed (e : Error) : Ending i s (s.raise e)
  /-- With a scalar result, or with none (CHECK, EXTRACT, SAD). -/
  | answered (xd : Word) (hd : i.dest = none) (hx : i.hasScalarResult = false → xd = 0) :
      Ending i s (s.respond .ok xd)
  /-- With a register written. -/
  | wrote (vd : VIdx) (k : Kind) (b : Payload) (hd : i.dest = some vd) : Ending i s ((s.setReg vd k b).respond .ok 0)
  /-- With a register written through SCRATCH (BCAST and the LOAD commands). -/
  | staged (vd : VIdx) (k : Kind) (b : Payload) (hd : i.dest = some vd) (hu : i.usesScratch = true) :
      Ending i s (((s.setScratch b).setReg vd k b).respond .ok 0)
  /-- With bytes stored through SCRATCH (the STORE commands). -/
  | stored (b : Payload) (a : Word) (n : Nat) (hd : i.dest = none) (hs : i.isStore = true) :
      Ending i s (((s.setScratch b).storeScratch a n).respond .ok 0)

theorem unary_ending {i : Instr} (op : Option UnaryOp) (k rk : Kind) (vd vs1 : VIdx) (s : State)
    (hd : i.dest = some vd) : ∃ t, unary op k rk vd vs1 s = .next t ∧ Ending i s t := by
  rcases unary_cases op k rk vd vs1 s with ⟨-, h⟩ | ⟨f, -, -, h⟩ | ⟨f, -, -, h⟩
  · exact ⟨_, h, .failed _⟩
  · exact ⟨_, h, .failed _⟩
  · exact ⟨_, h, .wrote _ _ _ hd⟩

theorem binary_ending {i : Instr} (op : Option BinaryOp) (k rk : Kind) (vd vs1 vs2 : VIdx) (s : State)
    (hd : i.dest = some vd) : ∃ t, binary op k rk vd vs1 vs2 s = .next t ∧ Ending i s t := by
  rcases binary_cases op k rk vd vs1 vs2 s with ⟨-, h⟩ | ⟨f, -, -, h⟩ | ⟨f, -, -, h⟩
  · exact ⟨_, h, .failed _⟩
  · exact ⟨_, h, .failed _⟩
  · exact ⟨_, h, .wrote _ _ _ hd⟩

theorem loadLanes_ending {i : Instr} (aux : Nat) (k : Kind) (vd : VIdx) (b : Buffer) (s : State)
    (hd : i.dest = some vd) (hu : i.usesScratch = true) : ∃ t, loadLanes aux k vd b s = .next t ∧ Ending i s t := by
  rcases loadLanes_cases aux k vd b s with ⟨-, h⟩ | ⟨cnt, e, -, -, h⟩ | ⟨cnt, a, -, -, h⟩
  · exact ⟨_, h, .failed _⟩
  · exact ⟨_, h, .failed _⟩
  · exact ⟨_, h, .staged _ _ _ hd hu⟩

theorem storeLanes_ending {i : Instr} (aux : Nat) (k : Kind) (vs1 : VIdx) (b : Buffer) (s : State)
    (hd : i.dest = none) (hs : i.isStore = true) : ∃ t, storeLanes aux k vs1 b s = .next t ∧ Ending i s t := by
  rcases storeLanes_cases aux k vs1 b s with ⟨-, h⟩ | ⟨cnt, -, -, h⟩ | ⟨cnt, e, -, -, -, h⟩ | ⟨cnt, a, -, -, -, h⟩
  · exact ⟨_, h, .failed _⟩
  · exact ⟨_, h, .failed _⟩
  · exact ⟨_, h, .failed _⟩
  · exact ⟨_, h, .stored _ _ _ hd hs⟩

/-- Every command ends, in one of the ways of `Ending`. -/
theorem exec_ending (i : Instr) (s : State) : ∃ t, exec i s = .next t ∧ Ending i s t := by
  cases i with
  | check k vs1 =>
    show ∃ t, execCheck k vs1 s = .next t ∧ _
    unfold execCheck
    split
    · exact ⟨_, rfl, .answered _ rfl (fun _ => rfl)⟩
    · exact ⟨_, rfl, .failed _⟩
  | extract k vs1 x =>
    show ∃ t, execExtract k vs1 x s = .next t ∧ _
    unfold execExtract
    repeat' split
    · exact ⟨_, rfl, .answered _ rfl (by simp [Instr.hasScalarResult])⟩
    · exact ⟨_, rfl, .failed _⟩
    · exact ⟨_, rfl, .failed _⟩
  | replace k vd vs1 x y =>
    show ∃ t, execReplace k vd vs1 x y s = .next t ∧ _
    unfold execReplace
    repeat' split
    · exact ⟨_, rfl, .wrote _ _ _ rfl⟩
    · exact ⟨_, rfl, .failed _⟩
    · exact ⟨_, rfl, .failed _⟩
  | splat k vd x => exact ⟨_, rfl, .wrote _ _ _ rfl⟩
  | cons k vd argc x =>
    show ∃ t, execCons k vd argc x s = .next t ∧ _
    unfold execCons
    split
    · exact ⟨_, rfl, .wrote _ _ _ rfl⟩
    · exact ⟨_, rfl, .failed _⟩
  | add k vd a b => exact binary_ending _ _ _ _ _ _ _ rfl
  | sub k vd a b => exact binary_ending _ _ _ _ _ _ _ rfl
  | mul k vd a b => exact binary_ending _ _ _ _ _ _ _ rfl
  | div k vd a b => exact binary_ending _ _ _ _ _ _ _ rfl
  | neg k vd a => exact unary_ending _ _ _ _ _ _ rfl
  | abs k vd a => exact unary_ending _ _ _ _ _ _ rfl
  | sqrt k vd a => exact unary_ending _ _ _ _ _ _ rfl
  | rcpa k vd a => exact unary_ending _ _ _ _ _ _ rfl
  | min k vd a b => exact binary_ending _ _ _ _ _ _ _ rfl
  | max k vd a b => exact binary_ending _ _ _ _ _ _ _ rfl
  | minnum k vd a b => exact binary_ending _ _ _ _ _ _ _ rfl
  | maxnum k vd a b => exact binary_ending _ _ _ _ _ _ _ rfl
  | eq k vd a b => exact binary_ending _ _ _ _ _ _ _ rfl
  | ne k vd a b => exact binary_ending _ _ _ _ _ _ _ rfl
  | lt k vd a b => exact binary_ending _ _ _ _ _ _ _ rfl
  | le k vd a b => exact binary_ending _ _ _ _ _ _ _ rfl
  | gt k vd a b => exact binary_ending _ _ _ _ _ _ _ rfl
  | ge k vd a b => exact binary_ending _ _ _ _ _ _ _ rfl
  | and k vd a b => exact binary_ending _ _ _ _ _ _ _ rfl
  | or k vd a b => exact binary_ending _ _ _ _ _ _ _ rfl
  | xor k vd a b => exact binary_ending _ _ _ _ _ _ _ rfl
  | not k vd a => exact unary_ending _ _ _ _ _ _ rfl
  | sel k vd m t f =>
    show ∃ u, execSel k vd m t f s = .next u ∧ _
    cases k
    all_goals
      unfold execSel
      dsimp only
      repeat' split
      all_goals first
        | exact ⟨_, rfl, .failed _⟩
        | exact ⟨_, rfl, .wrote _ _ _ rfl⟩
  | selb k vd m t f =>
    show ∃ u, execSelb k vd m t f s = .next u ∧ _
    cases k
    all_goals
      unfold execSelb
      dsimp only
      repeat' split
      all_goals first
        | exact ⟨_, rfl, .failed _⟩
        | exact ⟨_, rfl, .wrote _ _ _ rfl⟩
  | shl k vd a x => exact unary_ending _ _ _ _ _ _ rfl
  | shrl k vd a x => exact unary_ending _ _ _ _ _ _ rfl
  | shra k vd a x => exact unary_ending _ _ _ _ _ _ rfl
  | adds k vd a b => exact binary_ending _ _ _ _ _ _ _ rfl
  | subs k vd a b => exact binary_ending _ _ _ _ _ _ _ rfl
  | sad k a b =>
    show ∃ u, execSad k a b s = .next u ∧ _
    cases k
    all_goals
      unfold execSad
      dsimp only
      repeat' split
      all_goals first
        | exact ⟨_, rfl, .failed _⟩
        | exact ⟨_, rfl, .answered _ rfl (by simp [Instr.hasScalarResult])⟩
  | fromf k vd a =>
    show ∃ u, execFromf k vd a s = .next u ∧ _
    cases k
    all_goals
      unfold execFromf
      dsimp only
      repeat' split
      all_goals first
        | exact ⟨_, rfl, .failed _⟩
        | exact ⟨_, rfl, .wrote _ _ _ rfl⟩
  | swz k vd a x =>
    show ∃ u, execSwz k vd a x s = .next u ∧ _
    cases k
    all_goals
      unfold execSwz
      dsimp only
      repeat' split
      all_goals first
        | exact ⟨_, rfl, .failed _⟩
        | exact ⟨_, rfl, .wrote _ _ _ rfl⟩
  | shuf k vd a b x =>
    show ∃ u, execShuf k vd a b x s = .next u ∧ _
    cases k
    all_goals
      unfold execShuf
      dsimp only
      repeat' split
      all_goals first
        | exact ⟨_, rfl, .failed _⟩
        | exact ⟨_, rfl, .wrote _ _ _ rfl⟩
  | bcast k t vd a =>
    show ∃ u, execBcast k t vd a s = .next u ∧ _
    unfold execBcast
    repeat' split
    · exact ⟨_, rfl, .staged _ _ _ rfl rfl⟩
    · exact ⟨_, rfl, .failed _⟩
    · exact ⟨_, rfl, .failed _⟩
  | load k vd b => exact loadLanes_ending _ _ _ _ _ rfl rfl
  | load1 k vd b => exact loadLanes_ending _ _ _ _ _ rfl rfl
  | load2 k vd b => exact loadLanes_ending _ _ _ _ _ rfl rfl
  | load3 k vd b => exact loadLanes_ending _ _ _ _ _ rfl rfl
  | store k a b => exact storeLanes_ending _ _ _ _ _ rfl rfl
  | store1 k a b => exact storeLanes_ending _ _ _ _ _ rfl rfl
  | store2 k a b => exact storeLanes_ending _ _ _ _ _ rfl rfl
  | store3 k a b => exact storeLanes_ending _ _ _ _ _ rfl rfl

end Sys2Proof.Machine
end

