-- ==== Sys2Proof/Laws/PerInstr.lean ====
section
/-! SUPPORT. Statements about every instruction as syntax, one lemma per constructor. -/

namespace Sys2Proof.Laws

/-! ## OpcodeByte: the encoding carries the op byte of the instruction's row of 30_encoding.md R64 -/

/-- The op byte of the encoding is that of the row's `match`. -/
def OpcodeByte.Statement (i : Instr) : Prop := opField (encode i).insn = opField i.row.matchBits

theorem OpcodeByte.check (k : Kind) (vs1 : VIdx) : OpcodeByte.Statement (.check k vs1) :=
  (opField_wordR ..).trans rfl
theorem OpcodeByte.extract (k : Kind) (vs1 : VIdx) (index : Word) : OpcodeByte.Statement (.extract k vs1 index) :=
  (opField_wordR ..).trans rfl
theorem OpcodeByte.replace (k : Kind) (vd vs1 : VIdx) (index scalar : Word) :
    OpcodeByte.Statement (.replace k vd vs1 index scalar) :=
  (opField_wordR ..).trans rfl
theorem OpcodeByte.splat (k : Kind) (vd : VIdx) (scalar : Word) : OpcodeByte.Statement (.splat k vd scalar) :=
  (opField_wordR ..).trans rfl
theorem OpcodeByte.cons (k : Kind) (vd : VIdx) (argc : Fin 32) (x : Operands) :
    OpcodeByte.Statement (.cons k vd argc x) :=
  (opField_wordC ..).trans rfl
theorem OpcodeByte.add (k : Kind) (vd vs1 vs2 : VIdx) : OpcodeByte.Statement (.add k vd vs1 vs2) :=
  (opField_wordR ..).trans rfl
theorem OpcodeByte.sub (k : Kind) (vd vs1 vs2 : VIdx) : OpcodeByte.Statement (.sub k vd vs1 vs2) :=
  (opField_wordR ..).trans rfl
theorem OpcodeByte.mul (k : Kind) (vd vs1 vs2 : VIdx) : OpcodeByte.Statement (.mul k vd vs1 vs2) :=
  (opField_wordR ..).trans rfl
theorem OpcodeByte.div (k : Kind) (vd vs1 vs2 : VIdx) : OpcodeByte.Statement (.div k vd vs1 vs2) :=
  (opField_wordR ..).trans rfl
theorem OpcodeByte.neg (k : Kind) (vd vs1 : VIdx) : OpcodeByte.Statement (.neg k vd vs1) :=
  (opField_wordR ..).trans rfl
theorem OpcodeByte.abs (k : Kind) (vd vs1 : VIdx) : OpcodeByte.Statement (.abs k vd vs1) :=
  (opField_wordR ..).trans rfl
theorem OpcodeByte.sqrt (k : Kind) (vd vs1 : VIdx) : OpcodeByte.Statement (.sqrt k vd vs1) :=
  (opField_wordR ..).trans rfl
theorem OpcodeByte.rcpa (k : Kind) (vd vs1 : VIdx) : OpcodeByte.Statement (.rcpa k vd vs1) :=
  (opField_wordR ..).trans rfl
theorem OpcodeByte.min (k : Kind) (vd vs1 vs2 : VIdx) : OpcodeByte.Statement (.min k vd vs1 vs2) :=
  (opField_wordR ..).trans rfl
theorem OpcodeByte.max (k : Kind) (vd vs1 vs2 : VIdx) : OpcodeByte.Statement (.max k vd vs1 vs2) :=
  (opField_wordR ..).trans rfl
theorem OpcodeByte.minnum (k : Kind) (vd vs1 vs2 : VIdx) : OpcodeByte.Statement (.minnum k vd vs1 vs2) :=
  (opField_wordR ..).trans rfl
theorem OpcodeByte.maxnum (k : Kind) (vd vs1 vs2 : VIdx) : OpcodeByte.Statement (.maxnum k vd vs1 vs2) :=
  (opField_wordR ..).trans rfl
theorem OpcodeByte.eq (k : Kind) (vd vs1 vs2 : VIdx) : OpcodeByte.Statement (.eq k vd vs1 vs2) :=
  (opField_wordR ..).trans rfl
theorem OpcodeByte.ne (k : Kind) (vd vs1 vs2 : VIdx) : OpcodeByte.Statement (.ne k vd vs1 vs2) :=
  (opField_wordR ..).trans rfl
theorem OpcodeByte.lt (k : Kind) (vd vs1 vs2 : VIdx) : OpcodeByte.Statement (.lt k vd vs1 vs2) :=
  (opField_wordR ..).trans rfl
theorem OpcodeByte.le (k : Kind) (vd vs1 vs2 : VIdx) : OpcodeByte.Statement (.le k vd vs1 vs2) :=
  (opField_wordR ..).trans rfl
theorem OpcodeByte.gt (k : Kind) (vd vs1 vs2 : VIdx) : OpcodeByte.Statement (.gt k vd vs1 vs2) :=
  (opField_wordR ..).trans rfl
theorem OpcodeByte.ge (k : Kind) (vd vs1 vs2 : VIdx) : OpcodeByte.Statement (.ge k vd vs1 vs2) :=
  (opField_wordR ..).trans rfl
theorem OpcodeByte.and (k : Kind) (vd vs1 vs2 : VIdx) : OpcodeByte.Statement (.and k vd vs1 vs2) :=
  (opField_wordR ..).trans rfl
theorem OpcodeByte.or (k : Kind) (vd vs1 vs2 : VIdx) : OpcodeByte.Statement (.or k vd vs1 vs2) :=
  (opField_wordR ..).trans rfl
theorem OpcodeByte.xor (k : Kind) (vd vs1 vs2 : VIdx) : OpcodeByte.Statement (.xor k vd vs1 vs2) :=
  (opField_wordR ..).trans rfl
theorem OpcodeByte.not (k : Kind) (vd vs1 : VIdx) : OpcodeByte.Statement (.not k vd vs1) :=
  (opField_wordR ..).trans rfl
theorem OpcodeByte.sel (k : Kind) (vd vs1 vs2 vs3 : VIdx) : OpcodeByte.Statement (.sel k vd vs1 vs2 vs3) :=
  (opField_wordR ..).trans rfl
theorem OpcodeByte.selb (k : Kind) (vd vs1 vs2 vs3 : VIdx) : OpcodeByte.Statement (.selb k vd vs1 vs2 vs3) :=
  (opField_wordR ..).trans rfl
theorem OpcodeByte.shl (k : Kind) (vd vs1 : VIdx) (count : Word) : OpcodeByte.Statement (.shl k vd vs1 count) :=
  (opField_wordR ..).trans rfl
theorem OpcodeByte.shrl (k : Kind) (vd vs1 : VIdx) (count : Word) : OpcodeByte.Statement (.shrl k vd vs1 count) :=
  (opField_wordR ..).trans rfl
theorem OpcodeByte.shra (k : Kind) (vd vs1 : VIdx) (count : Word) : OpcodeByte.Statement (.shra k vd vs1 count) :=
  (opField_wordR ..).trans rfl
theorem OpcodeByte.adds (k : Kind) (vd vs1 vs2 : VIdx) : OpcodeByte.Statement (.adds k vd vs1 vs2) :=
  (opField_wordR ..).trans rfl
theorem OpcodeByte.subs (k : Kind) (vd vs1 vs2 : VIdx) : OpcodeByte.Statement (.subs k vd vs1 vs2) :=
  (opField_wordR ..).trans rfl
theorem OpcodeByte.sad (k : Kind) (vs1 vs2 : VIdx) : OpcodeByte.Statement (.sad k vs1 vs2) :=
  (opField_wordR ..).trans rfl
theorem OpcodeByte.fromf (k : Kind) (vd vs1 : VIdx) : OpcodeByte.Statement (.fromf k vd vs1) :=
  (opField_wordR ..).trans rfl
theorem OpcodeByte.swz (k : Kind) (vd vs1 : VIdx) (x : Operands) : OpcodeByte.Statement (.swz k vd vs1 x) :=
  (opField_wordR ..).trans rfl
theorem OpcodeByte.shuf (k : Kind) (vd vs1 vs2 : VIdx) (x : Operands) : OpcodeByte.Statement (.shuf k vd vs1 vs2 x) :=
  (opField_wordR ..).trans rfl
theorem OpcodeByte.bcast (k target : Kind) (vd vs1 : VIdx) : OpcodeByte.Statement (.bcast k target vd vs1) :=
  (opField_wordR ..).trans rfl
theorem OpcodeByte.load (k : Kind) (vd : VIdx) (buf : Buffer) : OpcodeByte.Statement (.load k vd buf) :=
  (opField_wordR ..).trans rfl
theorem OpcodeByte.load1 (k : Kind) (vd : VIdx) (buf : Buffer) : OpcodeByte.Statement (.load1 k vd buf) :=
  (opField_wordR ..).trans (by decide : 0x50#8 = opField 0x10000050#32)
theorem OpcodeByte.load2 (k : Kind) (vd : VIdx) (buf : Buffer) : OpcodeByte.Statement (.load2 k vd buf) :=
  (opField_wordR ..).trans (by decide : 0x50#8 = opField 0x20000050#32)
theorem OpcodeByte.load3 (k : Kind) (vd : VIdx) (buf : Buffer) : OpcodeByte.Statement (.load3 k vd buf) :=
  (opField_wordR ..).trans (by decide : 0x50#8 = opField 0x30000050#32)
theorem OpcodeByte.store (k : Kind) (vs1 : VIdx) (buf : Buffer) : OpcodeByte.Statement (.store k vs1 buf) :=
  (opField_wordR ..).trans rfl
theorem OpcodeByte.store1 (k : Kind) (vs1 : VIdx) (buf : Buffer) : OpcodeByte.Statement (.store1 k vs1 buf) :=
  (opField_wordR ..).trans (by decide : 0x51#8 = opField 0x10000051#32)
theorem OpcodeByte.store2 (k : Kind) (vs1 : VIdx) (buf : Buffer) : OpcodeByte.Statement (.store2 k vs1 buf) :=
  (opField_wordR ..).trans (by decide : 0x51#8 = opField 0x20000051#32)
theorem OpcodeByte.store3 (k : Kind) (vs1 : VIdx) (buf : Buffer) : OpcodeByte.Statement (.store3 k vs1 buf) :=
  (opField_wordR ..).trans (by decide : 0x51#8 = opField 0x30000051#32)

end Sys2Proof.Laws
end

