-- ==== Sys2Proof/Tests/Slice0.lean ====
section
/-! SUPPORT. Tests: ill-formed terms that WellFormed refuses, the decoding of words written out from 30_encoding.md, one
step of every command with the expected value from the examples of spec/, and for each statement with hypotheses a
witness that meets them. -/

-- One after another: the many small evaluations would otherwise each take a thread of their own.
set_option Elab.async false

namespace Sys2Proof.Tests

open Sys2Proof.Machine

/-! ## Helpers -/

/-- The reset state with registers written. -/
def regsAt (l : List (VIdx × Kind × Payload)) : State := l.foldl (fun s p => s.setReg p.1 p.2.1 p.2.2) State.reset

/-- The state with memory bytes from an address on. -/
def bytesAt (a : Word) (l : List Byte) (s : State) : State :=
  (l.foldl (fun (p : Word × State) b => (p.1 + 1, p.2.writeByte p.1 b)) (a, s)).2

/-- The register r in the next state. -/
def regOf (r : VIdx) : Result → Option VReg
  | .next t => some (t.reg r)
  | .fault _ | .refused _ => none

/-- The responses in the next state. -/
def rspOf : Result → List Response
  | .next t => t.responses
  | .fault _ | .refused _ => []

/-- The bytes at addresses in the next state. -/
def memOf (l : List Nat) : Result → List Byte
  | .next t => l.map (Memory.read t.mem)
  | .fault _ | .refused _ => []

/-- Operand words from a list, zeros beyond. -/
def wordsOf (l : List Word) : Operands := Vector.ofFn fun j => l.getD j.val 0

/-! ## WellFormed refuses (30_encoding.md R66, R76) -/

theorem test_wf_refuses_cons_argc_above_lanes : Instr.wellFormed (.cons .f64x2 0 3 words0) = false := by decide
theorem test_wf_refuses_cons_argc_17 : Instr.wellFormed (.cons .i8x16 0 17 words0) = false := by decide
theorem test_wf_refuses_add_bool : Instr.wellFormed (.add .b4 0 1 2) = false := by decide
theorem test_wf_refuses_sub_bool : Instr.wellFormed (.sub .b2 0 1 2) = false := by decide
theorem test_wf_refuses_mul_bool : Instr.wellFormed (.mul .b8 0 1 2) = false := by decide
theorem test_wf_refuses_neg_bool : Instr.wellFormed (.neg .b16 0 1) = false := by decide
theorem test_wf_refuses_abs_bool : Instr.wellFormed (.abs .b4 0 1) = false := by decide
theorem test_wf_refuses_div_int : Instr.wellFormed (.div .i32x4 0 1 2) = false := by decide
theorem test_wf_refuses_sqrt_int : Instr.wellFormed (.sqrt .i8x16 0 1) = false := by decide
theorem test_wf_refuses_rcpa_bool : Instr.wellFormed (.rcpa .b4 0 1) = false := by decide
theorem test_wf_refuses_min_bool : Instr.wellFormed (.min .b4 0 1 2) = false := by decide
theorem test_wf_refuses_max_bool : Instr.wellFormed (.max .b2 0 1 2) = false := by decide
theorem test_wf_refuses_minnum_int : Instr.wellFormed (.minnum .i32x4 0 1 2) = false := by decide
theorem test_wf_refuses_maxnum_int : Instr.wellFormed (.maxnum .i16x8 0 1 2) = false := by decide
theorem test_wf_refuses_eq_bool : Instr.wellFormed (.eq .b4 0 1 2) = false := by decide
theorem test_wf_refuses_ne_bool : Instr.wellFormed (.ne .b4 0 1 2) = false := by decide
theorem test_wf_refuses_lt_bool : Instr.wellFormed (.lt .b8 0 1 2) = false := by decide
theorem test_wf_refuses_le_bool : Instr.wellFormed (.le .b8 0 1 2) = false := by decide
theorem test_wf_refuses_gt_bool : Instr.wellFormed (.gt .b2 0 1 2) = false := by decide
theorem test_wf_refuses_ge_bool : Instr.wellFormed (.ge .b16 0 1 2) = false := by decide
theorem test_wf_refuses_and_float : Instr.wellFormed (.and .f32x4 0 1 2) = false := by decide
theorem test_wf_refuses_or_float : Instr.wellFormed (.or .f64x2 0 1 2) = false := by decide
theorem test_wf_refuses_xor_float : Instr.wellFormed (.xor .f32x4 0 1 2) = false := by decide
theorem test_wf_refuses_not_float : Instr.wellFormed (.not .f32x4 0 1) = false := by decide
theorem test_wf_refuses_sel_bool : Instr.wellFormed (.sel .b4 0 1 2 3) = false := by decide
theorem test_wf_refuses_selb_float : Instr.wellFormed (.selb .f32x4 0 1 2 3) = false := by decide
theorem test_wf_refuses_selb_bool : Instr.wellFormed (.selb .b4 0 1 2 3) = false := by decide
theorem test_wf_refuses_shl_float : Instr.wellFormed (.shl .f32x4 0 1 0) = false := by decide
theorem test_wf_refuses_shrl_bool : Instr.wellFormed (.shrl .b4 0 1 0) = false := by decide
theorem test_wf_refuses_shra_float : Instr.wellFormed (.shra .f64x2 0 1 0) = false := by decide
theorem test_wf_refuses_adds_i32 : Instr.wellFormed (.adds .i32x4 0 1 2) = false := by decide
theorem test_wf_refuses_subs_i32 : Instr.wellFormed (.subs .i32x4 0 1 2) = false := by decide
theorem test_wf_refuses_sad_i16 : Instr.wellFormed (.sad .i16x8 0 1) = false := by decide
theorem test_wf_refuses_fromf_f32 : Instr.wellFormed (.fromf .f32x4 0 1) = false := by decide
theorem test_wf_refuses_swz_bool : Instr.wellFormed (.swz .b4 0 1 words0) = false := by decide
theorem test_wf_refuses_shuf_bool : Instr.wellFormed (.shuf .b4 0 1 2 words0) = false := by decide
theorem test_wf_refuses_bcast_bool_source : Instr.wellFormed (.bcast .b4 .i32x4 0 1) = false := by decide
theorem test_wf_refuses_bcast_bool_target : Instr.wellFormed (.bcast .i32x4 .b4 0 1) = false := by decide
theorem test_wf_refuses_load_bool : Instr.wellFormed (.load .b4 0 ⟨0, 0, 16, 3⟩) = false := by decide
theorem test_wf_refuses_load1_bool : Instr.wellFormed (.load1 .b2 0 ⟨0, 0, 16, 3⟩) = false := by decide
theorem test_wf_refuses_load2_f64 : Instr.wellFormed (.load2 .f64x2 0 ⟨0, 0, 16, 1⟩) = false := by decide
theorem test_wf_refuses_load3_f64 : Instr.wellFormed (.load3 .f64x2 0 ⟨0, 0, 16, 1⟩) = false := by decide
theorem test_wf_refuses_store_bool : Instr.wellFormed (.store .b4 0 ⟨0, 0, 16, 3⟩) = false := by decide
theorem test_wf_refuses_store1_bool : Instr.wellFormed (.store1 .b16 0 ⟨0, 0, 16, 3⟩) = false := by decide
theorem test_wf_refuses_store2_f64 : Instr.wellFormed (.store2 .f64x2 0 ⟨0, 0, 16, 1⟩) = false := by decide
theorem test_wf_refuses_store3_f64 : Instr.wellFormed (.store3 .f64x2 0 ⟨0, 0, 16, 1⟩) = false := by decide

/-! ## Decoding: words written out from the fields of 30_encoding.md R61 to R65 -/

theorem test_decode_check : decodeTableWord 32 0x00030301 = some (.check .i32x4 3) := by decide
theorem test_decode_extract : decodeTableWord 32 0x00030402 = some (.extract .i16x8 3 0) := by decide
theorem test_decode_replace : decodeTableWord 32 0x00021203 = some (.replace .f32x4 1 2 0 0) := by decide
theorem test_decode_splat : decodeTableWord 32 0x00001504 = some (.splat .i8x16 1 0) := by decide
theorem test_decode_cons : decodeTableWord 32 0x00021305 = some (.cons .i32x4 1 2 words0) := by decide
theorem test_decode_add : decodeTableWord 32 0x00210310 = some (.add .i32x4 0 1 2) := by decide
theorem test_decode_sub : decodeTableWord 32 0x00210511 = some (.sub .i8x16 0 1 2) := by decide
theorem test_decode_mul : decodeTableWord 32 0x00213312 = some (.mul .i32x4 3 1 2) := by decide
theorem test_decode_div : decodeTableWord 32 0x00210213 = some (.div .f32x4 0 1 2) := by decide
theorem test_decode_neg : decodeTableWord 32 0x00010514 = some (.neg .i8x16 0 1) := by decide
theorem test_decode_abs : decodeTableWord 32 0x00010515 = some (.abs .i8x16 0 1) := by decide
theorem test_decode_sqrt : decodeTableWord 32 0x00010216 = some (.sqrt .f32x4 0 1) := by decide
theorem test_decode_rcpa : decodeTableWord 32 0x00010217 = some (.rcpa .f32x4 0 1) := by decide
theorem test_decode_min : decodeTableWord 32 0x00210218 = some (.min .f32x4 0 1 2) := by decide
theorem test_decode_max : decodeTableWord 32 0x00210219 = some (.max .f32x4 0 1 2) := by decide
theorem test_decode_minnum : decodeTableWord 32 0x0021021A = some (.minnum .f32x4 0 1 2) := by decide
theorem test_decode_maxnum : decodeTableWord 32 0x0021021B = some (.maxnum .f32x4 0 1 2) := by decide
theorem test_decode_eq : decodeTableWord 32 0x00210220 = some (.eq .f32x4 0 1 2) := by decide
theorem test_decode_ne : decodeTableWord 32 0x00210321 = some (.ne .i32x4 0 1 2) := by decide
theorem test_decode_lt : decodeTableWord 32 0x00210322 = some (.lt .i32x4 0 1 2) := by decide
theorem test_decode_le : decodeTableWord 32 0x00210223 = some (.le .f32x4 0 1 2) := by decide
theorem test_decode_gt : decodeTableWord 32 0x00210324 = some (.gt .i32x4 0 1 2) := by decide
theorem test_decode_ge : decodeTableWord 32 0x00210325 = some (.ge .i32x4 0 1 2) := by decide
theorem test_decode_and : decodeTableWord 32 0x00210928 = some (.and .b4 0 1 2) := by decide
theorem test_decode_or : decodeTableWord 32 0x00210329 = some (.or .i32x4 0 1 2) := by decide
theorem test_decode_xor : decodeTableWord 32 0x0021092A = some (.xor .b4 0 1 2) := by decide
theorem test_decode_not : decodeTableWord 32 0x00010B2B = some (.not .b16 0 1) := by decide
theorem test_decode_sel : decodeTableWord 32 0x0321032C = some (.sel .i32x4 0 1 2 3) := by decide
theorem test_decode_selb : decodeTableWord 32 0x0321032D = some (.selb .i32x4 0 1 2 3) := by decide
theorem test_decode_shl : decodeTableWord 32 0x00010330 = some (.shl .i32x4 0 1 0) := by decide
theorem test_decode_shrl : decodeTableWord 32 0x00010431 = some (.shrl .i16x8 0 1 0) := by decide
theorem test_decode_shra : decodeTableWord 32 0x00010532 = some (.shra .i8x16 0 1 0) := by decide
theorem test_decode_adds : decodeTableWord 32 0x00210534 = some (.adds .i8x16 0 1 2) := by decide
theorem test_decode_subs : decodeTableWord 32 0x00210435 = some (.subs .i16x8 0 1 2) := by decide
theorem test_decode_sad : decodeTableWord 32 0x00210536 = some (.sad .i8x16 1 2) := by decide
theorem test_decode_fromf : decodeTableWord 32 0x00010338 = some (.fromf .i32x4 0 1) := by decide
theorem test_decode_swz : decodeTableWord 32 0x00010240 = some (.swz .f32x4 0 1 words0) := by decide
theorem test_decode_shuf : decodeTableWord 32 0x00210241 = some (.shuf .f32x4 0 1 2 words0) := by decide
theorem test_decode_bcast : decodeTableWord 32 0x50010348 = some (.bcast .i32x4 .i8x16 0 1) := by decide
theorem test_decode_load : decodeTableWord 32 0x00000350 = some (.load .i32x4 0 ⟨0, 0, 0, 0⟩) := by decide
theorem test_decode_load1 : decodeTableWord 32 0x10000450 = some (.load1 .i16x8 0 ⟨0, 0, 0, 0⟩) := by decide
theorem test_decode_load2 : decodeTableWord 32 0x20000250 = some (.load2 .f32x4 0 ⟨0, 0, 0, 0⟩) := by decide
theorem test_decode_load3 : decodeTableWord 32 0x30000250 = some (.load3 .f32x4 0 ⟨0, 0, 0, 0⟩) := by decide
theorem test_decode_store : decodeTableWord 32 0x00010251 = some (.store .f32x4 1 ⟨0, 0, 0, 0⟩) := by decide
theorem test_decode_store1 : decodeTableWord 32 0x10010551 = some (.store1 .i8x16 1 ⟨0, 0, 0, 0⟩) := by decide
theorem test_decode_store2 : decodeTableWord 32 0x20010351 = some (.store2 .i32x4 1 ⟨0, 0, 0, 0⟩) := by decide
theorem test_decode_store3 : decodeTableWord 32 0x30010451 = some (.store3 .i16x8 1 ⟨0, 0, 0, 0⟩) := by decide

/-- Operand words: X[0] .. X[3] of a LOAD are index, base, byteLength and bkind (30_encoding.md R67). -/
theorem test_decode_operand_words :
    decode ⟨0x00007250#32, wordsOf [1, 2, 3, 4, 5]⟩ = .ok (.load .f32x4 7 ⟨1, 2, 3, 4⟩) := rfl
/-- A highest register number in every field (30_encoding.md R61). -/
theorem test_decode_high_registers : decodeTableWord 32 0x0DEF532C = some (.sel .i32x4 5 15 14 13) := by decide

/-! ## Illegal words, one for each reason (30_encoding.md R70) -/

theorem test_illegal_op : decode ⟨0x00210306#32, words0⟩ = .error .unknownOp := rfl
theorem test_illegal_op_zero : decode ⟨0x00000000#32, words0⟩ = .error .unknownOp := rfl
theorem test_illegal_unused_field : decode ⟨0x01210310#32, words0⟩ = .error .unusedNonzero := rfl
theorem test_illegal_aux_of_add : decode ⟨0x10210310#32, words0⟩ = .error .unusedNonzero := rfl
theorem test_illegal_mbz_of_cons : decode ⟨0x00221305#32, words0⟩ = .error .unusedNonzero := rfl
theorem test_illegal_kind_zero : decode ⟨0x00210010#32, words0⟩ = .error .reservedKind := rfl
theorem test_illegal_kind_reserved : decode ⟨0x00210C10#32, words0⟩ = .error .reservedKind := rfl
theorem test_illegal_kind_for_div : decode ⟨0x00210313#32, words0⟩ = .error .illegalKind := rfl
theorem test_illegal_load2_f64 : decode ⟨0x20000150#32, words0⟩ = .error .illegalKind := rfl
theorem test_illegal_aux_of_load : decode ⟨0x40000350#32, words0⟩ = .error .illegalAux := rfl
theorem test_illegal_aux_of_bcast : decode ⟨0x90010348#32, words0⟩ = .error .illegalAux := rfl
theorem test_illegal_argc : decode ⟨0x00031105#32, words0⟩ = .error .illegalArgc := rfl

/-! ## One step of every command: the examples of spec/40 to spec/46 -/

/-- 40_lane_access.md R101 -/
theorem test_check_ok : rspOf (exec (.check .i32x4 3) (regsAt [(3, .i32x4, 0x7)])) = [⟨.ok, 0x0⟩] := by decide +kernel
/-- 40_lane_access.md R101 -/
theorem test_check_other_kind :
    rspOf (exec (.check .i32x4 3) (regsAt [(3, .f32x4, 0x7)])) = [⟨.typeKind, 0x0⟩] := by decide +kernel
/-- 40_lane_access.md R102 -/
theorem test_extract_i16 :
    rspOf (exec (.extract .i16x8 3 5) (regsAt [(3, .i16x8, 0x23452345234523452345234523452345)])) =
      [⟨.ok, 0x2345⟩] := by decide +kernel
/-- 40_lane_access.md R102: 2^32 is not a 32-bit integer -/
theorem test_extract_index_2_32 :
    rspOf (exec (.extract .i16x8 3 0x100000000) (regsAt [(3, .i16x8, 0x0)])) = [⟨.bounds, 0x0⟩] := by decide +kernel
/-- 40_lane_access.md R103 -/
theorem test_replace_f32 :
    regOf 1 (exec (.replace .f32x4 1 2 2 0x3FF8000000000000)
      (regsAt [(2, .f32x4, 0x4080000040400000400000003F800000)])) =
      some ⟨some .f32x4, 0x408000003FC00000400000003F800000⟩ := by decide +kernel
/-- 40_lane_access.md R104 -/
theorem test_splat_i8 :
    regOf 1 (exec (.splat .i8x16 1 0x7F) State.reset) =
      some ⟨some .i8x16, 0x7F7F7F7F7F7F7F7F7F7F7F7F7F7F7F7F⟩ := by decide +kernel
/-- 40_lane_access.md R104: 0.1 narrowed -/
theorem test_splat_f32_rounds :
    regOf 1 (exec (.splat .f32x4 1 0x3FB999999999999A) State.reset) =
      some ⟨some .f32x4, 0x3DCCCCCD3DCCCCCD3DCCCCCD3DCCCCCD⟩ := by decide +kernel
/-- 40_lane_access.md R105 -/
theorem test_cons_two_of_four :
    regOf 1 (exec (.cons .i32x4 1 2 (wordsOf [1, 2])) State.reset) =
      some ⟨some .i32x4, 0x200000001⟩ := by decide +kernel
/-- 40_lane_access.md R105 -/
theorem test_cons_none :
    regOf 5 (exec (.cons .f32x4 5 0 words0) State.reset) =
      some ⟨some .f32x4, 0x7FC000007FC000007FC000007FC00000⟩ := by decide +kernel
/-- 41_arithmetic.md R125 -/
theorem test_add_i32 :
    regOf 0 (exec (.add .i32x4 0 1 2)
      (regsAt [(1, .i32x4, 0x8000000000000005FFFFFFFF7FFFFFFF), (2, .i32x4, 0x80000000FFFFFFF90000000100000001)])) =
      some ⟨some .i32x4, 0xFFFFFFFE0000000080000000⟩ := by decide +kernel
/-- 41_arithmetic.md R125: 16777216.0 + 1.0, a tie, to even -/
theorem test_add_f32_tie :
    regOf 0 (exec (.add .f32x4 0 1 2) (regsAt [(1, .f32x4, 0x4B800000), (2, .f32x4, 0x3F800000)])) =
      some ⟨some .f32x4, 0x4B800000⟩ := by decide +kernel
/-- 41_arithmetic.md R126 -/
theorem test_sub_i8 :
    regOf 0 (exec (.sub .i8x16 0 1 2)
      (regsAt [(1, .i8x16, 0x80808080808080808080808080808080), (2, .i8x16, 0x1010101010101010101010101010101)])) =
      some ⟨some .i8x16, 0x7F7F7F7F7F7F7F7F7F7F7F7F7F7F7F7F⟩ := by decide +kernel
/-- 41_arithmetic.md R127 -/
theorem test_mul_i32 :
    regOf 3 (exec (.mul .i32x4 3 1 2)
      (regsAt [(1, .i32x4, 0x10000FFFFFFFE7FFFFFFF00010001), (2, .i32x4, 0x10000000000037FFFFFFF00010001)])) =
      some ⟨some .i32x4, 0xFFFFFFFA0000000100020001⟩ := by decide +kernel
/-- 41_arithmetic.md R128 -/
theorem test_div_f32 :
    regOf 0 (exec (.div .f32x4 0 1 2)
      (regsAt [(1, .f32x4, 0xBF8000003F800000000000003F800000), (2, .f32x4, 0x40400000)])) =
      some ⟨some .f32x4, 0xFF8000007F8000007FC000003EAAAAAB⟩ := by decide +kernel
/-- 41_arithmetic.md R129 -/
theorem test_neg_i8 :
    regOf 0 (exec (.neg .i8x16 0 1) (regsAt [(1, .i8x16, 0x80808080808080808080808080808080)])) =
      some ⟨some .i8x16, 0x80808080808080808080808080808080⟩ := by decide +kernel
/-- 41_arithmetic.md R130 -/
theorem test_abs_i8 :
    regOf 0 (exec (.abs .i8x16 0 1) (regsAt [(1, .i8x16, 0xFF7F8180)])) =
      some ⟨some .i8x16, 0x17F7F80⟩ := by decide +kernel
/-- 41_arithmetic.md R131 -/
theorem test_sqrt_f32 :
    regOf 0 (exec (.sqrt .f32x4 0 1) (regsAt [(1, .f32x4, 0x7F80000080000000BF80000040000000)])) =
      some ⟨some .f32x4, 0x7F800000800000007FC000003FB504F3⟩ := by decide +kernel
/-- 41_arithmetic.md R132 -/
theorem test_rcpa_f32 :
    regOf 0 (exec (.rcpa .f32x4 0 1) (regsAt [(1, .f32x4, 0x40400000800000000000000040800000)])) =
      some ⟨some .f32x4, 0x3EAAAAABFF8000007F8000003E800000⟩ := by decide +kernel
/-- 41_arithmetic.md R133 -/
theorem test_min_f32 :
    regOf 0 (exec (.min .f32x4 0 1 2)
      (regsAt [(1, .f32x4, 0x40A000007FC00000800000003F800000), (2, .f32x4, 0xFF8000003F8000000000000040000000)])) =
      some ⟨some .f32x4, 0xFF8000007FC00000800000003F800000⟩ := by decide +kernel
/-- 41_arithmetic.md R133: min(-128, 127) = -128 -/
theorem test_min_i8_signed :
    regOf 0 (exec (.min .i8x16 0 1 2) (regsAt [(1, .i8x16, 0x80), (2, .i8x16, 0x7F)])) =
      some ⟨some .i8x16, 0x80⟩ := by decide +kernel
/-- 41_arithmetic.md R134 -/
theorem test_max_f32 :
    regOf 0 (exec (.max .f32x4 0 1 2)
      (regsAt [(1, .f32x4, 0x40A000007FC00000800000003F800000), (2, .f32x4, 0xFF8000003F8000000000000040000000)])) =
      some ⟨some .f32x4, 0x40A000007FC000000000000040000000⟩ := by decide +kernel
/-- 41_arithmetic.md R135 -/
theorem test_minnum_f32 :
    regOf 0 (exec (.minnum .f32x4 0 1 2)
      (regsAt [(1, .f32x4, 0x40A000007FC00000800000003F800000), (2, .f32x4, 0xFF8000003F8000000000000040000000)])) =
      some ⟨some .f32x4, 0xFF8000003F800000800000003F800000⟩ := by decide +kernel
/-- 41_arithmetic.md R136 -/
theorem test_maxnum_f32 :
    regOf 0 (exec (.maxnum .f32x4 0 1 2)
      (regsAt [(1, .f32x4, 0x40A000007FC00000800000003F800000), (2, .f32x4, 0xFF8000003F8000000000000040000000)])) =
      some ⟨some .f32x4, 0x40A000003F8000000000000040000000⟩ := by decide +kernel
/-- 42_compare_logic_select.md R151 -/
theorem test_eq_f32 :
    regOf 0 (exec (.eq .f32x4 0 1 2)
      (regsAt [(1, .f32x4, 0x7F800000800000007FC000003F800000), (2, .f32x4, 0x7F800000000000007FC0000040000000)])) =
      some ⟨some .b4, 0xC⟩ := by decide +kernel
/-- 42_compare_logic_select.md R151 -/
theorem test_eq_i32 :
    regOf 0 (exec (.eq .i32x4 0 1 2)
      (regsAt [(1, .i32x4, 0x78000000000000005FFFFFFFF), (2, .i32x4, 0xFFFFFFF97FFFFFFF0000000500000001)])) =
      some ⟨some .b4, 0x2⟩ := by decide +kernel
/-- 42_compare_logic_select.md R152 -/
theorem test_ne_f32 :
    regOf 0 (exec (.ne .f32x4 0 1 2)
      (regsAt [(1, .f32x4, 0x7F800000800000007FC000003F800000), (2, .f32x4, 0x7F800000000000007FC0000040000000)])) =
      some ⟨some .b4, 0x3⟩ := by decide +kernel
/-- 42_compare_logic_select.md R152 -/
theorem test_ne_i32 :
    regOf 0 (exec (.ne .i32x4 0 1 2)
      (regsAt [(1, .i32x4, 0x78000000000000005FFFFFFFF), (2, .i32x4, 0xFFFFFFF97FFFFFFF0000000500000001)])) =
      some ⟨some .b4, 0xD⟩ := by decide +kernel
/-- 42_compare_logic_select.md R153 -/
theorem test_lt_f32 :
    regOf 0 (exec (.lt .f32x4 0 1 2)
      (regsAt [(1, .f32x4, 0x7F800000800000007FC000003F800000), (2, .f32x4, 0x7F800000000000007FC0000040000000)])) =
      some ⟨some .b4, 0x1⟩ := by decide +kernel
/-- 42_compare_logic_select.md R153 -/
theorem test_lt_i32 :
    regOf 0 (exec (.lt .i32x4 0 1 2)
      (regsAt [(1, .i32x4, 0x78000000000000005FFFFFFFF), (2, .i32x4, 0xFFFFFFF97FFFFFFF0000000500000001)])) =
      some ⟨some .b4, 0x5⟩ := by decide +kernel
/-- 42_compare_logic_select.md R154 -/
theorem test_le_f32 :
    regOf 0 (exec (.le .f32x4 0 1 2)
      (regsAt [(1, .f32x4, 0x7F800000800000007FC000003F800000), (2, .f32x4, 0x7F800000000000007FC0000040000000)])) =
      some ⟨some .b4, 0xD⟩ := by decide +kernel
/-- 42_compare_logic_select.md R154 -/
theorem test_le_i32 :
    regOf 0 (exec (.le .i32x4 0 1 2)
      (regsAt [(1, .i32x4, 0x78000000000000005FFFFFFFF), (2, .i32x4, 0xFFFFFFF97FFFFFFF0000000500000001)])) =
      some ⟨some .b4, 0x7⟩ := by decide +kernel
/-- 42_compare_logic_select.md R155 -/
theorem test_gt_f32 :
    regOf 0 (exec (.gt .f32x4 0 1 2)
      (regsAt [(1, .f32x4, 0x7F800000800000007FC000003F800000), (2, .f32x4, 0x7F800000000000007FC0000040000000)])) =
      some ⟨some .b4, 0x0⟩ := by decide +kernel
/-- 42_compare_logic_select.md R155 -/
theorem test_gt_i32 :
    regOf 0 (exec (.gt .i32x4 0 1 2)
      (regsAt [(1, .i32x4, 0x78000000000000005FFFFFFFF), (2, .i32x4, 0xFFFFFFF97FFFFFFF0000000500000001)])) =
      some ⟨some .b4, 0x8⟩ := by decide +kernel
/-- 42_compare_logic_select.md R156 -/
theorem test_ge_f32 :
    regOf 0 (exec (.ge .f32x4 0 1 2)
      (regsAt [(1, .f32x4, 0x7F800000800000007FC000003F800000), (2, .f32x4, 0x7F800000000000007FC0000040000000)])) =
      some ⟨some .b4, 0xC⟩ := by decide +kernel
/-- 42_compare_logic_select.md R156 -/
theorem test_ge_i32 :
    regOf 0 (exec (.ge .i32x4 0 1 2)
      (regsAt [(1, .i32x4, 0x78000000000000005FFFFFFFF), (2, .i32x4, 0xFFFFFFF97FFFFFFF0000000500000001)])) =
      some ⟨some .b4, 0xA⟩ := by decide +kernel
/-- 42_compare_logic_select.md R158 -/
theorem test_and_i32 :
    regOf 0 (exec (.and .i32x4 0 1 2)
      (regsAt [(1, .i32x4, 0xF0F0F0FFFFFFFFF00000000FF00FF00), (2, .i32x4, 0x123456789ABCDEF00FEDCBA987654321)])) =
      some ⟨some .i32x4, 0x20406089ABCDEF00000000087004300⟩ := by decide +kernel
/-- 42_compare_logic_select.md R158 -/
theorem test_and_b4 :
    regOf 0 (exec (.and .b4 0 1 2) (regsAt [(1, .b4, 0xC), (2, .b4, 0xA)])) =
      some ⟨some .b4, 0x8⟩ := by decide +kernel
/-- 42_compare_logic_select.md R159 -/
theorem test_or_i32 :
    regOf 0 (exec (.or .i32x4 0 1 2)
      (regsAt [(1, .i32x4, 0xF0F0F0FFFFFFFFF00000000FF00FF00), (2, .i32x4, 0x123456789ABCDEF00FEDCBA987654321)])) =
      some ⟨some .i32x4, 0x1F3F5F7FFFFFFFFF0FEDCBA9FF65FF21⟩ := by decide +kernel
/-- 42_compare_logic_select.md R160 -/
theorem test_xor_i32 :
    regOf 0 (exec (.xor .i32x4 0 1 2)
      (regsAt [(1, .i32x4, 0xF0F0F0FFFFFFFFF00000000FF00FF00), (2, .i32x4, 0x123456789ABCDEF00FEDCBA987654321)])) =
      some ⟨some .i32x4, 0x1D3B59776543210F0FEDCBA97865BC21⟩ := by decide +kernel
/-- 42_compare_logic_select.md R161 -/
theorem test_not_i32 :
    regOf 0 (exec (.not .i32x4 0 1) (regsAt [(1, .i32x4, 0xF0F0F0FFFFFFFFF00000000FF00FF00)])) =
      some ⟨some .i32x4, 0xF0F0F0F000000000FFFFFFFF00FF00FF⟩ := by decide +kernel
/-- 42_compare_logic_select.md R161: bits above the lanes stay 0 -/
theorem test_not_b4 :
    regOf 0 (exec (.not .b4 0 1) (regsAt [(1, .b4, 0xC)])) = some ⟨some .b4, 0x3⟩ := by decide +kernel
/-- 42_compare_logic_select.md R162 -/
theorem test_sel_i32 :
    regOf 0 (exec (.sel .i32x4 0 1 2 3)
      (regsAt [(1, .b4, 0x4), (2, .i32x4, 0x12345678AAAABBBB0000000200000001),
        (3, .i32x4, 0x9ABCDEF0CCCCDDDD0000000600000005)])) =
      some ⟨some .i32x4, 0x9ABCDEF0AAAABBBB0000000600000005⟩ := by decide +kernel
/-- 42_compare_logic_select.md R163 -/
theorem test_selb_i32 :
    regOf 0 (exec (.selb .i32x4 0 1 2 3)
      (regsAt [(1, .i32x4, 0xF0F0F0F00000FFFF00000000FFFFFFFF), (2, .i32x4, 0x12345678AAAABBBB0000000200000001),
        (3, .i32x4, 0x9ABCDEF0CCCCDDDD0000000600000005)])) =
      some ⟨some .i32x4, 0x1A3C5E70CCCCBBBB0000000600000001⟩ := by decide +kernel
/-- 43_shift_saturate_convert.md R181 -/
theorem test_shl_i32 :
    regOf 0 (exec (.shl .i32x4 0 1 4) (regsAt [(1, .i32x4, 0x12345678FFFFFFFF8000000000000001)])) =
      some ⟨some .i32x4, 0x23456780FFFFFFF00000000000000010⟩ := by decide +kernel
/-- 43_shift_saturate_convert.md R181 -/
theorem test_shl_i32_count_32 :
    regOf 0 (exec (.shl .i32x4 0 1 32) (regsAt [(1, .i32x4, 0x12345678FFFFFFFF8000000000000001)])) =
      some ⟨some .i32x4, 0x0⟩ := by decide +kernel
/-- 43_shift_saturate_convert.md R182 -/
theorem test_shrl_i16 :
    regOf 0 (exec (.shrl .i16x8 0 1 4) (regsAt [(1, .i16x8, 0xF00000FF00007FFF1234FFFF80000001)])) =
      some ⟨some .i16x8, 0xF00000F000007FF01230FFF08000000⟩ := by decide +kernel
/-- 43_shift_saturate_convert.md R182 -/
theorem test_shrl_i16_count_17 :
    regOf 0 (exec (.shrl .i16x8 0 1 17) (regsAt [(1, .i16x8, 0xF00000FF00007FFF1234FFFF80000001)])) =
      some ⟨some .i16x8, 0x0⟩ := by decide +kernel
/-- 43_shift_saturate_convert.md R183 -/
theorem test_shra_i8 :
    regOf 0 (exec (.shra .i8x16 0 1 1) (regsAt [(1, .i8x16, 0xF00F007F12FF8001F00F007F12FF8001)])) =
      some ⟨some .i8x16, 0xF807003F09FFC000F807003F09FFC000⟩ := by decide +kernel
/-- 43_shift_saturate_convert.md R183 -/
theorem test_shra_i32_count_32 :
    regOf 0 (exec (.shra .i32x4 0 1 32) (regsAt [(1, .i32x4, 0x12345678FFFFFFFF8000000000000001)])) =
      some ⟨some .i32x4, 0xFFFFFFFFFFFFFFFF00000000⟩ := by decide +kernel
/-- 43_shift_saturate_convert.md R185 -/
theorem test_adds_i8 :
    regOf 0 (exec (.adds .i8x16 0 1 2)
      (regsAt [(1, .i8x16, 0xFE01807FC0400000FF019C64807F807F), (2, .i8x16, 0x807F807FC0407F8001FF9C6401FFFF01)])) =
      some ⟨some .i8x16, 0x807F807F807F7F800000807F817E807F⟩ := by decide +kernel
/-- 43_shift_saturate_convert.md R186 -/
theorem test_subs_i8 :
    regOf 0 (exec (.subs .i8x16 0 1 2)
      (regsAt [(1, .i8x16, 0xFE01807FC0400000FF019C64807F807F), (2, .i8x16, 0x807F807FC0407F8001FF9C6401FFFF01)])) =
      some ⟨some .i8x16, 0x7E8200000000817FFE020000807F817E⟩ := by decide +kernel
/-- 43_shift_saturate_convert.md R186 -/
theorem test_subs_i16 :
    regOf 0 (exec (.subs .i16x8 0 1 2)
      (regsAt [(1, .i16x8, 0x80007FFF000000018AD0753080007FFF), (2, .i16x8, 0x7FFF80008000FFFF8AD07530FFFF0001)])) =
      some ⟨some .i16x8, 0x80007FFF7FFF00020000000080017FFE⟩ := by decide +kernel
/-- 43_shift_saturate_convert.md R187 -/
theorem test_sad_i8 :
    rspOf (exec (.sad .i8x16 1 2)
      (regsAt [(1, .i8x16, 0xA0000000000000000007F80FC030201), (2, .i8x16, 0xF6000000000000000000807F04010204)])) =
      [⟨.ok, 0x21F⟩] := by decide +kernel
/-- 43_shift_saturate_convert.md R188 -/
theorem test_fromf :
    regOf 0 (exec (.fromf .i32x4 0 1) (regsAt [(1, .f32x4, 0x4EFFFFFFCF000000BFF333333FF33333)])) =
      some ⟨some .i32x4, 0x7FFFFF8080000000FFFFFFFF00000001⟩ := by decide +kernel
/-- 43_shift_saturate_convert.md R188 -/
theorem test_fromf_2_31 :
    rspOf (exec (.fromf .i32x4 0 1) (regsAt [(1, .f32x4, 0x4F0000003F8000003F8000003F800000)])) =
      [⟨.conversionRange, 0x0⟩] := by decide +kernel
/-- 44_swizzle_shuffle.md R201 -/
theorem test_swz_f32 :
    regOf 0 (exec (.swz .f32x4 0 1 (wordsOf [3, 2, 1, 0]))
      (regsAt [(1, .f32x4, 0x4080000040400000400000003F800000)])) =
      some ⟨some .f32x4, 0x3F800000400000004040000040800000⟩ := by decide +kernel
/-- 44_swizzle_shuffle.md R201 -/
theorem test_swz_index_4 :
    rspOf (exec (.swz .f32x4 0 1 (wordsOf [0, 1, 2, 4])) (regsAt [(1, .f32x4, 0x4080000040400000400000003F800000)])) =
      [⟨.bounds, 0x0⟩] := by decide +kernel
/-- 44_swizzle_shuffle.md R202 -/
theorem test_shuf_f32 :
    regOf 0 (exec (.shuf .f32x4 0 1 2 (wordsOf [0, 4, 1, 5]))
      (regsAt [(1, .f32x4, 0x4080000040400000400000003F800000), (2, .f32x4, 0x4100000040E0000040C0000040A00000)])) =
      some ⟨some .f32x4, 0x40C000004000000040A000003F800000⟩ := by decide +kernel
/-- 44_swizzle_shuffle.md R202 -/
theorem test_shuf_index_2n :
    rspOf (exec (.shuf .f64x2 0 1 2 (wordsOf [4, 0])) (regsAt [(1, .f64x2, 0x1), (2, .f64x2, 0x2)])) =
      [⟨.bounds, 0x0⟩] := by decide +kernel
/-- 45_bitcast.md R210 -/
theorem test_bcast_f32_i32 :
    regOf 0 (exec (.bcast .f32x4 .i32x4 0 1) (regsAt [(1, .f32x4, 0x800000007FC00001C00000003F800000)])) =
      some ⟨some .i32x4, 0x800000007FC00001C00000003F800000⟩ := by decide +kernel
/-- The memory of 46_load_store.md R225: 1.0, 2.0, 3.0, 4.0 at 0x1000. -/
def floatsAt1000 : State :=
  bytesAt 0x1000 [0x00, 0x00, 0x80, 0x3F, 0x00, 0x00, 0x00, 0x40, 0x00, 0x00, 0x40, 0x40, 0x00, 0x00, 0x80, 0x40] State.reset

/-- 46_load_store.md R225 -/
theorem test_load_f32 :
    regOf 0 (exec (.load .f32x4 0 ⟨0, 0x1000, 16, 2⟩) floatsAt1000) =
      some ⟨some .f32x4, 0x4080000040400000400000003F800000⟩ := by decide +kernel
/-- 46_load_store.md R225 -/
theorem test_load_too_short :
    rspOf (exec (.load .i32x4 0 ⟨0, 0x1000, 12, 3⟩) floatsAt1000) = [⟨.bounds, 0x0⟩] := by decide +kernel
/-- 46_load_store.md R226 -/
theorem test_load1_f32 :
    regOf 0 (exec (.load1 .f32x4 0 ⟨3, 0x1000, 16, 2⟩) floatsAt1000) =
      some ⟨some .f32x4, 0x40800000⟩ := by decide +kernel
/-- 46_load_store.md R226 -/
theorem test_load1_i16_unaligned :
    regOf 0 (exec (.load1 .i16x8 0 ⟨3, 0x1000, 16, 5⟩) floatsAt1000) = some ⟨some .i16x8, 0x3F⟩ := by decide +kernel
/-- 46_load_store.md R227 -/
theorem test_load2_f32 :
    regOf 0 (exec (.load2 .f32x4 0 ⟨1, 0x1000, 16, 2⟩) floatsAt1000) =
      some ⟨some .f32x4, 0x4040000040000000⟩ := by decide +kernel
/-- 46_load_store.md R228 -/
theorem test_load3_f32 :
    regOf 0 (exec (.load3 .f32x4 0 ⟨1, 0x1000, 16, 2⟩) floatsAt1000) =
      some ⟨some .f32x4, 0x408000004040000040000000⟩ := by decide +kernel
/-- 46_load_store.md R228 -/
theorem test_load3_out_of_bounds :
    rspOf (exec (.load3 .f32x4 0 ⟨2, 0x1000, 16, 2⟩) floatsAt1000) = [⟨.bounds, 0x0⟩] := by decide +kernel
/-- 46_load_store.md R230 -/
theorem test_store_f32 :
    memOf [0x200C, 0x200D, 0x200E, 0x200F, 0x2010] (exec (.store .f32x4 1 ⟨0, 0x2000, 16, 2⟩)
      (regsAt [(1, .f32x4, 0x4080000040400000400000003F800000)])) =
      [0x00, 0x00, 0x80, 0x40, 0x00] := by decide +kernel
/-- 46_load_store.md R230 -/
theorem test_store_other_kind :
    rspOf (exec (.store .f32x4 1 ⟨0, 0x2000, 16, 2⟩) (regsAt [(1, .i32x4, 0x1)])) =
      [⟨.typeKind, 0x0⟩] := by decide +kernel
/-- 46_load_store.md R231 -/
theorem test_store1_i8_narrower_view :
    memOf [0x3004, 0x3005, 0x3006, 0x3007] (exec (.store1 .i8x16 1 ⟨1, 0x3000, 8, 3⟩) (bytesAt 0x3004 [1, 2, 3, 4]
      (regsAt [(1, .i8x16, 0xCDAB)]))) =
      [0xAB, 0x02, 0x03, 0x04] := by decide +kernel
/-- 46_load_store.md R232 -/
theorem test_store2_i32 :
    memOf [0x2007, 0x2008, 0x2009, 0x200A, 0x200B, 0x200C] (exec (.store2 .i32x4 1 ⟨2, 0x2000, 16, 3⟩)
      (regsAt [(1, .i32x4, 0x44444444333333332222222211111111)])) =
      [0x00, 0x11, 0x11, 0x11, 0x11, 0x22] := by decide +kernel
/-- 46_load_store.md R233 -/
theorem test_store3_i16 :
    memOf [0x200A, 0x200B, 0x200C, 0x200D, 0x200E, 0x200F, 0x2010] (exec (.store3 .i16x8 1 ⟨5, 0x2000, 16, 4⟩)
      (regsAt [(1, .i16x8, 0x708050603040102)])) =
      [0x02, 0x01, 0x04, 0x03, 0x06, 0x05, 0x00] := by decide +kernel
/-- 46_load_store.md R221: TypeKind wins over Bounds -/
theorem test_store_empty_beats_bounds :
    rspOf (exec (.store .i32x4 1 ⟨0, 0x2000, 0, 3⟩) State.reset) = [⟨.typeKind, 0x0⟩] := by decide +kernel

/-! ## Steps -/

/-- 70_reset_and_hazards.md R281: after reset a first command that reads a register raises TypeKind. -/
theorem test_step_first_command_reads_empty :
    rspOf (step (State.reset.withFetchWord 32 0x00210310)) = [⟨.typeKind, 0⟩] := by decide +kernel
/-- 40_lane_access.md R105, through the step: CONS with no scalar. -/
theorem test_step_cons : regOf 5 (step (State.reset.withFetchWord 32 0x00005205)) =
    some ⟨some .f32x4, 0x7FC000007FC000007FC000007FC00000⟩ := by decide +kernel
/-- 30_encoding.md R70: an illegal word answers status 4. -/
theorem test_step_illegal :
    rspOf (step (State.reset.withFetchWord 32 0)) = [⟨.illegalCommand, 0⟩] := by decide +kernel
/-- 60_exceptions.md R250: the status codes. -/
theorem test_status_codes : [Status.ok, .typeKind, .bounds, .conversionRange, .illegalCommand].map Status.code =
    [0, 1, 2, 3, 4] := by decide
/-- No event: the unit is idle and nothing changes (log entry 4). -/
theorem test_step_idle : step State.reset = .next State.reset := rfl

/-! ## Witnesses: for each statement with hypotheses, values that meet them together -/

/-- V0 and V1 of a kind, with payloads. -/
def two (k : Kind) (a b : Payload) : State := regsAt [(0, k, a), (1, k, b)]
/-- A mask and two numeric registers. -/
def three (m k : Kind) : State := regsAt [(0, m, 2), (1, k, 7), (2, k, 9)]
/-- A state with events to come. -/
def withEvents (l : List HostEvent) : State := { two .i32x4 1 2 with host := l }
/-- The command `add.i32x4 v2, v0, v1`. -/
def addCommand : Command := encode (.add .i32x4 2 0 1)

theorem witness_DecodeInvertsEncode : Instr.wellFormed (.cons .i8x16 15 16 words0) = true ∧
    Instr.wellFormed (.load3 .f32x4 0 ⟨0, 0, 12, 2⟩) = true ∧ Instr.wellFormed (.load1 .f64x2 0 ⟨0, 0, 8, 1⟩) = true := by
  decide
theorem witness_EachWordBelongsToOneRow : decode ⟨0x30010451#32, words0⟩ = .ok (.store3 .i16x8 1 ⟨0, 0, 0, 0⟩) ∧
    0x30010451#32 &&& (Instr.store3 .i16x8 1 ⟨0, 0, 0, 0⟩).row.mask = (Instr.store3 .i16x8 1 ⟨0, 0, 0, 0⟩).row.matchBits :=
  ⟨rfl, by decide⟩
theorem witness_StepRunsTheDecodedCommand :
    (withEvents [.command addCommand, .reset]).host = .command addCommand :: [.reset] ∧
    decode addCommand = .ok (.add .i32x4 2 0 1) := ⟨rfl, rfl⟩
theorem witness_IllegalWordRaisesIllegalCommand :
    (withEvents [.command ⟨0, words0⟩]).host = .command ⟨0, words0⟩ :: [] ∧
    decode ⟨0, words0⟩ = .error .unknownOp := ⟨rfl, rfl⟩
theorem witness_EveryCommandIsAnsweredOnce : (withEvents [.command addCommand, .command ⟨0, words0⟩]).host =
    [addCommand, ⟨0, words0⟩].map .command := rfl
theorem witness_FailedCommandChangesNothing :
    rspOf (runCommand ⟨0, words0⟩ State.reset) = State.reset.responses ++ [⟨.illegalCommand, 0⟩] ∧
    rspOf (runCommand (encode (.store .i32x4 0 ⟨0, 0, 0, 3⟩)) State.reset) = [] ++ [⟨.typeKind, 0⟩] ∧
    rspOf (runCommand (encode (.load .i32x4 0 ⟨1, 0, 19, 3⟩)) State.reset) = [] ++ [⟨.bounds, 0⟩] ∧
    rspOf (runCommand (encode (.fromf .i32x4 1 0)) (two .f32x4 0x4F000000 0)) = [] ++ [⟨.conversionRange, 0⟩] ∧
    (∃ t, runCommand ⟨0, words0⟩ State.reset = .next t) ∧ Status.bounds ≠ .ok :=
  ⟨by decide +kernel, by decide +kernel, by decide +kernel, by decide +kernel, ⟨_, rfl⟩, by decide⟩
theorem witness_EmptyRegisters : Instr.wellFormed (.sel .i32x4 0 1 2 3) = true ∧
    (1, Kind.b4) ∈ (Instr.sel .i32x4 0 1 2 3).sources ∧ State.reset.tag 1 = none ∧
    (Instr.fromf .i32x4 0 1).sources = [(1, Kind.f32x4)] := by decide
theorem witness_EmptyRegisters_untouched :
    exec (.check .i32x4 0) State.reset = .next (State.reset.raise .typeKind) ∧ (State.reset.raise .typeKind).tag 0 = none :=
  ⟨rfl, rfl⟩
theorem witness_OnlyExtractAndSadReturnAScalar :
    exec (.extract .i32x4 0 4) (two .i32x4 1 2) = .next ((two .i32x4 1 2).raise .bounds) ∧
    ((two .i32x4 1 2).raise .bounds).responses = (two .i32x4 1 2).responses ++ [⟨.bounds, 0⟩] ∧ Status.bounds ≠ .ok ∧
    exec (.check .i32x4 0) (two .i32x4 1 2) = .next ((two .i32x4 1 2).respond .ok 0) ∧
    (Instr.check .i32x4 0).hasScalarResult = false := ⟨rfl, rfl, by decide, rfl, rfl⟩
theorem witness_OnlyTheDestinationRegisterChanges : ∃ t, exec (.splat .i32x4 0 1) State.reset = .next t ∧
    (Instr.splat .i32x4 0 1).dest ≠ some 1 := ⟨_, rfl, by decide⟩
theorem witness_OnlyStoresChangeMemory : ∃ t, (Instr.load .i32x4 0 ⟨0, 0, 16, 3⟩).isStore = false ∧
    exec (.load .i32x4 0 ⟨0, 0, 16, 3⟩) State.reset = .next t := ⟨_, rfl, rfl⟩
theorem witness_StoreLeavesTheOtherBytes :
    (∃ t, exec (storeCommand 1 .i8x16 0 ⟨0, 0xFFFFFFFFFFFFFFFF, 1, 3⟩) (two .i8x16 5 6) = .next t) ∧
    elementWidth 3 = some 4 ∧
    (∀ n < bytesMoved 1 .i8x16, 0 ≠ byteAddress (bufferAddress ⟨0, 0xFFFFFFFFFFFFFFFF, 1, 3⟩ 4) n) ∧
    elementWidth 6 = none := ⟨⟨_, rfl⟩, by decide +kernel, by decide +kernel, by decide +kernel⟩
theorem witness_WritesStayInsideTheBuffer :
    memOf [0x2000] (exec (.store1 .i8x16 0 ⟨0, 0x2000, 1, 5⟩) (two .i8x16 5 6)) = [5] ∧
    Memory.read (two .i8x16 5 6).mem 0x2000 = 0 := by decide +kernel
theorem witness_ReadsStayInsideTheBuffer : (∃ t, exec (.load1 .i8x16 0 ⟨0, 0x1000, 1, 5⟩) floatsAt1000 = .next t) ∧
    ∀ d < 1, Memory.read [(0x2000, 9)] ((0x1000 + d) % 2 ^ 64) = Memory.read floatsAt1000.mem ((0x1000 + d) % 2 ^ 64) :=
  ⟨⟨_, rfl⟩, by decide +kernel⟩
theorem witness_OnlyStagingCommandsWriteScratch : (Instr.splat .i32x4 0 1).usesScratch = false ∧
    ∃ t, exec (.splat .i32x4 0 1) State.reset = .next t := ⟨rfl, _, rfl⟩
theorem witness_CheckAnswersOk : (two .b16 1 2).tag 0 = some .b16 := by decide
theorem witness_ExtractAnswersTheLane :
    (two .i8x16 1 2).tag 1 = some .i8x16 ∧ 0 ≤ (0 : Word).toInt ∧ (15 : Word).toInt < Kind.i8x16.lanes ∧
    (two .f64x2 1 2).tag 1 = some .f64x2 ∧ (1 : Word).toInt < Kind.f64x2.lanes ∧
    (two .f32x4 1 2).tag 1 = some .f32x4 ∧ (two .b2 1 2).tag 1 = some .b2 ∧
    Kind.i8x16.isInt = true ∧ Kind.b2.isBool = true := by decide
theorem witness_ReplaceWritesOneLane : (two .b4 15 2).tag 0 = some .b4 ∧ 0 ≤ (3 : Word).toInt ∧
    (3 : Word).toInt < Kind.b4.lanes := by decide
theorem witness_ConsFillsMissingLanes : (0 : Fin 32).val ≤ Kind.f32x4.lanes ∧ (16 : Fin 32).val ≤ Kind.i8x16.lanes := by
  decide
theorem witness_CoercionOfOperandWords : Kind.i8x16.isInt = true ∧ Kind.b16.isBool = true := by decide
/-- For IntegerAddSubMul, IntegerNegAbs, IntegerMinMax and ShiftsByAnyCount. -/
theorem witness_integer_operands : Kind.i16x8.isInt = true ∧ (two .i16x8 0x8000 0x7FFF).tag 0 = some .i16x8 ∧
    (two .i16x8 0x8000 0x7FFF).tag 1 = some .i16x8 := by decide
/-- For FloatAddSubMulDiv, FloatSqrtRcpa, FloatNegAbs, FloatMinMax and FloatMinnumMaxnum: a NaN and zeros of either sign
among the lanes. -/
theorem witness_float_operands : Kind.f32x4.isFloat = true ∧ (two .f32x4 0x7FC00000 0x80000000).tag 0 = some .f32x4 ∧
    (two .f32x4 0x7FC00000 0x80000000).tag 1 = some .f32x4 := by decide
theorem witness_FloatNegAbs : isNaNLane .f32x4 (lane 32 ((two .f32x4 0x7F800001 0x7F800000).bits 0) 0) = true ∧
    isNaNLane .f32x4 (lane 32 ((two .f32x4 0x7F800001 0x7F800000).bits 1) 0) = false := by decide +kernel
theorem witness_Float64RoundsTheExactResultOnce :
    binary64.unpack 0x0000000000000001#64 = .fin false 1 ∧ binary64.unpack 0x8000000000000003#64 = .fin true 3 ∧
    signedUnits false 1 + signedUnits true 3 ≠ 0 ∧ signedUnits false 1 - signedUnits true 3 ≠ 0 := by decide +kernel
theorem witness_Float64RoundsTheExactRootOnce : binary64.unpack 0x0000000000000001#64 = .fin false 1 := by decide +kernel
theorem witness_Float64SpecialCases :
    isNaNLane .f64x2 0x7FF0000000000001#64 = true ∧ binary64.unpack 0x7FF0000000000000#64 = .inf false ∧
    binary64.unpack 0xFFF0000000000000#64 = .inf true ∧ binary64.unpack 0#64 = .fin false 0 ∧
    binary64.unpack 0x8000000000000000#64 = .fin true 0 ∧ binary64.unpack 0x8000000000000001#64 = .fin true 1 ∧
    binary64.unpack 1#64 = .fin false 1 := by decide +kernel
theorem witness_NarrowingRoundsToNearest : binary64.unpack 0x8000000000000001#64 = .fin true 1 ∧
    binary64.unpack 0xFFF0000000000000#64 = .inf true ∧ binary64.unpack 0x7FF8000000000001#64 = .nan := by decide +kernel
theorem witness_WideningIsExact : binary32.unpack 0x80000001#32 = .fin true 1 ∧ binary32.unpack 0xFF800000#32 = .inf true ∧
    binary32.unpack 0x7F800001#32 = .nan ∧ binary32.unpack 0#32 ≠ .nan := by decide +kernel
theorem witness_IntegerComparisons : Kind.i32x4.isInt = true ∧ (two .i32x4 1 2).tag 0 = some .i32x4 ∧
    (two .i32x4 1 2).tag 1 = some .i32x4 ∧
    (Instr.lt .i32x4 2 0 1, fun x y : Int => decide (x < y)) ∈ [(Instr.lt .i32x4 2 0 1, fun x y : Int => decide (x < y))] :=
  ⟨by decide, by decide, by decide, by simp⟩
theorem witness_FloatComparisons : Kind.f64x2.isFloat = true ∧ (two .f64x2 1 2).tag 0 = some .f64x2 ∧
    (two .f64x2 1 2).tag 1 = some .f64x2 ∧
    (Instr.ne .f64x2 2 0 1, true, fun x y : Int => decide (x ≠ y)) ∈
      [(Instr.ne .f64x2 2 0 1, true, fun x y : Int => decide (x ≠ y))] := ⟨by decide, by decide, by decide, by simp⟩
theorem witness_LogicIsBitwise : (Kind.b4.isInt = true ∨ Kind.b4.isBool = true) ∧ (two .b4 1 2).tag 0 = some .b4 ∧
    (two .b4 1 2).tag 1 = some .b4 ∧ (Instr.not .b4 2 0, fun x _ : Bool => !x) ∈ [(Instr.not .b4 2 0, fun x _ : Bool => !x)] :=
  ⟨by decide, by decide, by decide, by simp⟩
theorem witness_SelTakesWholeLanes : Kind.f32x4.isNumeric = true ∧
    (three .b4 .f32x4).tag 0 = some Kind.f32x4.boolOf ∧ (three .b4 .f32x4).tag 1 = some .f32x4 ∧
    (three .b4 .f32x4).tag 2 = some .f32x4 := by decide
theorem witness_SelbTakesBits : Kind.i8x16.isInt = true ∧ (three .i8x16 .i8x16).tag 0 = some .i8x16 ∧
    (three .i8x16 .i8x16).tag 1 = some .i8x16 ∧ (three .i8x16 .i8x16).tag 2 = some .i8x16 := by decide
/-- A mask with lane 0 true, its canonical mask, and two values. -/
def masks : State := regsAt [(0, .b4, 1), (1, .i32x4, 0xFFFFFFFF), (2, .i32x4, 7), (3, .i32x4, 9)]
theorem witness_SelAndSelbCoincideOnCanonicalMasks :
    masks.tag 0 = some Kind.i32x4.boolOf ∧ masks.tag 1 = some .i32x4 ∧ masks.tag 2 = some .i32x4 ∧
    masks.tag 3 = some .i32x4 ∧ (∀ j < Kind.i32x4.lanes, lane Kind.i32x4.width (masks.bits 1) j =
      if (masks.bits 0).getLsbD j then BitVec.allOnes Kind.i32x4.width else 0) ∧
    (∃ j < Kind.i32x4.lanes, lane Kind.i32x4.width 0x0000FFFF j ≠ 0 ∧
      lane Kind.i32x4.width 0x0000FFFF j ≠ BitVec.allOnes Kind.i32x4.width) := by decide +kernel
theorem witness_SaturationClampsTheExactResult : (Kind.i8x16 = .i16x8 ∨ Kind.i8x16 = .i8x16) ∧
    (two .i8x16 0x7F 1).tag 0 = some .i8x16 ∧ (two .i8x16 0x7F 1).tag 1 = some .i8x16 := by decide
theorem witness_SadIsTheExactSum : (two .i8x16 1 2).tag 0 = some .i8x16 ∧ (two .i8x16 1 2).tag 1 = some .i8x16 := by
  decide
theorem witness_FromfTruncatesTowardZero : (two .f32x4 0xCF0000004EFFFFFF 0).tag 0 = some .f32x4 ∧
    (∀ j < 4, convertible (lane 32 ((two .f32x4 0xCF0000004EFFFFFF 0).bits 0) j) = true) ∧
    binary32.unpack (lane 32 ((two .f32x4 0xCF0000004EFFFFFF 0).bits 0) 1) = .fin true (2 ^ 31 * 2 ^ 149) := by
  decide +kernel
theorem witness_SwizzleCopiesTheIndexedLanes : Kind.f64x2.isNumeric = true ∧ (two .f64x2 1 2).tag 0 = some .f64x2 ∧
    ∀ j < Kind.f64x2.lanes, inRange (word (wordsOf [1, 0, 9]) j) Kind.f64x2.lanes = true := by decide +kernel
theorem witness_ShuffleCopiesFromBothSources : (two .f64x2 1 2).tag 1 = some .f64x2 ∧
    ∀ j < Kind.f64x2.lanes, inRange (word (wordsOf [3, 0, 9]) j) (2 * Kind.f64x2.lanes) = true := by decide +kernel
theorem witness_BitcastKeepsTheBits : Kind.i8x16.isNumeric = true ∧ Kind.f64x2.isNumeric = true ∧
    (two .i8x16 1 2).tag 0 = some .i8x16 := by decide
theorem witness_BitcastRoundTrip :
    Kind.i8x16.isNumeric = true ∧ Kind.f32x4.isNumeric = true ∧ (two .i8x16 1 2).tag 0 = some .i8x16 ∧
    (∀ p ∈ [(Kind.f64x2, (3 : VIdx)), (Kind.i16x8, 0), (Kind.i8x16, 5)], p.1.isNumeric = true) ∧
    (chainEnd .i8x16 0 [(.f64x2, 3), (.i16x8, 0), (.i8x16, 5)]).1 = .i8x16 := by decide
theorem witness_LoadsReadTheBytes : (3 : Fin 4).val < Kind.i16x8.lanes ∧
    bufferValid ⟨5, 0x2000, 16, 4⟩ (bytesMoved 3 .i16x8) = true ∧ (1 : Fin 4).val < Kind.f64x2.lanes ∧
    bufferValid ⟨0, 0xFFFFFFFFFFFFFFFF, 8, 5⟩ (bytesMoved 1 .f64x2) = true := by decide +kernel
theorem witness_StoresWriteTheBytes : (two .i16x8 1 2).tag 0 = some .i16x8 ∧
    bufferValid ⟨5, 0x2000, 16, 4⟩ (bytesMoved 3 .i16x8) = true ∧
    bufferValid ⟨0x7FFFFFFF, 0, 0xFFFFFFFFFFFFFFFF, 1⟩ (bytesMoved 0 .i16x8) = true := by decide +kernel
theorem witness_StoreThenLoadRoundTrip : (two .f32x4 1 2).tag 0 = some .f32x4 ∧ (0 : Fin 4).val < Kind.f32x4.lanes ∧
    bufferValid ⟨0, 0, 16, 2⟩ (bytesMoved 0 .f32x4) = true ∧ bufferValid ⟨0, 0, 16, 5⟩ 16 = true := by decide +kernel
theorem witness_StepKeepsInvariant : (two .b4 15 0).Inv ∧ ∃ t, step (two .b4 15 0) = .next t :=
  ⟨⟨by decide, by decide⟩, _, rfl⟩
theorem witness_ScratchAndEmptyPayloadsAreInvisible :
    SameObservations { withEvents [.command addCommand] with scratch := 5 } (withEvents [.command addCommand]) ∧
    ∃ t, core.run 1 { withEvents [.command addCommand] with scratch := 5 } = .next t :=
  ⟨⟨rfl, rfl, rfl, rfl, fun _ => ⟨rfl, fun _ => rfl⟩⟩, _, rfl⟩
theorem witness_ResetAtAnyTime : (withEvents [.reset, .command addCommand]).host = .reset :: [.command addCommand] ∧
    (withEvents [.resetDuring addCommand]).host = .resetDuring addCommand :: [] := ⟨rfl, rfl⟩
theorem witness_HostWritesOneByte : (withEvents [.hostWrite 0xFFFFFFFFFFFFFFFF 7]).host =
    .hostWrite 0xFFFFFFFFFFFFFFFF 7 :: [] := rfl

end Sys2Proof.Tests
end

/-! SUPPORT. O11, EmptyRegisters (10_state.md R29). What the named operations leave of a register's tag; for which kinds
each family of lane operations is defined; and the tag check of every command: a well-formed command with a source that
does not carry its kind answers TypeKind (60_exceptions.md R251), of which an EMPTY source is a case. -/

namespace Sys2Proof

/-- A kind has at least one lane. -/
theorem Kind.lanes_pos (k : Kind) : 0 < k.lanes := by cases k <;> decide

end Sys2Proof

namespace Sys2Proof.Machine

/-! ## Tags under the named operations -/

theorem State.setReg_tag (s : State) (q : VIdx) (k : Kind) (b : Payload) (r : VIdx) :
    (s.setReg q k b).tag r = if q = r then some k else s.tag r := by
  simp only [State.tag, State.setReg_reg]
  split <;> rfl

@[simp] theorem State.respond_tag (s : State) (st : Status) (xd : Word) (r : VIdx) :
    (s.respond st xd).tag r = s.tag r := rfl
@[simp] theorem State.raise_tag (s : State) (e : Error) (r : VIdx) : (s.raise e).tag r = s.tag r := rfl
@[simp] theorem State.setScratch_tag (s : State) (b : Payload) (r : VIdx) : (s.setScratch b).tag r = s.tag r := rfl
@[simp] theorem State.storeScratch_tag (s : State) (a : Word) (n : Nat) (r : VIdx) :
    (s.storeScratch a n).tag r = s.tag r := rfl

@[simp] theorem State.reset_tag (r : VIdx) : State.reset.tag r = none := by
  rw [State.tag, State.reset_reg, VReg.empty]

/-- A register write leaves a tag that is a kind, so a register that is EMPTY after it was EMPTY before. -/
theorem State.tag_eq_none_of_setReg {s : State} {q r : VIdx} {k : Kind} {b : Payload}
    (h : (s.setReg q k b).tag r = none) : s.tag r = none := by
  rw [State.setReg_tag] at h
  split at h
  · cases h
  · exact h

/-- No ending of a command writes the EMPTY tag. -/
theorem Ending.tag_eq_none {i : Instr} {s t : State} {r : VIdx} (he : Ending i s t) (ht : t.tag r = none) :
    s.tag r = none := by
  cases he with
  | failed e => exact ht
  | answered xd hd hx => exact ht
  | wrote vd k b hd => exact State.tag_eq_none_of_setReg ht
  | staged vd k b hd hu => exact State.tag_eq_none_of_setReg (s := s.setScratch b) ht
  | stored b a n hd hs => exact ht

/-! ## The kinds for which the lane operations are defined (30_encoding.md R66) -/

theorem isSome_floatUnary (f64 : BitVec 64 → BitVec 64) (f32 : BitVec 32 → BitVec 32) (k : Kind) :
    (floatUnary f64 f32 k).isSome = k.isFloat := by cases k <;> rfl

theorem isSome_floatBinary (f64 : BitVec 64 → BitVec 64 → BitVec 64) (f32 : BitVec 32 → BitVec 32 → BitVec 32)
    (k : Kind) : (floatBinary f64 f32 k).isSome = k.isFloat := by cases k <;> rfl

theorem isSome_intUnary (int : (w : Nat) → BitVec w → BitVec w) (k : Kind) :
    (intUnary int k).isSome = k.isInt := by cases k <;> rfl

theorem isSome_numericUnary (int : (w : Nat) → BitVec w → BitVec w) (f64 : BitVec 64 → BitVec 64)
    (f32 : BitVec 32 → BitVec 32) (k : Kind) : (numericUnary int f64 f32 k).isSome = k.isNumeric := by
  cases k <;> rfl

theorem isSome_numericBinary (int : (w : Nat) → BitVec w → BitVec w → BitVec w)
    (f64 : BitVec 64 → BitVec 64 → BitVec 64) (f32 : BitVec 32 → BitVec 32 → BitVec 32) (k : Kind) :
    (numericBinary int f64 f32 k).isSome = k.isNumeric := by cases k <;> rfl

theorem isSome_numericCompare (int : (w : Nat) → BitVec w → BitVec w → Bool) (f64 : BitVec 64 → BitVec 64 → Bool)
    (f32 : BitVec 32 → BitVec 32 → Bool) (k : Kind) : (numericCompare int f64 f32 k).isSome = k.isNumeric := by
  cases k <;> rfl

theorem isSome_logicUnary (op : (w : Nat) → BitVec w → BitVec w) (k : Kind) :
    (logicUnary op k).isSome = (k.isInt || k.isBool) := by cases k <;> rfl

theorem isSome_logicBinary (op : (w : Nat) → BitVec w → BitVec w → BitVec w) (k : Kind) :
    (logicBinary op k).isSome = (k.isInt || k.isBool) := by cases k <;> rfl

theorem isSome_narrowBinary (int : (w : Nat) → BitVec w → BitVec w → BitVec w) (k : Kind) :
    (narrowBinary int k).isSome = (decide (k = .i16x8) || decide (k = .i8x16)) := by cases k <;> rfl

theorem castable_eq_isNumeric (k : Kind) : castable k = k.isNumeric := by cases k <;> rfl

/-! ## The tag check fails, template by template -/

theorem unary_of_mistagged {op : Option UnaryOp} {k rk : Kind} {vd a : VIdx} {s : State}
    (hop : op.isSome = true) (h : s.tag a ≠ some k) : unary op k rk vd a s = .next (s.raise .typeKind) := by
  obtain ⟨f, rfl⟩ := Option.isSome_iff_exists.1 hop
  exact if_neg h

theorem binary_of_mistagged {op : Option BinaryOp} {k rk : Kind} {vd a b : VIdx} {s : State}
    (hop : op.isSome = true) (h : ¬(s.tag a = some k ∧ s.tag b = some k)) :
    binary op k rk vd a b s = .next (s.raise .typeKind) := by
  obtain ⟨f, rfl⟩ := Option.isSome_iff_exists.1 hop
  exact if_neg h

/-- A STORE command checks the tag of its source before its buffer (46_load_store.md R229). -/
theorem storeLanes_of_mistagged {c : Nat} {k : Kind} {a : VIdx} {b : Buffer} {s : State} (hc : c < 4)
    (hk : k.isNumeric = true ∧ c < k.lanes) (h : s.tag a ≠ some k) :
    storeLanes c k a b s = .next (s.raise .typeKind) := by
  rw [storeLanes, lanesMoved_eq k c hc, if_pos hk]
  exact if_neg h

theorem execBcast_of_mistagged {k target : Kind} {vd a : VIdx} {s : State}
    (hk : (k.isNumeric && target.isNumeric) = true) (h : s.tag a ≠ some k) :
    execBcast k target vd a s = .next (s.raise .typeKind) := by
  rw [execBcast, castable_eq_isNumeric, castable_eq_isNumeric, if_pos hk, if_neg h, raise_eq]

theorem execSel_of_mistagged {k : Kind} {vd m t f : VIdx} {s : State} (hk : k.isNumeric = true)
    (h : ¬(s.tag m = some k.boolOf ∧ s.tag t = some k ∧ s.tag f = some k)) :
    execSel k vd m t f s = .next (s.raise .typeKind) := by
  cases k with
  | b2 | b4 | b8 | b16 => cases hk
  | f64x2 | f32x4 | i32x4 | i16x8 | i8x16 => exact if_neg h

theorem execSelb_of_mistagged {k : Kind} {vd m t f : VIdx} {s : State} (hk : k.isInt = true)
    (h : ¬(s.tag m = some k ∧ s.tag t = some k ∧ s.tag f = some k)) :
    execSelb k vd m t f s = .next (s.raise .typeKind) := by
  cases k with
  | f64x2 | f32x4 | b2 | b4 | b8 | b16 => cases hk
  | i32x4 | i16x8 | i8x16 => exact if_neg h

theorem execSwz_of_mistagged {k : Kind} {vd a : VIdx} {x : Operands} {s : State} (hk : k.isNumeric = true)
    (h : s.tag a ≠ some k) : execSwz k vd a x s = .next (s.raise .typeKind) := by
  cases k with
  | b2 | b4 | b8 | b16 => cases hk
  | f64x2 | f32x4 | i32x4 | i16x8 | i8x16 => exact if_neg h

theorem execShuf_of_mistagged {k : Kind} {vd a b : VIdx} {x : Operands} {s : State} (hk : k.isNumeric = true)
    (h : ¬(s.tag a = some k ∧ s.tag b = some k)) : execShuf k vd a b x s = .next (s.raise .typeKind) := by
  cases k with
  | b2 | b4 | b8 | b16 => cases hk
  | f64x2 | f32x4 | i32x4 | i16x8 | i8x16 => exact if_neg h

/-! ## The tag check fails, command by command -/

/-- A source register does not carry the kind that its command asks of it (60_exceptions.md R251); the first conjunct
of `kindsValid` fails. -/
def HasMistaggedSource (i : Instr) (s : State) : Prop := ∃ p ∈ i.sources, s.tag p.1 ≠ some p.2

/-- The term of Safety.lean for stage 2 of 30_encoding.md R72 sees a mistagged source. -/
theorem HasMistaggedSource.kindsValid_eq_false {i : Instr} {s : State} (h : HasMistaggedSource i s) :
    kindsValid i s = false := by
  obtain ⟨p, hp, ht⟩ := h
  have hall : i.sources.all (fun p => decide (s.tag p.1 = some p.2)) = false :=
    List.all_eq_false.2 ⟨p, hp, by simpa using ht⟩
  rw [kindsValid, hall, Bool.false_and]

theorem hasMistaggedSource_of_empty {i : Instr} {s : State} {r : VIdx} {k : Kind} (hr : (r, k) ∈ i.sources)
    (he : s.tag r = none) : HasMistaggedSource i s := ⟨(r, k), hr, by simp [he]⟩

section
variable {i : Instr} {s : State} (h : HasMistaggedSource i s)
include h

theorem HasMistaggedSource.sources_ne_nil : i.sources ≠ [] := by
  obtain ⟨p, hp, -⟩ := h
  exact List.ne_nil_of_mem hp

theorem HasMistaggedSource.one {a : VIdx} {k : Kind} (hi : i.sources = [(a, k)]) : s.tag a ≠ some k := by
  simpa [HasMistaggedSource, hi] using h

theorem HasMistaggedSource.two {a b : VIdx} {k l : Kind} (hi : i.sources = [(a, k), (b, l)]) :
    ¬(s.tag a = some k ∧ s.tag b = some l) := by
  rintro ⟨ha, hb⟩
  simp [HasMistaggedSource, hi, ha, hb] at h

theorem HasMistaggedSource.three {a b c : VIdx} {k l m : Kind} (hi : i.sources = [(a, k), (b, l), (c, m)]) :
    ¬(s.tag a = some k ∧ s.tag b = some l ∧ s.tag c = some m) := by
  rintro ⟨ha, hb, hc⟩
  simp [HasMistaggedSource, hi, ha, hb, hc] at h

end

/-- The tag check of every command comes before all its other checks (30_encoding.md R72, stage 2): a well-formed
command with a mistagged source answers TypeKind. -/
theorem exec_of_mistaggedSource (i : Instr) (s : State) (hw : i.wellFormed = true) (h : HasMistaggedSource i s) :
    exec i s = .next (s.raise .typeKind) := by
  cases i with
  | check k a | extract k a x | replace k vd a x y => exact if_neg (h.one rfl)
  | splat k vd x | cons k vd argc x => exact absurd rfl h.sources_ne_nil
  | load k vd b | load1 k vd b | load2 k vd b | load3 k vd b => exact absurd rfl h.sources_ne_nil
  | add k vd a b | sub k vd a b | mul k vd a b | min k vd a b | max k vd a b =>
    exact binary_of_mistagged ((isSome_numericBinary ..).trans hw) (h.two rfl)
  | div k vd a b | minnum k vd a b | maxnum k vd a b =>
    exact binary_of_mistagged ((isSome_floatBinary ..).trans hw) (h.two rfl)
  | neg k vd a | abs k vd a => exact unary_of_mistagged ((isSome_numericUnary ..).trans hw) (h.one rfl)
  | sqrt k vd a | rcpa k vd a => exact unary_of_mistagged ((isSome_floatUnary ..).trans hw) (h.one rfl)
  | eq k vd a b | ne k vd a b | lt k vd a b | le k vd a b | gt k vd a b | ge k vd a b =>
    exact binary_of_mistagged ((isSome_numericCompare ..).trans hw) (h.two rfl)
  | and k vd a b | or k vd a b | xor k vd a b =>
    exact binary_of_mistagged ((isSome_logicBinary ..).trans hw) (h.two rfl)
  | not k vd a => exact unary_of_mistagged ((isSome_logicUnary ..).trans hw) (h.one rfl)
  | sel k vd m t f => exact execSel_of_mistagged hw (h.three rfl)
  | selb k vd m t f => exact execSelb_of_mistagged hw (h.three rfl)
  | shl k vd a x | shrl k vd a x | shra k vd a x =>
    exact unary_of_mistagged ((isSome_intUnary ..).trans hw) (h.one rfl)
  | adds k vd a b | subs k vd a b => exact binary_of_mistagged ((isSome_narrowBinary ..).trans hw) (h.two rfl)
  | sad k a b =>
    obtain rfl : k = .i8x16 := of_decide_eq_true hw
    exact if_neg (h.two rfl)
  | fromf k vd a =>
    obtain rfl : k = .i32x4 := of_decide_eq_true hw
    exact if_neg (h.one rfl)
  | swz k vd a x => exact execSwz_of_mistagged hw (h.one rfl)
  | shuf k vd a b x => exact execShuf_of_mistagged hw (h.two rfl)
  | bcast k target vd a => exact execBcast_of_mistagged hw (h.one rfl)
  | store k a b => exact storeLanes_of_mistagged (by decide) ⟨hw, k.lanes_pos⟩ (h.one rfl)
  | store1 k a b | store2 k a b | store3 k a b =>
    exact storeLanes_of_mistagged (by decide) (by simpa [Instr.wellFormed] using hw) (h.one rfl)

/-! ## The obligation -/

/-- Settles O11: an EMPTY source is a mistagged one; every ending of a command leaves its registers' tags or writes a
kind; and reset leaves every register EMPTY. -/
theorem emptyRegisters : Obligations.EmptyRegisters := by
  refine ⟨fun i s r k hw hr he => ?_, fun i s t r ht hr => ?_, State.reset_tag⟩
  · exact exec_of_mistaggedSource i s hw (hasMistaggedSource_of_empty hr he)
  · obtain ⟨u, hu, hend⟩ := exec_ending i s
    obtain rfl : u = t := by rw [hu] at ht; injection ht
    exact hend.tag_eq_none hr

end Sys2Proof.Machine

/-! SUPPORT. O9 and O10 (60_exceptions.md R254, R255). `exec` stage by stage (30_encoding.md R72): an ill-formed
command, then a wrong tag or buffer operand, then an index or byte range, then FROMF's values, and OK after all of them.
Together they say that a command does what `firstError` says; both obligations follow from that. -/

namespace Sys2Proof

/-- A kind has at most sixteen lanes. -/
theorem Kind.lanes_le (k : Kind) : k.lanes ≤ 16 := by cases k <;> decide

end Sys2Proof

namespace Sys2Proof.Machine

-- As in Tests/Slice0.lean: in the joined text, proofs elaborated side by side can run Lean out of threads.
set_option Elab.async false

/-! ## Stage 1: an ill-formed command (30_encoding.md R66, R76) -/

theorem unary_of_isSome_eq_false {op : Option UnaryOp} (k rk : Kind) (vd a : VIdx) (s : State)
    (hop : op.isSome = false) : unary op k rk vd a s = .next (s.raise .illegalCommand) := by
  cases op with
  | none => rfl
  | some f => cases hop

theorem binary_of_isSome_eq_false {op : Option BinaryOp} (k rk : Kind) (vd a b : VIdx) (s : State)
    (hop : op.isSome = false) : binary op k rk vd a b s = .next (s.raise .illegalCommand) := by
  cases op with
  | none => rfl
  | some f => cases hop

theorem loadLanes_of_not_legal {c : Nat} {k : Kind} (vd : VIdx) (b : Buffer) (s : State) (hc : c < 4)
    (hk : ¬(k.isNumeric = true ∧ c < k.lanes)) : loadLanes c k vd b s = .next (s.raise .illegalCommand) := by
  rw [loadLanes, lanesMoved_eq k c hc, if_neg hk]
  rfl

theorem storeLanes_of_not_legal {c : Nat} {k : Kind} (a : VIdx) (b : Buffer) (s : State) (hc : c < 4)
    (hk : ¬(k.isNumeric = true ∧ c < k.lanes)) : storeLanes c k a b s = .next (s.raise .illegalCommand) := by
  rw [storeLanes, lanesMoved_eq k c hc, if_neg hk]
  rfl

/-- An ill-formed command answers IllegalCommand before any other check (log entry 11). -/
theorem exec_of_illFormed (i : Instr) (s : State) (hw : i.wellFormed = false) :
    exec i s = .next (s.raise .illegalCommand) := by
  cases i with
  | check k a | extract k a x | replace k vd a x y | splat k vd x => cases hw
  | cons k vd argc x => exact if_neg (of_decide_eq_false hw)
  | add k vd a b | sub k vd a b | mul k vd a b | min k vd a b | max k vd a b =>
    exact binary_of_isSome_eq_false _ _ _ _ _ _ ((isSome_numericBinary ..).trans hw)
  | div k vd a b | minnum k vd a b | maxnum k vd a b =>
    exact binary_of_isSome_eq_false _ _ _ _ _ _ ((isSome_floatBinary ..).trans hw)
  | neg k vd a | abs k vd a => exact unary_of_isSome_eq_false _ _ _ _ _ ((isSome_numericUnary ..).trans hw)
  | sqrt k vd a | rcpa k vd a => exact unary_of_isSome_eq_false _ _ _ _ _ ((isSome_floatUnary ..).trans hw)
  | eq k vd a b | ne k vd a b | lt k vd a b | le k vd a b | gt k vd a b | ge k vd a b =>
    exact binary_of_isSome_eq_false _ _ _ _ _ _ ((isSome_numericCompare ..).trans hw)
  | and k vd a b | or k vd a b | xor k vd a b =>
    exact binary_of_isSome_eq_false _ _ _ _ _ _ ((isSome_logicBinary ..).trans hw)
  | not k vd a => exact unary_of_isSome_eq_false _ _ _ _ _ ((isSome_logicUnary ..).trans hw)
  | shl k vd a x | shrl k vd a x | shra k vd a x =>
    exact unary_of_isSome_eq_false _ _ _ _ _ ((isSome_intUnary ..).trans hw)
  | adds k vd a b | subs k vd a b =>
    exact binary_of_isSome_eq_false _ _ _ _ _ _ ((isSome_narrowBinary ..).trans hw)
  | sel k vd m t f | swz k vd a x | shuf k vd a b x =>
    cases k with
    | b2 | b4 | b8 | b16 => rfl
    | f64x2 | f32x4 | i32x4 | i16x8 | i8x16 => cases hw
  | selb k vd m t f =>
    cases k with
    | f64x2 | f32x4 | b2 | b4 | b8 | b16 => rfl
    | i32x4 | i16x8 | i8x16 => cases hw
  | sad k a b =>
    cases k with
    | i8x16 => cases hw
    | f64x2 | f32x4 | i32x4 | i16x8 | b2 | b4 | b8 | b16 => rfl
  | fromf k vd a =>
    cases k with
    | i32x4 => cases hw
    | f64x2 | f32x4 | i16x8 | i8x16 | b2 | b4 | b8 | b16 => rfl
  | bcast k target vd a =>
    exact if_neg (by rw [castable_eq_isNumeric, castable_eq_isNumeric]; exact Bool.eq_false_iff.1 hw)
  | load k vd b => exact loadLanes_of_not_legal _ _ _ (by decide) fun hk => Bool.eq_false_iff.1 hw hk.1
  | load1 k vd b | load2 k vd b | load3 k vd b =>
    exact loadLanes_of_not_legal _ _ _ (by decide) (by simpa [Instr.wellFormed] using hw)
  | store k a b => exact storeLanes_of_not_legal _ _ _ (by decide) fun hk => Bool.eq_false_iff.1 hw hk.1
  | store1 k a b | store2 k a b | store3 k a b =>
    exact storeLanes_of_not_legal _ _ _ (by decide) (by simpa [Instr.wellFormed] using hw)

/-! ## Stage 2: the tags of the sources -/

/-- Every source register carries the kind that its command asks of it: the first conjunct of `kindsValid`. -/
def SourcesTagged (i : Instr) (s : State) : Prop := ∀ p ∈ i.sources, s.tag p.1 = some p.2

theorem not_hasMistaggedSource_iff {i : Instr} {s : State} : ¬HasMistaggedSource i s ↔ SourcesTagged i s := by
  simp only [HasMistaggedSource, SourcesTagged, not_exists, not_and, not_not]

theorem SourcesTagged.all_eq_true {i : Instr} {s : State} (h : SourcesTagged i s) :
    i.sources.all (fun p => decide (s.tag p.1 = some p.2)) = true :=
  List.all_eq_true.2 fun p hp => decide_eq_true (h p hp)

theorem sourcesTagged_of_kindsValid {i : Instr} {s : State} (h : kindsValid i s = true) : SourcesTagged i s :=
  not_hasMistaggedSource_iff.1 fun hm => Bool.eq_false_iff.1 hm.kindsValid_eq_false h

section
variable {i : Instr} {s : State} (h : SourcesTagged i s)
include h

theorem SourcesTagged.one {a : VIdx} {k : Kind} (hi : i.sources = [(a, k)]) : s.tag a = some k := by
  simpa [SourcesTagged, hi] using h

theorem SourcesTagged.two {a b : VIdx} {k l : Kind} (hi : i.sources = [(a, k), (b, l)]) :
    s.tag a = some k ∧ s.tag b = some l := by
  simpa [SourcesTagged, hi] using h

theorem SourcesTagged.three {a b c : VIdx} {k l m : Kind} (hi : i.sources = [(a, k), (b, l), (c, m)]) :
    s.tag a = some k ∧ s.tag b = some l ∧ s.tag c = some m := by
  simpa [SourcesTagged, hi] using h

end

/-! ## Stages 2 and 3: the buffer of a LOAD or STORE command (46_load_store.md R221) -/

/-- The validation is all that stands between a LOAD command and its end. -/
theorem loadLanes_of_validate_error {c : Nat} {k : Kind} (vd : VIdx) {b : Buffer} (s : State) {e : Error} (hc : c < 4)
    (hk : k.isNumeric = true ∧ c < k.lanes) (hv : validate b (requiredBytes k (k.prefixLanes c)) = .error e) :
    loadLanes c k vd b s = .next (s.raise e) := by
  simp [loadLanes, lanesMoved_eq k c hc, hk, hv]

theorem storeLanes_of_validate_error {c : Nat} {k : Kind} {a : VIdx} {b : Buffer} {s : State} {e : Error} (hc : c < 4)
    (hk : k.isNumeric = true ∧ c < k.lanes) (ht : s.tag a = some k)
    (hv : validate b (requiredBytes k (k.prefixLanes c)) = .error e) :
    storeLanes c k a b s = .next (s.raise e) := by
  simp [storeLanes, lanesMoved_eq k c hc, hk, ht, hv]

/-- An error of the validation is the answer of a well-formed LOAD or STORE command whose source is tagged. -/
theorem exec_of_validate_error {i : Instr} {s : State} {b : Buffer} {n : Nat} {e : Error} (hw : i.wellFormed = true)
    (ht : SourcesTagged i s) (hacc : i.access = some (b, n)) (hv : validate b n = .error e) :
    exec i s = .next (s.raise e) := by
  cases i with
  | load k vd b =>
    cases hacc
    exact loadLanes_of_validate_error _ _ (by decide) ⟨hw, k.lanes_pos⟩ hv
  | load1 k vd b | load2 k vd b | load3 k vd b =>
    cases hacc
    exact loadLanes_of_validate_error _ _ (by decide) (by simpa [Instr.wellFormed] using hw) hv
  | store k a b =>
    cases hacc
    exact storeLanes_of_validate_error (by decide) ⟨hw, k.lanes_pos⟩ (ht.one rfl) hv
  | store1 k a b | store2 k a b | store3 k a b =>
    cases hacc
    exact storeLanes_of_validate_error (by decide) (by simpa [Instr.wellFormed] using hw) (ht.one rfl) hv
  | _ => cases hacc

/-- For a command with a buffer operand and tagged sources, `kindsValid` is what V1 of the validation checks. -/
theorem kindsValid_of_access {i : Instr} {s : State} {b : Buffer} {n : Nat} (ht : SourcesTagged i s)
    (hacc : i.access = some (b, n)) : kindsValid i s = (decide (1 ≤ b.bkind.toNat ∧ b.bkind.toNat ≤ 5) &&
      decide (-2 ^ 31 ≤ b.index.toInt ∧ b.index.toInt < 2 ^ 31)) := by
  rw [kindsValid, ht.all_eq_true, hacc]
  rfl

theorem kindsValid_of_access_eq_none {i : Instr} {s : State} (ht : SourcesTagged i s) (hacc : i.access = none) :
    kindsValid i s = true := by
  rw [kindsValid, ht.all_eq_true, hacc]
  rfl

/-- For a command with a buffer operand, `rangesValid` is what V2 and V3 of the validation check. -/
theorem rangesValid_of_access {i : Instr} {b : Buffer} {n : Nat} (hacc : i.access = some (b, n)) :
    rangesValid i = decide (0 ≤ b.index.toInt ∧
      b.index.toInt * widthOfBufferKind b.bkind.toNat + n ≤ b.byteLength.toNat) := by
  cases i with
  | load | load1 | load2 | load3 | store | store1 | store2 | store3 => cases hacc; rfl
  | _ => cases hacc

/-- The validation of a command's buffer in the terms of Safety.lean. -/
theorem validate_of_access {i : Instr} {s : State} {b : Buffer} {n : Nat} (ht : SourcesTagged i s)
    (hacc : i.access = some (b, n)) : validate b n =
      if kindsValid i s = false then .error .typeKind
      else if rangesValid i = false then .error .bounds
      else .ok (bufferAddress b (widthOfBufferKind b.bkind.toNat)) := by
  rw [validate_eq, kindsValid_of_access ht hacc, rangesValid_of_access hacc]

/-- Stage 2 as a whole: a wrong tag first, then the buffer kind and index. -/
theorem exec_of_kindsValid_eq_false (i : Instr) (s : State) (hw : i.wellFormed = true)
    (hk : kindsValid i s = false) : exec i s = .next (s.raise .typeKind) := by
  by_cases hm : HasMistaggedSource i s
  · exact exec_of_mistaggedSource i s hw hm
  · have ht := not_hasMistaggedSource_iff.1 hm
    cases hacc : i.access with
    | none => rw [kindsValid_of_access_eq_none ht hacc] at hk; cases hk
    | some p => exact exec_of_validate_error hw ht hacc (by rw [validate_of_access ht hacc, if_pos hk])

/-! ## Stage 3: lane and permutation indices (40_lane_access.md R100, 44_swizzle_shuffle.md R200) -/

theorem execExtract_of_tag {k : Kind} {a : VIdx} {x : Word} {s : State} (h : s.tag a = some k) :
    execExtract k a x s = if rangesValid (.extract k a x) then
      complete (laneOut k (lane k.width (s.bits a) x.toNat)) s else raise .bounds s := by
  rw [execExtract, if_pos h, laneIndexOk_eq _ _ k.lanes_le, rangesValid, Instr.access, Bool.and_true]

theorem execReplace_of_tag {k : Kind} {vd a : VIdx} {x y : Word} {s : State} (h : s.tag a = some k) :
    execReplace k vd a x y s = if rangesValid (.replace k vd a x y) then
      complete 0 (s.setReg vd k (replaceLane k.width (s.bits a) x.toNat (coerce k y))) else raise .bounds s := by
  rw [execReplace, if_pos h, laneIndexOk_eq _ _ k.lanes_le, rangesValid, Instr.access, Bool.and_true]

theorem execSwz_of_tag {k : Kind} {vd a : VIdx} {x : Operands} {s : State} (hk : k.isNumeric = true)
    (h : s.tag a = some k) : execSwz k vd a x s = if rangesValid (.swz k vd a x) then
      complete 0 (s.setReg vd k (swizzleLanes k.width k.lanes x (s.bits a))) else raise .bounds s := by
  rw [rangesValid, Instr.access, Bool.and_true, ← indicesOk_eq]
  cases k with
  | b2 | b4 | b8 | b16 => cases hk
  | f64x2 | f32x4 | i32x4 | i16x8 | i8x16 => exact if_pos h

theorem execShuf_of_tag {k : Kind} {vd a b : VIdx} {x : Operands} {s : State} (hk : k.isNumeric = true)
    (h : s.tag a = some k ∧ s.tag b = some k) : execShuf k vd a b x s = if rangesValid (.shuf k vd a b x) then
      complete 0 (s.setReg vd k (shuffleLanes k.width k.lanes x (s.bits a) (s.bits b))) else raise .bounds s := by
  rw [rangesValid, Instr.access, Bool.and_true, ← indicesOk_eq]
  cases k with
  | b2 | b4 | b8 | b16 => cases hk
  | f64x2 | f32x4 | i32x4 | i16x8 | i8x16 => exact if_pos h

/-- Stage 3 as a whole: only four commands have an index to check, and only LOAD and STORE commands a byte range. -/
theorem exec_of_rangesValid_eq_false (i : Instr) (s : State) (hw : i.wellFormed = true) (hk : kindsValid i s = true)
    (hr : rangesValid i = false) : exec i s = .next (s.raise .bounds) := by
  have ht := sourcesTagged_of_kindsValid hk
  cases hacc : i.access with
  | some p => exact exec_of_validate_error hw ht hacc (by simp [validate_of_access ht hacc, hk, hr])
  | none =>
    cases i with
    | extract k a x => exact (execExtract_of_tag (ht.one rfl)).trans (by rw [hr]; rfl)
    | replace k vd a x y => exact (execReplace_of_tag (ht.one rfl)).trans (by rw [hr]; rfl)
    | swz k vd a x => exact (execSwz_of_tag hw (ht.one rfl)).trans (by rw [hr]; rfl)
    | shuf k vd a b x => exact (execShuf_of_tag hw (ht.two rfl)).trans (by rw [hr]; rfl)
    | load | load1 | load2 | load3 | store | store1 | store2 | store3 => cases hacc
    | _ => cases hr

/-! ## Stage 4: FROMF's values (43_shift_saturate_convert.md R188) -/

theorem isSome_truncLanes_eq_valuesValid (k : Kind) (vd a : VIdx) (s : State) :
    (truncLanes (s.bits a)).isSome = valuesValid (.fromf k vd a) s := isSome_truncLanes _

theorem exec_of_valuesValid_eq_false (i : Instr) (s : State) (hw : i.wellFormed = true) (hk : kindsValid i s = true)
    (hv : valuesValid i s = false) : exec i s = .next (s.raise .conversionRange) := by
  have ht := sourcesTagged_of_kindsValid hk
  cases i with
  | fromf k vd a =>
    obtain rfl : k = .i32x4 := of_decide_eq_true hw
    have hnone : truncLanes (s.bits a) = none := by
      simpa [← isSome_truncLanes_eq_valuesValid] using hv
    simp [exec, execFromf, ht.one rfl, hnone]
  | _ => cases hv

/-! ## Stage 5: the command ends with OK -/

/-- The state after a command that ended with status OK: the event taken off, one response given. -/
def AnswersOk (s : State) (r : Result) : Prop :=
  ∃ (t : State) (xd : Word), r = .next t ∧ t.host = s.host.tail ∧ t.responses = s.responses ++ [⟨.ok, xd⟩]

theorem answersOk_complete (xd : Word) (s : State) : AnswersOk s (complete xd s) := ⟨_, xd, rfl, rfl, rfl⟩

theorem answersOk_complete_setReg (xd : Word) (s : State) (vd : VIdx) (k : Kind) (b : Payload) :
    AnswersOk s (complete xd (s.setReg vd k b)) := ⟨_, xd, rfl, rfl, rfl⟩

theorem answersOk_unary {op : Option UnaryOp} {k rk : Kind} {vd a : VIdx} {s : State} (hop : op.isSome = true)
    (h : s.tag a = some k) : AnswersOk s (unary op k rk vd a s) := by
  obtain ⟨f, hf⟩ := Option.isSome_iff_exists.1 hop
  exact ⟨_, 0, unary_of_tag rk vd hf h, rfl, rfl⟩

theorem answersOk_binary {op : Option BinaryOp} {k rk : Kind} {vd a b : VIdx} {s : State} (hop : op.isSome = true)
    (h : s.tag a = some k ∧ s.tag b = some k) : AnswersOk s (binary op k rk vd a b s) := by
  obtain ⟨f, hf⟩ := Option.isSome_iff_exists.1 hop
  exact ⟨_, 0, binary_of_tag rk vd hf h.1 h.2, rfl, rfl⟩

theorem answersOk_loadLanes {c : Nat} {k : Kind} (vd : VIdx) {b : Buffer} (s : State) {a : Word} (hc : c < 4)
    (hk : k.isNumeric = true ∧ c < k.lanes) (hv : validate b (requiredBytes k (k.prefixLanes c)) = .ok a) :
    AnswersOk s (loadLanes c k vd b s) := by
  rw [loadLanes, lanesMoved_eq k c hc, if_pos hk]
  dsimp only
  rw [hv]
  exact ⟨_, 0, rfl, rfl, rfl⟩

theorem answersOk_storeLanes {c : Nat} {k : Kind} {r : VIdx} {b : Buffer} {s : State} {a : Word} (hc : c < 4)
    (hk : k.isNumeric = true ∧ c < k.lanes) (ht : s.tag r = some k)
    (hv : validate b (requiredBytes k (k.prefixLanes c)) = .ok a) : AnswersOk s (storeLanes c k r b s) := by
  rw [storeLanes, lanesMoved_eq k c hc, if_pos hk]
  dsimp only
  rw [if_pos ht, hv]
  exact ⟨_, 0, rfl, rfl, rfl⟩

/-- A LOAD or STORE command that passes the validation ends with OK. -/
theorem answersOk_of_validate_ok {i : Instr} {s : State} {b : Buffer} {n : Nat} {addr : Word}
    (hw : i.wellFormed = true) (ht : SourcesTagged i s) (hacc : i.access = some (b, n))
    (hv : validate b n = .ok addr) : AnswersOk s (exec i s) := by
  cases i with
  | load k vd b =>
    cases hacc
    exact answersOk_loadLanes _ _ (by decide) ⟨hw, k.lanes_pos⟩ hv
  | load1 k vd b | load2 k vd b | load3 k vd b =>
    cases hacc
    exact answersOk_loadLanes _ _ (by decide) (by simpa [Instr.wellFormed] using hw) hv
  | store k a b =>
    cases hacc
    exact answersOk_storeLanes (by decide) ⟨hw, k.lanes_pos⟩ (ht.one rfl) hv
  | store1 k a b | store2 k a b | store3 k a b =>
    cases hacc
    exact answersOk_storeLanes (by decide) (by simpa [Instr.wellFormed] using hw) (ht.one rfl) hv
  | _ => cases hacc

theorem answersOk_execSel {k : Kind} {vd m t f : VIdx} {s : State} (hk : k.isNumeric = true)
    (h : s.tag m = some k.boolOf ∧ s.tag t = some k ∧ s.tag f = some k) : AnswersOk s (execSel k vd m t f s) := by
  cases k with
  | b2 | b4 | b8 | b16 => cases hk
  | f64x2 | f32x4 | i32x4 | i16x8 | i8x16 => exact ⟨_, 0, if_pos h, rfl, rfl⟩

theorem answersOk_execSelb {k : Kind} {vd m t f : VIdx} {s : State} (hk : k.isInt = true)
    (h : s.tag m = some k ∧ s.tag t = some k ∧ s.tag f = some k) : AnswersOk s (execSelb k vd m t f s) := by
  cases k with
  | f64x2 | f32x4 | b2 | b4 | b8 | b16 => cases hk
  | i32x4 | i16x8 | i8x16 => exact ⟨_, 0, if_pos h, rfl, rfl⟩

theorem answersOk_execFromf {vd a : VIdx} {s : State} (h : s.tag a = some .f32x4)
    (hv : (truncLanes (s.bits a)).isSome = true) : AnswersOk s (execFromf .i32x4 vd a s) := by
  obtain ⟨r, hr⟩ := Option.isSome_iff_exists.1 hv
  rw [execFromf, if_pos h, hr]
  exact answersOk_complete_setReg ..

theorem answersOk_execBcast {k target : Kind} {vd a : VIdx} {s : State}
    (hk : (k.isNumeric && target.isNumeric) = true) (h : s.tag a = some k) :
    AnswersOk s (execBcast k target vd a s) := by
  rw [execBcast, castable_eq_isNumeric, castable_eq_isNumeric, if_pos hk, if_pos h]
  exact ⟨_, 0, rfl, rfl, rfl⟩

/-- A command that passes every check ends with OK. -/
theorem answersOk_of_allValid (i : Instr) (s : State) (hw : i.wellFormed = true) (hk : kindsValid i s = true)
    (hr : rangesValid i = true) (hv : valuesValid i s = true) : AnswersOk s (exec i s) := by
  have ht := sourcesTagged_of_kindsValid hk
  cases hacc : i.access with
  | some p =>
    have hval := validate_of_access ht hacc
    rw [if_neg (by simp [hk]), if_neg (by simp [hr])] at hval
    exact answersOk_of_validate_ok hw ht hacc hval
  | none =>
    cases i with
    | load | load1 | load2 | load3 | store | store1 | store2 | store3 => cases hacc
    | check k a => exact ⟨_, 0, if_pos (ht.one rfl), rfl, rfl⟩
    | extract k a x =>
      exact ⟨_, _, (execExtract_of_tag (ht.one rfl)).trans (if_pos hr), rfl, rfl⟩
    | replace k vd a x y =>
      exact ⟨_, _, (execReplace_of_tag (ht.one rfl)).trans (if_pos hr), rfl, rfl⟩
    | splat k vd x => exact answersOk_complete_setReg ..
    | cons k vd argc x => exact ⟨_, 0, if_pos (of_decide_eq_true hw), rfl, rfl⟩
    | add k vd a b | sub k vd a b | mul k vd a b | min k vd a b | max k vd a b =>
      exact answersOk_binary ((isSome_numericBinary ..).trans hw) (ht.two rfl)
    | div k vd a b | minnum k vd a b | maxnum k vd a b =>
      exact answersOk_binary ((isSome_floatBinary ..).trans hw) (ht.two rfl)
    | neg k vd a | abs k vd a => exact answersOk_unary ((isSome_numericUnary ..).trans hw) (ht.one rfl)
    | sqrt k vd a | rcpa k vd a => exact answersOk_unary ((isSome_floatUnary ..).trans hw) (ht.one rfl)
    | eq k vd a b | ne k vd a b | lt k vd a b | le k vd a b | gt k vd a b | ge k vd a b =>
      exact answersOk_binary ((isSome_numericCompare ..).trans hw) (ht.two rfl)
    | and k vd a b | or k vd a b | xor k vd a b =>
      exact answersOk_binary ((isSome_logicBinary ..).trans hw) (ht.two rfl)
    | not k vd a => exact answersOk_unary ((isSome_logicUnary ..).trans hw) (ht.one rfl)
    | sel k vd m t f => exact answersOk_execSel hw (ht.three rfl)
    | selb k vd m t f => exact answersOk_execSelb hw (ht.three rfl)
    | shl k vd a x | shrl k vd a x | shra k vd a x =>
      exact answersOk_unary ((isSome_intUnary ..).trans hw) (ht.one rfl)
    | adds k vd a b | subs k vd a b => exact answersOk_binary ((isSome_narrowBinary ..).trans hw) (ht.two rfl)
    | sad k a b =>
      obtain rfl : k = .i8x16 := of_decide_eq_true hw
      exact ⟨_, _, if_pos (ht.two rfl), rfl, rfl⟩
    | fromf k vd a =>
      obtain rfl : k = .i32x4 := of_decide_eq_true hw
      exact answersOk_execFromf (ht.one rfl) ((isSome_truncLanes_eq_valuesValid ..).trans hv)
    | swz k vd a x => exact ⟨_, _, (execSwz_of_tag hw (ht.one rfl)).trans (if_pos hr), rfl, rfl⟩
    | shuf k vd a b x => exact ⟨_, _, (execShuf_of_tag hw (ht.two rfl)).trans (if_pos hr), rfl, rfl⟩
    | bcast k target vd a => exact answersOk_execBcast hw (ht.one rfl)

/-! ## The first error decides how a command ends -/

/-- The answer for a first error, or for none: the error is taken, or the command ends with OK. -/
def AnswersAs (s : State) (r : Result) : Option Error → Prop
  | some e => r = .next (s.raise e)
  | none => AnswersOk s r

/-- The stages run in the order of 60_exceptions.md R254. -/
theorem exec_answersAs (i : Instr) (s : State) : AnswersAs s (exec i s) (firstError i s) := by
  rw [firstError]
  cases hw : i.wellFormed with
  | false => exact exec_of_illFormed i s hw
  | true =>
    cases hk : kindsValid i s with
    | false => exact exec_of_kindsValid_eq_false i s hw hk
    | true =>
      cases hr : rangesValid i with
      | false => exact exec_of_rangesValid_eq_false i s hw hk hr
      | true =>
        cases hv : valuesValid i s with
        | false => exact exec_of_valuesValid_eq_false i s hw hk hv
        | true => exact answersOk_of_allValid i s hw hk hr hv

/-- The first error that a command word meets: IllegalCommand where it does not decode. -/
def commandError (c : Command) (s : State) : Option Error :=
  match decode c with
  | .ok i => firstError i s
  | .error _ => some .illegalCommand

theorem runCommand_answersAs (c : Command) (s : State) : AnswersAs s (runCommand c s) (commandError c s) := by
  rw [runCommand, commandError]
  cases decode c with
  | ok i => exact exec_answersAs i s
  | error d => rfl

/-- Which error a command meets does not depend on the memory. -/
theorem commandError_of_mem (c : Command) (s : State) (m : Memory) :
    commandError c { s with mem := m } = commandError c s := rfl

theorem expectedStatus_eq (i : Instr) (s : State) :
    expectedStatus i s = (firstError i s).elim .ok Error.status := by
  rw [expectedStatus]
  cases firstError i s <;> rfl

/-- One response, whose status is that of the error, or OK. -/
theorem AnswersAs.response {s : State} {r : Result} {e : Option Error} (h : AnswersAs s r e) :
    ∃ (t : State) (xd : Word), r = .next t ∧ t.host = s.host.tail ∧
      t.responses = s.responses ++ [⟨e.elim .ok Error.status, xd⟩] := by
  cases e with
  | none => exact h
  | some e => exact ⟨_, 0, h, rfl, rfl⟩

/-! ## The obligations -/

/-- Settles O9: a command answers as its first error says, and the status expected of it is that of the first error. -/
theorem statusIsTheFirstErrorMet : Obligations.StatusIsTheFirstErrorMet := by
  intro c s
  obtain ⟨t, xd, hrun, hhost, hresp⟩ := (runCommand_answersAs c s).response
  refine ⟨t, xd, hrun, hhost, hresp.trans ?_⟩
  rw [commandError]
  cases decode c with
  | ok i => dsimp only; rw [expectedStatus_eq]
  | error d => rfl

/-- Settles O10: a command that did not answer OK met an error; over any other memory it meets the same one, and taking
an error changes nothing but the events and the responses. -/
theorem failedCommandChangesNothing : Obligations.FailedCommandChangesNothing := by
  intro c s t st xd ht hresp hst m
  obtain ⟨u, xd', hrun, -, hu⟩ := (runCommand_answersAs c s).response
  obtain rfl : u = t := by rw [hrun] at ht; injection ht
  cases List.append_cancel_left (hu.symm.trans hresp)
  have hans := runCommand_answersAs c { s with mem := m }
  rw [commandError_of_mem] at hans
  cases he : commandError c s with
  | none => rw [he] at hst; exact absurd rfl hst
  | some e => rw [he] at hans; exact hans

end Sys2Proof.Machine

/-! SUPPORT. O1, O2, O3 and O4 (30_encoding.md R61 to R70, R76, R77). The decoder inverts the encoder on the instruction
word, whatever the operand words are (`decode_encode_insn`), and what it accepts is well-formed and encoded by that word
(`encodes_of_decode`). Both turn on one lemma per use of the word's fields (R65). -/

namespace Sys2Proof

-- As in Tests/Slice0.lean: in the joined text, proofs elaborated side by side can run Lean out of threads.
set_option Elab.async false

/-! ## The operand words of an instruction -/

/-- The instruction with the operand words that it holds taken from x (30_encoding.md R67, log entry 10). -/
def Instr.withWords (i : Instr) (x : Operands) : Instr :=
  match i with
  | .extract k a _ => .extract k a x[0]
  | .replace k d a _ _ => .replace k d a x[0] x[1]
  | .splat k d _ => .splat k d x[0]
  | .cons k d argc _ => .cons k d argc x
  | .shl k d a _ => .shl k d a x[0]
  | .shrl k d a _ => .shrl k d a x[0]
  | .shra k d a _ => .shra k d a x[0]
  | .swz k d a _ => .swz k d a x
  | .shuf k d a b _ => .shuf k d a b x
  | .load k d _ => .load k d (bufferOf x)
  | .load1 k d _ => .load1 k d (bufferOf x)
  | .load2 k d _ => .load2 k d (bufferOf x)
  | .load3 k d _ => .load3 k d (bufferOf x)
  | .store k a _ => .store k a (bufferOf x)
  | .store1 k a _ => .store1 k a (bufferOf x)
  | .store2 k a _ => .store2 k a (bufferOf x)
  | .store3 k a _ => .store3 k a (bufferOf x)
  | i => i

/-- The encoder writes the operand words that the instruction holds. -/
theorem Instr.withWords_encode (i : Instr) : i.withWords (encode i).x = i := by cases i <;> rfl

/-! ## Decoding an encoded word -/

/-- The kind check passes on the code of a legal kind. -/
theorem decodeKind_of_legal {u : Bool} {legal : List Kind} {w : InsnWord} {k : Kind} (hu : u = true)
    (hk : kField w = k.code) (hl : k ∈ legal) : decodeKind u legal w = .ok k :=
  (decodeKind_ok_iff u legal w k).2 ⟨hu, hk, hl⟩

/-- Decoding the word of a well-formed instruction, with any operand words. -/
theorem decode_encode_insn (i : Instr) (x : Operands) (hw : i.wellFormed = true) :
    decode ⟨(encode i).insn, x⟩ = .ok (i.withWords x) := by
  cases i with
  | check k a | extract k a y =>
    simp only [encode, decode, opField_wordR]
    simp [Instr.withWords, decodeKind, unusedTest, mem_allKinds, Except.map, vs1Of]
  | replace k d a y z =>
    simp only [encode, decode, opField_wordR]
    simp [Instr.withWords, decodeKind, unusedUnary, mem_allKinds, Except.map, vdOf, vs1Of]
  | splat k d y =>
    simp only [encode, decode, opField_wordR]
    simp [Instr.withWords, decodeKind, unusedSplat, mem_allKinds, Except.map, vdOf]
  | cons k d argc y =>
    have hn : argc.val ≤ k.lanes := of_decide_eq_true hw
    simp only [encode, decode, opField_wordC]
    simp [Instr.withWords, decodeKind, unusedCons, mem_allKinds, vdOf, argcOf, hn]
  | add k d a b | sub k d a b | mul k d a b | min k d a b | max k d a b | eq k d a b | ne k d a b | lt k d a b
  | le k d a b | gt k d a b | ge k d a b | shuf k d a b y =>
    have hl := (mem_numericKinds k).2 hw
    simp only [encode, decode, opField_wordR]
    simp [Instr.withWords, decodeKind, unusedBinary, hl, Except.map, vdOf, vs1Of, vs2Of]
  | div k d a b | minnum k d a b | maxnum k d a b =>
    have hl := (mem_floatKinds k).2 hw
    simp only [encode, decode, opField_wordR]
    simp [Instr.withWords, decodeKind, unusedBinary, hl, Except.map, vdOf, vs1Of, vs2Of]
  | and k d a b | or k d a b | xor k d a b =>
    have hl := (mem_logicKinds k).2 hw
    simp only [encode, decode, opField_wordR]
    simp [Instr.withWords, decodeKind, unusedBinary, hl, Except.map, vdOf, vs1Of, vs2Of]
  | adds k d a b | subs k d a b =>
    have hl := (mem_narrowKinds k).2 hw
    simp only [encode, decode, opField_wordR]
    simp [Instr.withWords, decodeKind, unusedBinary, hl, Except.map, vdOf, vs1Of, vs2Of]
  | neg k d a | abs k d a | swz k d a y =>
    have hl := (mem_numericKinds k).2 hw
    simp only [encode, decode, opField_wordR]
    simp [Instr.withWords, decodeKind, unusedUnary, hl, Except.map, vdOf, vs1Of]
  | sqrt k d a | rcpa k d a =>
    have hl := (mem_floatKinds k).2 hw
    simp only [encode, decode, opField_wordR]
    simp [Instr.withWords, decodeKind, unusedUnary, hl, Except.map, vdOf, vs1Of]
  | not k d a =>
    have hl := (mem_logicKinds k).2 hw
    simp only [encode, decode, opField_wordR]
    simp [Instr.withWords, decodeKind, unusedUnary, hl, Except.map, vdOf, vs1Of]
  | shl k d a y | shrl k d a y | shra k d a y =>
    have hl := (mem_intKinds k).2 hw
    simp only [encode, decode, opField_wordR]
    simp [Instr.withWords, decodeKind, unusedUnary, hl, Except.map, vdOf, vs1Of]
  | fromf k d a =>
    obtain rfl : k = .i32x4 := of_decide_eq_true hw
    simp only [encode, decode, opField_wordR]
    simp [Instr.withWords, decodeKind, unusedUnary, Except.map, vdOf, vs1Of]
  | sad k a b =>
    obtain rfl : k = .i8x16 := of_decide_eq_true hw
    simp only [encode, decode, opField_wordR]
    simp [Instr.withWords, decodeKind, unusedSad, Except.map, vs1Of, vs2Of]
  | sel k d a b c =>
    have hl := (mem_numericKinds k).2 hw
    simp only [encode, decode, opField_wordR]
    simp [Instr.withWords, decodeKind, unusedTernary, hl, Except.map, vdOf, vs1Of, vs2Of, vs3Of]
  | selb k d a b c =>
    have hl := (mem_intKinds k).2 hw
    simp only [encode, decode, opField_wordR]
    simp [Instr.withWords, decodeKind, unusedTernary, hl, Except.map, vdOf, vs1Of, vs2Of, vs3Of]
  | bcast k t d a =>
    obtain ⟨hk, ht⟩ := Bool.and_eq_true_iff.1 hw
    have hl := (mem_numericKinds k).2 hk
    have hlt := (mem_numericKinds t).2 ht
    simp only [encode, decode, opField_wordR]
    simp [Instr.withWords, decodeKind, unusedBcast, hl, hlt, vdOf, vs1Of]
  | load k d b =>
    have hl := (mem_numericKinds k).2 hw
    simp only [encode, decode, opField_wordR, auxField_wordR]
    simp [Instr.withWords, decodeKind, unusedLoad, hl, Except.map, vdOf]
  | load1 k d b =>
    have hl := (mem_numericKinds k).2 (Bool.and_eq_true_iff.1 hw).1
    simp only [encode, decode, opField_wordR, auxField_wordR]
    simp [Instr.withWords, decodeKind, unusedLoad, hl, Except.map, vdOf]
  | load2 k d b =>
    have hl := (mem_prefixKinds k).1.2 hw
    simp only [encode, decode, opField_wordR, auxField_wordR]
    simp [Instr.withWords, decodeKind, unusedLoad, hl, Except.map, vdOf]
  | load3 k d b =>
    have hl := (mem_prefixKinds k).2.2 hw
    simp only [encode, decode, opField_wordR, auxField_wordR]
    simp [Instr.withWords, decodeKind, unusedLoad, hl, Except.map, vdOf]
  | store k a b =>
    have hl := (mem_numericKinds k).2 hw
    simp only [encode, decode, opField_wordR, auxField_wordR]
    simp [Instr.withWords, decodeKind, unusedStore, hl, Except.map, vs1Of]
  | store1 k a b =>
    have hl := (mem_numericKinds k).2 (Bool.and_eq_true_iff.1 hw).1
    simp only [encode, decode, opField_wordR, auxField_wordR]
    simp [Instr.withWords, decodeKind, unusedStore, hl, Except.map, vs1Of]
  | store2 k a b =>
    have hl := (mem_prefixKinds k).1.2 hw
    simp only [encode, decode, opField_wordR, auxField_wordR]
    simp [Instr.withWords, decodeKind, unusedStore, hl, Except.map, vs1Of]
  | store3 k a b =>
    have hl := (mem_prefixKinds k).2.2 hw
    simp only [encode, decode, opField_wordR, auxField_wordR]
    simp [Instr.withWords, decodeKind, unusedStore, hl, Except.map, vs1Of]

/-! ## The word of a decoded command, by the fields it uses (30_encoding.md R65) -/

section
variable {w : InsnWord} {k : Kind} {op : BitVec 8} (hop : opField w = op) (hk : kField w = k.code)
include hop hk

theorem wordR_of_unusedTest (hu : unusedTest w = true) :
    wordR 0#4 0#4 0#4 (regBits (vs1Of w)) 0#4 k.code op = w := by
  obtain ⟨hd, h2, h3, ha⟩ := of_decide_eq_true hu
  conv_rhs => rw [← wordR_fields w, hop, hk, hd, h2, h3, ha]
  rfl

theorem wordR_of_unusedUnary (hu : unusedUnary w = true) :
    wordR 0#4 0#4 0#4 (regBits (vs1Of w)) (regBits (vdOf w)) k.code op = w := by
  obtain ⟨h2, h3, ha⟩ := of_decide_eq_true hu
  conv_rhs => rw [← wordR_fields w, hop, hk, h2, h3, ha]
  rfl

theorem wordR_of_unusedBinary (hu : unusedBinary w = true) :
    wordR 0#4 0#4 (regBits (vs2Of w)) (regBits (vs1Of w)) (regBits (vdOf w)) k.code op = w := by
  obtain ⟨h3, ha⟩ := of_decide_eq_true hu
  conv_rhs => rw [← wordR_fields w, hop, hk, h3, ha]
  rfl

theorem wordR_of_unusedTernary (hu : unusedTernary w = true) :
    wordR 0#4 (regBits (vs3Of w)) (regBits (vs2Of w)) (regBits (vs1Of w)) (regBits (vdOf w)) k.code op = w := by
  have ha : auxField w = 0 := of_decide_eq_true hu
  conv_rhs => rw [← wordR_fields w, hop, hk, ha]
  rfl

theorem wordR_of_unusedSplat (hu : unusedSplat w = true) :
    wordR 0#4 0#4 0#4 0#4 (regBits (vdOf w)) k.code op = w := by
  obtain ⟨h1, h2, h3, ha⟩ := of_decide_eq_true hu
  conv_rhs => rw [← wordR_fields w, hop, hk, h1, h2, h3, ha]
  rfl

theorem wordR_of_unusedSad (hu : unusedSad w = true) :
    wordR 0#4 0#4 (regBits (vs2Of w)) (regBits (vs1Of w)) 0#4 k.code op = w := by
  obtain ⟨hd, h3, ha⟩ := of_decide_eq_true hu
  conv_rhs => rw [← wordR_fields w, hop, hk, hd, h3, ha]
  rfl

theorem wordR_of_unusedBcast {aux : BitVec 4} (ha : auxField w = aux) (hu : unusedBcast w = true) :
    wordR aux 0#4 0#4 (regBits (vs1Of w)) (regBits (vdOf w)) k.code op = w := by
  obtain ⟨h2, h3⟩ := of_decide_eq_true hu
  conv_rhs => rw [← wordR_fields w, hop, hk, h2, h3, ha]
  rfl

theorem wordR_of_unusedLoad {aux : BitVec 4} (ha : auxField w = aux) (hu : unusedLoad w = true) :
    wordR aux 0#4 0#4 0#4 (regBits (vdOf w)) k.code op = w := by
  obtain ⟨h1, h2, h3⟩ := of_decide_eq_true hu
  conv_rhs => rw [← wordR_fields w, hop, hk, h1, h2, h3, ha]
  rfl

theorem wordR_of_unusedStore {aux : BitVec 4} (ha : auxField w = aux) (hu : unusedStore w = true) :
    wordR aux 0#4 0#4 (regBits (vs1Of w)) 0#4 k.code op = w := by
  obtain ⟨hd, h2, h3⟩ := of_decide_eq_true hu
  conv_rhs => rw [← wordR_fields w, hop, hk, hd, h2, h3, ha]
  rfl

theorem wordC_of_unusedCons (hu : unusedCons w = true) :
    wordC (BitVec.ofFin (w := 5) (argcOf w)) (regBits (vdOf w)) k.code op = w := by
  have h := wordC_fields w (of_decide_eq_true hu)
  rw [hop, hk] at h
  exact h

end

/-! ## What decodes is well-formed and encoded by its word -/

/-- The instruction is well-formed and its instruction word is w. -/
def Encodes (i : Instr) (w : InsnWord) : Prop := i.wellFormed = true ∧ (encode i).insn = w

/-- A row of the decoder that only checks unused fields and kind. -/
theorem encodes_of_map {u : Bool} {legal : List Kind} {w : InsnWord} {f : Kind → Instr} {i : Instr}
    (h : (decodeKind u legal w).map f = .ok i)
    (hf : ∀ k, u = true → kField w = k.code → k ∈ legal → Encodes (f k) w) : Encodes i w := by
  cases hd : decodeKind u legal w with
  | error e => rw [hd] at h; cases h
  | ok k =>
    rw [hd] at h
    cases h
    obtain ⟨hu, hk, hl⟩ := (decodeKind_ok_iff u legal w k).1 hd
    exact hf k hu hk hl

/-- Every numeric kind has more than one lane. -/
theorem Kind.one_lt_lanes_of_isNumeric {k : Kind} (h : k.isNumeric = true) :
    (k.isNumeric && decide (1 < k.lanes)) = true := by
  cases k with
  | f64x2 | f32x4 | i32x4 | i16x8 | i8x16 => rfl
  | b2 | b4 | b8 | b16 => cases h

/-- The four LOAD commands, told apart by `aux` (30_encoding.md R76). -/
theorem encodes_of_decode_load {c : Command} {i : Instr} (hop : opField c.insn = 0x50#8) (h : decode c = .ok i) :
    Encodes i c.insn := by
  simp only [decode, hop] at h
  split at h
  next ha =>
    exact encodes_of_map h fun k hu hk hl => ⟨(mem_numericKinds k).1 hl, wordR_of_unusedLoad hop hk ha hu⟩
  next ha =>
    exact encodes_of_map h fun k hu hk hl => ⟨Kind.one_lt_lanes_of_isNumeric ((mem_numericKinds k).1 hl),
      wordR_of_unusedLoad hop hk ha hu⟩
  next ha =>
    exact encodes_of_map h fun k hu hk hl => ⟨(mem_prefixKinds k).1.1 hl, wordR_of_unusedLoad hop hk ha hu⟩
  next ha =>
    exact encodes_of_map h fun k hu hk hl => ⟨(mem_prefixKinds k).2.1 hl, wordR_of_unusedLoad hop hk ha hu⟩
  · cases h

/-- The four STORE commands, told apart by `aux` (30_encoding.md R76). -/
theorem encodes_of_decode_store {c : Command} {i : Instr} (hop : opField c.insn = 0x51#8) (h : decode c = .ok i) :
    Encodes i c.insn := by
  simp only [decode, hop] at h
  split at h
  next ha =>
    exact encodes_of_map h fun k hu hk hl => ⟨(mem_numericKinds k).1 hl, wordR_of_unusedStore hop hk ha hu⟩
  next ha =>
    exact encodes_of_map h fun k hu hk hl => ⟨Kind.one_lt_lanes_of_isNumeric ((mem_numericKinds k).1 hl),
      wordR_of_unusedStore hop hk ha hu⟩
  next ha =>
    exact encodes_of_map h fun k hu hk hl => ⟨(mem_prefixKinds k).1.1 hl, wordR_of_unusedStore hop hk ha hu⟩
  next ha =>
    exact encodes_of_map h fun k hu hk hl => ⟨(mem_prefixKinds k).2.1 hl, wordR_of_unusedStore hop hk ha hu⟩
  · cases h

/-- BCAST, whose target kind is in `aux` (30_encoding.md R76). -/
theorem encodes_of_decode_bcast {c : Command} {i : Instr} (hop : opField c.insn = 0x48#8) (h : decode c = .ok i) :
    Encodes i c.insn := by
  simp only [decode, hop] at h
  split at h
  · cases h
  next k hd =>
    obtain ⟨hu, hk, hl⟩ := (decodeKind_ok_iff ..).1 hd
    split at h
    · cases h
    next t ht =>
      split at h
      next hlt =>
        cases h
        refine ⟨Bool.and_eq_true_iff.2 ⟨(mem_numericKinds k).1 hl, (mem_numericKinds t).1 hlt⟩, ?_⟩
        exact wordR_of_unusedBcast hop hk (Kind.code_of_ofCode ht).symm hu
      · cases h

/-- CONS, whose count is in format C (30_encoding.md R62, R76). -/
theorem encodes_of_decode_cons {c : Command} {i : Instr} (hop : opField c.insn = 0x05#8) (h : decode c = .ok i) :
    Encodes i c.insn := by
  simp only [decode, hop] at h
  split at h
  · cases h
  next k hd =>
    obtain ⟨hu, hk, -⟩ := (decodeKind_ok_iff ..).1 hd
    split at h
    next hn =>
      cases h
      exact ⟨decide_eq_true hn, wordC_of_unusedCons hop hk hu⟩
    · cases h

/-- The rows of 30_encoding.md R64, in the decoder's order. -/
theorem encodes_of_decode {c : Command} {i : Instr} (h : decode c = .ok i) : Encodes i c.insn := by
  have hd := h
  unfold decode at h
  dsimp only at h
  split at h
  case h_1 op | h_2 op => exact encodes_of_map h fun k hu hk _ => ⟨rfl, wordR_of_unusedTest op hk hu⟩
  case h_3 op => exact encodes_of_map h fun k hu hk _ => ⟨rfl, wordR_of_unusedUnary op hk hu⟩
  case h_4 op => exact encodes_of_map h fun k hu hk _ => ⟨rfl, wordR_of_unusedSplat op hk hu⟩
  case h_5 op => exact encodes_of_decode_cons op hd
  case h_6 op | h_7 op | h_8 op | h_14 op | h_15 op | h_18 op | h_19 op | h_20 op | h_21 op | h_22 op | h_23 op
      | h_38 op =>
    exact encodes_of_map h fun k hu hk hl => ⟨(mem_numericKinds k).1 hl, wordR_of_unusedBinary op hk hu⟩
  case h_9 op | h_16 op | h_17 op =>
    exact encodes_of_map h fun k hu hk hl => ⟨(mem_floatKinds k).1 hl, wordR_of_unusedBinary op hk hu⟩
  case h_10 op | h_11 op | h_37 op =>
    exact encodes_of_map h fun k hu hk hl => ⟨(mem_numericKinds k).1 hl, wordR_of_unusedUnary op hk hu⟩
  case h_12 op | h_13 op =>
    exact encodes_of_map h fun k hu hk hl => ⟨(mem_floatKinds k).1 hl, wordR_of_unusedUnary op hk hu⟩
  case h_24 op | h_25 op | h_26 op =>
    exact encodes_of_map h fun k hu hk hl => ⟨(mem_logicKinds k).1 hl, wordR_of_unusedBinary op hk hu⟩
  case h_27 op =>
    exact encodes_of_map h fun k hu hk hl => ⟨(mem_logicKinds k).1 hl, wordR_of_unusedUnary op hk hu⟩
  case h_28 op =>
    exact encodes_of_map h fun k hu hk hl => ⟨(mem_numericKinds k).1 hl, wordR_of_unusedTernary op hk hu⟩
  case h_29 op =>
    exact encodes_of_map h fun k hu hk hl => ⟨(mem_intKinds k).1 hl, wordR_of_unusedTernary op hk hu⟩
  case h_30 op | h_31 op | h_32 op =>
    exact encodes_of_map h fun k hu hk hl => ⟨(mem_intKinds k).1 hl, wordR_of_unusedUnary op hk hu⟩
  case h_33 op | h_34 op =>
    exact encodes_of_map h fun k hu hk hl => ⟨(mem_narrowKinds k).1 hl, wordR_of_unusedBinary op hk hu⟩
  case h_35 op =>
    exact encodes_of_map h fun k hu hk hl =>
      ⟨decide_eq_true (List.mem_singleton.1 hl), wordR_of_unusedSad op hk hu⟩
  case h_36 op =>
    exact encodes_of_map h fun k hu hk hl =>
      ⟨decide_eq_true (List.mem_singleton.1 hl), wordR_of_unusedUnary op hk hu⟩
  case h_39 op => exact encodes_of_decode_bcast op hd
  case h_40 op => exact encodes_of_decode_load op hd
  case h_41 op => exact encodes_of_decode_store op hd
  case h_42 => cases h

/-! ## Rows of the opcode table -/

/-- The rows of 30_encoding.md R64, one for each constructor of Instr. -/
def opcodeRows : List OpcodeRow :=
  let x : Operands := words0
  let b : Buffer := bufferOf x
  let k : Kind := .i32x4
  ([.check k 0, .extract k 0 0, .replace k 0 0 0 0, .splat k 0 0, .cons k 0 0 x, .add k 0 0 0, .sub k 0 0 0,
    .mul k 0 0 0, .div k 0 0 0, .neg k 0 0, .abs k 0 0, .sqrt k 0 0, .rcpa k 0 0, .min k 0 0 0, .max k 0 0 0,
    .minnum k 0 0 0, .maxnum k 0 0 0, .eq k 0 0 0, .ne k 0 0 0, .lt k 0 0 0, .le k 0 0 0, .gt k 0 0 0, .ge k 0 0 0,
    .and k 0 0 0, .or k 0 0 0, .xor k 0 0 0, .not k 0 0, .sel k 0 0 0 0, .selb k 0 0 0 0, .shl k 0 0 0,
    .shrl k 0 0 0, .shra k 0 0 0, .adds k 0 0 0, .subs k 0 0 0, .sad k 0 0, .fromf k 0 0, .swz k 0 0 x,
    .shuf k 0 0 0 x, .bcast k k 0 0, .load k 0 b, .load1 k 0 b, .load2 k 0 b, .load3 k 0 b, .store k 0 b,
    .store1 k 0 b, .store2 k 0 b, .store3 k 0 b] : List Instr).map Instr.row

theorem Instr.row_mem_opcodeRows (i : Instr) : i.row ∈ opcodeRows := by
  cases i <;> simp only [opcodeRows, List.map, Instr.row, List.mem_cons, true_or, or_true]

/-- Two rows that agree on the bits that both masks take are one row: the matches cannot both hold of a word. -/
theorem opcodeRows_disjoint : ∀ p ∈ opcodeRows, ∀ q ∈ opcodeRows,
    p.matchBits &&& q.mask = q.matchBits &&& p.mask → p = q := by decide

/-- AND of two words of format R, field by field. -/
theorem wordR_and (a b c d e f a' b' c' d' e' f' : BitVec 4) (g g' : BitVec 8) :
    wordR a b c d e f g &&& wordR a' b' c' d' e' f' g' =
      wordR (a &&& a') (b &&& b') (c &&& c') (d &&& d') (e &&& e') (f &&& f') (g &&& g') := by
  apply BitVec.eq_of_getLsbD_eq
  intro i hi
  simp only [BitVec.getLsbD_and, getLsbD_wordR]
  repeat' split
  all_goals rfl

section
variable (aux vs3 vs2 vs1 vd k : BitVec 4) (op : BitVec 8)

theorem and_fifteen (b : BitVec 4) : b &&& 15#4 = b := by revert b; decide
theorem and_twoFiftyFive (b : BitVec 8) : b &&& 255#8 = b := BitVec.and_allOnes

theorem wordR_and_maskTest : wordR aux vs3 vs2 vs1 vd k op &&& 0xFFF0F0FF#32 = wordR aux vs3 vs2 0#4 vd 0#4 op := by
  rw [show 0xFFF0F0FF#32 = wordR 15#4 15#4 15#4 0#4 15#4 0#4 255#8 from rfl, wordR_and]
  simp only [and_fifteen, and_twoFiftyFive, BitVec.and_zero]

theorem wordR_and_maskUnary : wordR aux vs3 vs2 vs1 vd k op &&& 0xFFF000FF#32 = wordR aux vs3 vs2 0#4 0#4 0#4 op := by
  rw [show 0xFFF000FF#32 = wordR 15#4 15#4 15#4 0#4 0#4 0#4 255#8 from rfl, wordR_and]
  simp only [and_fifteen, and_twoFiftyFive, BitVec.and_zero]

theorem wordR_and_maskBinary : wordR aux vs3 vs2 vs1 vd k op &&& 0xFF0000FF#32 = wordR aux vs3 0#4 0#4 0#4 0#4 op := by
  rw [show 0xFF0000FF#32 = wordR 15#4 15#4 0#4 0#4 0#4 0#4 255#8 from rfl, wordR_and]
  simp only [and_fifteen, and_twoFiftyFive, BitVec.and_zero]

theorem wordR_and_maskTernary : wordR aux vs3 vs2 vs1 vd k op &&& 0xF00000FF#32 = wordR aux 0#4 0#4 0#4 0#4 0#4 op := by
  rw [show 0xF00000FF#32 = wordR 15#4 0#4 0#4 0#4 0#4 0#4 255#8 from rfl, wordR_and]
  simp only [and_fifteen, and_twoFiftyFive, BitVec.and_zero]

theorem wordR_and_maskSplat : wordR aux vs3 vs2 vs1 vd k op &&& 0xFFFF00FF#32 = wordR aux vs3 vs2 vs1 0#4 0#4 op := by
  rw [show 0xFFFF00FF#32 = wordR 15#4 15#4 15#4 15#4 0#4 0#4 255#8 from rfl, wordR_and]
  simp only [and_fifteen, and_twoFiftyFive, BitVec.and_zero]

theorem wordR_and_maskSad : wordR aux vs3 vs2 vs1 vd k op &&& 0xFF00F0FF#32 = wordR aux vs3 0#4 0#4 vd 0#4 op := by
  rw [show 0xFF00F0FF#32 = wordR 15#4 15#4 0#4 0#4 15#4 0#4 255#8 from rfl, wordR_and]
  simp only [and_fifteen, and_twoFiftyFive, BitVec.and_zero]

theorem wordR_and_maskBcast : wordR aux vs3 vs2 vs1 vd k op &&& 0x0FF000FF#32 = wordR 0#4 vs3 vs2 0#4 0#4 0#4 op := by
  rw [show 0x0FF000FF#32 = wordR 0#4 15#4 15#4 0#4 0#4 0#4 255#8 from rfl, wordR_and]
  simp only [and_fifteen, and_twoFiftyFive, BitVec.and_zero]

/-- The mask of CONS takes `op` and bits 31:21, which format C has zero (30_encoding.md R62). -/
theorem wordC_and_maskCons (argc : BitVec 5) : wordC argc vd k op &&& 0xFFE000FF#32 = op.setWidth 32 := by
  apply BitVec.eq_of_getLsbD_eq
  intro i hi
  rw [BitVec.getLsbD_and, getLsbD_wordC, BitVec.getLsbD_setWidth]
  interval_cases i <;> simp

end

/-- The word of an instruction has its row's `match` under its row's `mask`. -/
theorem encode_insn_and_mask (i : Instr) : (encode i).insn &&& i.row.mask = i.row.matchBits := by
  cases i with
  | check | extract | store | store1 | store2 | store3 => exact wordR_and_maskTest ..
  | replace | neg | abs | sqrt | rcpa | not | shl | shrl | shra | fromf | swz => exact wordR_and_maskUnary ..
  | splat | load | load1 | load2 | load3 => exact wordR_and_maskSplat ..
  | cons => exact wordC_and_maskCons ..
  | add | sub | mul | div | min | max | minnum | maxnum | eq | ne | lt | le | gt | ge | and | or | xor | adds | subs
  | shuf => exact wordR_and_maskBinary ..
  | sel | selb => exact wordR_and_maskTernary ..
  | sad => exact wordR_and_maskSad ..
  | bcast => exact wordR_and_maskBcast ..

/-! ## The obligations -/

/-- Settles O1: decoding the word of the instruction with its own operand words. -/
theorem decodeInvertsEncode : Obligations.DecodeInvertsEncode := fun i hw =>
  (decode_encode_insn i (encode i).x hw).trans (congrArg Except.ok i.withWords_encode)

/-- Settles O2: a word that decodes is the encoding of what it decodes to, and a word that encodes a well-formed
instruction decodes. -/
theorem everyWordIsOneCommandOrIllegal : Obligations.EveryWordIsOneCommandOrIllegal := by
  intro c
  cases h : decode c with
  | ok i => exact .inl ⟨i, rfl, encodes_of_decode h⟩
  | error e =>
    refine .inr ⟨⟨e, rfl⟩, fun i hw hi => ?_⟩
    have hok := decode_encode_insn i c.x hw
    rw [hi] at hok
    cases h.symm.trans hok

/-- Settles O3: the masked word of a command is its row's `match`; and a word masked by two rows, in either order,
forces the two to be one. -/
theorem eachWordBelongsToOneRow : Obligations.EachWordBelongsToOneRow := by
  constructor
  · intro c i h
    rw [← (encodes_of_decode h).2]
    exact encode_insn_and_mask i
  · intro w i j hi hj
    refine opcodeRows_disjoint _ i.row_mem_opcodeRows _ j.row_mem_opcodeRows ?_
    rw [← hi, ← hj, BitVec.and_assoc, BitVec.and_assoc, BitVec.and_comm i.row.mask]

/-- Float64x2 has no partial load of two lanes (30_encoding.md R76). -/
theorem decode_load2_f64x2 (x : Operands) : decode ⟨0x20000150#32, x⟩ = .error .illegalKind := by
  have hop : opField 0x20000150#32 = 0x50#8 := rfl
  have haux : auxField 0x20000150#32 = 2#4 := rfl
  have hkind : decodeKind (unusedLoad 0x20000150#32) prefixKinds 0x20000150#32 = .error .illegalKind := by decide
  simp only [decode, hop, haux, hkind]
  rfl

/-- Settles O4: the six words are those that the encoder writes, and the seventh has an illegal kind. -/
theorem sampleWordsDecode : Obligations.SampleWordsDecode := fun x =>
  ⟨decode_encode_insn (.cons .i32x4 1 2 x) x rfl, decode_encode_insn (.add .i32x4 0 1 2) x rfl,
    decode_encode_insn (.sel .i32x4 0 1 2 3) x rfl, decode_encode_insn (.bcast .i32x4 .i8x16 0 1) x rfl,
    decode_encode_insn (.load2 .f32x4 0 (bufferOf x)) x rfl, decode_encode_insn (.store1 .i8x16 1 (bufferOf x)) x rfl,
    decode_load2_f64x2 x⟩

end Sys2Proof

/-! SUPPORT. Steps, responses and frames (O5 to O8, O12 to O14, O18, O19, O59, O60): all read off `exec_ending`, which
lists the ways in which a command can end, and its counterpart for a command word. -/

namespace Sys2Proof

/-- The STORE commands go through SCRATCH (46_load_store.md R229). -/
theorem Instr.usesScratch_of_isStore {i : Instr} (h : i.isStore = true) : i.usesScratch = true := by
  cases i with
  | store | store1 | store2 | store3 => rfl
  | _ => cases h

end Sys2Proof

namespace Sys2Proof.Machine

-- As in Tests/Slice0.lean: in the joined text, proofs elaborated side by side can run Lean out of threads.
set_option Elab.async false

/-! ## What a command leaves, whichever way it ends -/

theorem ending_of_exec {i : Instr} {s t : State} (h : exec i s = .next t) : Ending i s t := by
  obtain ⟨u, hu, hend⟩ := exec_ending i s
  obtain rfl : u = t := by rw [hu] at h; injection h
  exact hend

section
variable {i : Instr} {s t : State} (h : Ending i s t)
include h

theorem Ending.host_eq : t.host = s.host.tail := by cases h <;> rfl

theorem Ending.freeCount_eq : t.freeCount = s.freeCount := by cases h <;> rfl

/-- One response; it carries a scalar only from EXTRACT and SAD with status OK. -/
theorem Ending.responses_eq : ∃ (st : Status) (xd : Word), t.responses = s.responses ++ [⟨st, xd⟩] ∧
    (i.hasScalarResult = false ∨ st ≠ .ok → xd = 0) := by
  cases h with
  | failed e => exact ⟨e.status, 0, rfl, fun _ => rfl⟩
  | answered xd hd hx => exact ⟨.ok, xd, rfl, fun hn => hx (hn.resolve_right fun hne => hne rfl)⟩
  | wrote | staged | stored => exact ⟨.ok, 0, rfl, fun _ => rfl⟩

theorem Ending.reg_eq_of_ne {r : VIdx} (hr : i.dest ≠ some r) : t.reg r = s.reg r := by
  cases h with
  | failed | answered | stored => rfl
  | wrote vd k b hd =>
    have hne : vd ≠ r := fun he => hr (he ▸ hd)
    exact State.setReg_reg_of_ne s k b hne
  | staged vd k b hd =>
    have hne : vd ≠ r := fun he => hr (he ▸ hd)
    exact State.setReg_reg_of_ne (s.setScratch b) k b hne

theorem Ending.mem_eq (hs : i.isStore = false) : t.mem = s.mem := by
  cases h with
  | failed | answered | wrote | staged => rfl
  | stored b a n hd hst => rw [hs] at hst; cases hst

theorem Ending.scratch_eq (hu : i.usesScratch = false) : t.scratch = s.scratch := by
  cases h with
  | failed | answered | wrote => rfl
  | staged vd k b hd hst => rw [hu] at hst; cases hst
  | stored b a n hd hst => cases (Instr.usesScratch_of_isStore hst).symm.trans hu

theorem Ending.wf_mem (hw : Memory.wf s.mem = true) : Memory.wf t.mem = true := by
  cases h with
  | failed | answered | wrote | staged => exact hw
  | stored b a n => exact Memory.wf_memWrite _ _ _ _ hw

end

/-! ## Command words -/

theorem runCommand_of_decode {c : Command} {i : Instr} (h : decode c = .ok i) (s : State) :
    runCommand c s = exec i s := by rw [runCommand, h]

theorem runCommand_of_illegal {c : Command} {e : DecodeError} (h : decode c = .error e) (s : State) :
    runCommand c s = .next (s.raise .illegalCommand) := by rw [runCommand, h, raise_eq]

/-- Every command word answers once. -/
theorem runCommand_next (c : Command) (s : State) : ∃ t rsp, runCommand c s = .next t ∧ t.host = s.host.tail ∧
    t.responses = s.responses ++ [rsp] := by
  obtain ⟨t, xd, ht, hhost, hresp⟩ := (runCommand_answersAs c s).response
  exact ⟨t, _, ht, hhost, hresp⟩

/-! ## Steps by the event at the head -/

section
variable {s : State} {rest : List HostEvent}

theorem step_of_idle (h : s.host = []) : step s = .next s := by rw [step, h]

theorem step_of_command {c : Command} (h : s.host = .command c :: rest) : step s = runCommand c s := by rw [step, h]

theorem step_of_hostWrite {addr : Word} {b : Byte} (h : s.host = .hostWrite addr b :: rest) :
    step s = .next (s.afterHostWrite addr b) := by rw [step, h]

theorem step_of_reset (h : s.host = .reset :: rest) : step s = .next s.afterReset := by rw [step, h]

theorem step_of_resetDuring {c : Command} (h : s.host = .resetDuring c :: rest) :
    step s = .next (s.afterResetDuring (runCommand c s)) := by rw [step, h]

end

/-! ## The obligations on steps and responses -/

/-- Settles O5: the step of a command word that decodes. -/
theorem stepRunsTheDecodedCommand : Obligations.StepRunsTheDecodedCommand := fun s _ _ _ hs hc =>
  (step_of_command hs).trans (runCommand_of_decode hc s)

/-- Settles O6: the step of a command word that does not decode; taking the error changes two fields. -/
theorem illegalWordRaisesIllegalCommand : Obligations.IllegalWordRaisesIllegalCommand := by
  intro s c rest e hs hc
  rw [step_of_command hs, runCommand_of_illegal hc, State.raise, State.respond, hs]
  rfl

/-- Settles O7: by the event at the head; a command answers whatever its word. -/
theorem nothingStopsTheUnit : Obligations.NothingStopsTheUnit := by
  intro s
  cases hs : s.host with
  | nil => exact ⟨_, step_of_idle hs⟩
  | cons ev rest =>
    cases ev with
    | command c =>
      obtain ⟨t, -, ht, -⟩ := runCommand_next c s
      exact ⟨t, (step_of_command hs).trans ht⟩
    | hostWrite addr b => exact ⟨_, step_of_hostWrite hs⟩
    | reset => exact ⟨_, step_of_reset hs⟩
    | resetDuring c => exact ⟨_, step_of_resetDuring hs⟩

/-- A run of one step more, where the first step answers a next state. -/
theorem run_succ_of_step {s t : State} (n : Nat) (h : step s = .next t) :
    core.run (n + 1) s = core.run n t := by
  have hcore : core.step s = .next t := h
  simp only [Host.Core.run, hcore]

/-- Settles O8, by induction on the commands: the first step takes the first command off and adds its response. -/
theorem everyCommandIsAnsweredOnce : Obligations.EveryCommandIsAnsweredOnce := by
  intro cs
  induction cs with
  | nil => exact fun s hs => ⟨s, [], rfl, hs, rfl, (List.append_nil _).symm⟩
  | cons c cs ih =>
    intro s hs
    obtain ⟨t, rsp, ht, hhost, hresp⟩ := runCommand_next c s
    obtain ⟨u, rs, hrun, hidle, hlen, hrs⟩ := ih t (by rw [hhost, hs]; rfl)
    refine ⟨u, rsp :: rs, ?_, hidle, congrArg (· + 1) hlen, ?_⟩
    · exact (run_succ_of_step _ ((step_of_command hs).trans ht)).trans hrun
    · rw [hrs, hresp, List.append_assoc, List.singleton_append]

/-- Settles O12: the one response of the command's ending is the response given. -/
theorem onlyExtractAndSadReturnAScalar : Obligations.OnlyExtractAndSadReturnAScalar := by
  intro i s t st xd ht hresp hn
  obtain ⟨st', xd', hresp', hx⟩ := (ending_of_exec ht).responses_eq
  cases List.append_cancel_left (hresp.symm.trans hresp')
  exact hx hn

/-! ## The obligations on frames -/

/-- Settles O13: by the ways a command can end. -/
theorem onlyTheDestinationRegisterChanges : Obligations.OnlyTheDestinationRegisterChanges :=
  fun _ _ _ _ ht hr => (ending_of_exec ht).reg_eq_of_ne hr

/-- Settles O14: by the ways a command can end; only a STORE command ends with bytes stored. -/
theorem onlyStoresChangeMemory : Obligations.OnlyStoresChangeMemory := fun _ _ _ hs ht a =>
  congrArg (Memory.read · a) ((ending_of_exec ht).mem_eq hs)

/-- Settles O18: by the ways a command can end. -/
theorem onlyStagingCommandsWriteScratch : Obligations.OnlyStagingCommandsWriteScratch :=
  fun _ _ _ hu ht => (ending_of_exec ht).scratch_eq hu

/-- Settles O19: the tag check is all that CHECK does. -/
theorem checkAnswersOk : Obligations.CheckAnswersOk := fun _ _ _ h => if_pos h

/-! ## The obligations on RESET and the host's writes -/

/-- A command abandoned has left the memory as it was or as it would have left it. -/
theorem State.afterResetDuring_mem_or {s u : State} {r : Result} (hr : r = .next u) :
    (s.afterResetDuring r).mem = s.mem ∨ (s.afterResetDuring r).mem = u.mem := by
  rw [State.afterResetDuring_mem, hr]
  split
  · exact .inr rfl
  · exact .inl rfl

/-- Settles O59: both kinds of RESET leave the registers of the reset state. -/
theorem resetAtAnyTime : Obligations.ResetAtAnyTime := by
  constructor
  · intro s rest hs
    exact ⟨_, step_of_reset hs, State.reset_tag, rfl, congrArg List.tail hs, rfl⟩
  · intro s c rest hs
    obtain ⟨u, -, hu, -⟩ := runCommand_next c s
    refine ⟨_, step_of_resetDuring hs, State.reset_tag, congrArg List.tail hs, rfl, ?_⟩
    exact (State.afterResetDuring_mem_or hu).imp_right fun hm => ⟨u, hu, hm⟩

/-- Settles O60: a read after the one write. -/
theorem hostWritesOneByte : Obligations.HostWritesOneByte := by
  intro s addr v rest hs
  refine ⟨_, step_of_hostWrite hs, fun a => ?_, rfl, rfl, congrArg List.tail hs, rfl⟩
  rw [State.afterHostWrite_mem, Memory.read_write]
  simp only [eq_comm]

end Sys2Proof.Machine

/-! SUPPORT. O15, O16, O17, O56, O57, O58. What a command does is an `Effect` that its source registers and the bytes of
its buffer determine (`exec_determined`), and a register that it writes is legal. The invariant, the noninterference of
memory outside the buffer and the invisibility of SCRATCH and of EMPTY payloads are read off that one fact. -/

namespace Sys2Proof

/-- The lanes of a numeric kind fill the payload. -/
theorem Kind.lanes_mul_width_of_isNumeric {k : Kind} (h : k.isNumeric = true) : k.lanes * k.width = 128 := by
  cases k with
  | f64x2 | f32x4 | i32x4 | i16x8 | i8x16 => rfl
  | b2 | b4 | b8 | b16 => cases h

end Sys2Proof

namespace Sys2Proof.Machine

-- As in Tests/Slice0.lean: in the joined text, proofs elaborated side by side can run Lean out of threads.
set_option Elab.async false

/-! ## Bits above the lanes -/

/-- The bits of a payload that belong to no lane of kind k are zero (10_state.md R27). -/
def BitsFit (k : Kind) (b : Payload) : Prop := b >>> (k.lanes * k.width) = 0

theorem bitsFit_of_getLsbD {k : Kind} {b : Payload} (h : ∀ i, k.lanes * k.width ≤ i → b.getLsbD i = false) :
    BitsFit k b := by
  apply BitVec.eq_of_getLsbD_eq
  intro i hi
  rw [BitVec.getLsbD_ushiftRight, h _ (Nat.le_add_right _ _)]
  exact BitVec.getLsbD_zero.symm

theorem BitsFit.getLsbD {k : Kind} {b : Payload} (h : BitsFit k b) {i : Nat} (hi : k.lanes * k.width ≤ i) :
    b.getLsbD i = false := by
  have hbit := congrArg (fun x : Payload => x.getLsbD (i - k.lanes * k.width)) h
  rw [BitVec.getLsbD_ushiftRight, Nat.add_sub_cancel' hi] at hbit
  exact hbit.trans BitVec.getLsbD_zero

theorem bitsFit_pack (k : Kind) (l : Nat → BitVec k.width) : BitsFit k (pack k.width l k.lanes) :=
  bitsFit_of_getLsbD fun _ hi => getLsbD_pack_of_ge _ k.width_pos _ _ _ hi

theorem bitsFit_of_isNumeric {k : Kind} (h : k.isNumeric = true) (b : Payload) : BitsFit k b :=
  bitsFit_of_getLsbD fun _ hi => BitVec.getLsbD_of_ge _ _ (Kind.lanes_mul_width_of_isNumeric h ▸ hi)

/-- Replacing a lane writes no bit above the lanes. -/
theorem BitsFit.replaceLane {k : Kind} {b : Payload} (h : BitsFit k b) {i : Nat} (hi : i < k.lanes)
    (l : BitVec k.width) : BitsFit k (replaceLane k.width b i l) := by
  refine bitsFit_of_getLsbD fun n hn => ?_
  have hlane : (i + 1) * k.width ≤ n := (Nat.mul_le_mul_right _ hi).trans hn
  rw [getLsbD_replaceLane_of_outside _ _ _ _ _ (.inr hlane), h.getLsbD hn]

/-! ## The families of lane operations, kind by kind -/

theorem logicUnary_eq (op : (w : Nat) → BitVec w → BitVec w) {k : Kind} (h : (k.isInt || k.isBool) = true) :
    logicUnary op k = some (map1 k.width k.lanes (op k.width)) := by
  cases k with
  | f64x2 | f32x4 => cases h
  | i32x4 | i16x8 | i8x16 | b2 | b4 | b8 | b16 => rfl

theorem logicBinary_eq (op : (w : Nat) → BitVec w → BitVec w → BitVec w) {k : Kind}
    (h : (k.isInt || k.isBool) = true) : logicBinary op k = some (map2 k.width k.lanes (op k.width)) := by
  cases k with
  | f64x2 | f32x4 => cases h
  | i32x4 | i16x8 | i8x16 | b2 | b4 | b8 | b16 => rfl

/-- A comparison packs one truth value for each lane of its operands' kind. -/
theorem numericCompare_eq (int : (w : Nat) → BitVec w → BitVec w → Bool) (f64 : BitVec 64 → BitVec 64 → Bool)
    (f32 : BitVec 32 → BitVec 32 → Bool) {k : Kind} (h : k.isNumeric = true) :
    ∃ rel, numericCompare int f64 f32 k = some (cmp2 k.width k.lanes rel) := by
  cases k with
  | b2 | b4 | b8 | b16 => cases h
  | f64x2 | f32x4 | i32x4 | i16x8 | i8x16 => exact ⟨_, rfl⟩

theorem bitsFit_cmp2 (k : Kind) {w : Nat} (rel : BitVec w → BitVec w → Bool) (a b : Payload) :
    BitsFit k.boolOf (cmp2 w k.lanes rel a b) := by
  cases k <;> exact bitsFit_pack (Kind.boolOf _) _

/-! ## Effects -/

/-- What a command does to the state, said without the state. -/
inductive Effect where
  /-- It takes an error. -/
  | fail (e : Error)
  /-- It answers a scalar and writes nothing. -/
  | answer (xd : Word)
  /-- It writes a register. -/
  | write (vd : VIdx) (k : Kind) (b : Payload)
  /-- It writes a register through SCRATCH (10_state.md R30). -/
  | stage (vd : VIdx) (k : Kind) (b : Payload)
  /-- It stores n bytes of b from address a on, through SCRATCH (10_state.md R30). -/
  | store (b : Payload) (a : Word) (n : Nat)

/-- The state after the effect. -/
def Effect.apply : Effect → State → State
  | .fail e, s => s.raise e
  | .answer xd, s => s.respond .ok xd
  | .write vd k b, s => (s.setReg vd k b).respond .ok 0
  | .stage vd k b, s => ((s.setScratch b).setReg vd k b).respond .ok 0
  | .store b a n, s => ((s.setScratch b).storeScratch a n).respond .ok 0

/-- A register that the effect writes is legal. -/
def Effect.Fits : Effect → Prop
  | .write _ k b | .stage _ k b => BitsFit k b
  | .fail _ | .answer _ | .store _ _ _ => True

/-- Every register is legal: the second half of the invariant. -/
def State.RegsLegal (s : State) : Prop := ∀ r : VIdx, (s.reg r).legal = true

theorem legal_some_iff (k : Kind) (b : Payload) : (VReg.mk (some k) b).legal = true ↔ BitsFit k b :=
  decide_eq_true_iff

/-- A register is its tag and its payload. -/
theorem State.reg_eq_of_tag {s : State} {r : VIdx} {k : Kind} (h : s.tag r = some k) :
    s.reg r = ⟨some k, s.bits r⟩ := by
  rw [← h]; rfl

theorem State.RegsLegal.bitsFit {s : State} (h : s.RegsLegal) {r : VIdx} {k : Kind} (ht : s.tag r = some k) :
    BitsFit k (s.bits r) := by
  have hr := h r
  rw [State.reg_eq_of_tag ht] at hr
  exact (legal_some_iff k _).1 hr

theorem State.RegsLegal.setReg {s : State} (h : s.RegsLegal) {k : Kind} {b : Payload} (hb : BitsFit k b) (vd : VIdx) :
    (s.setReg vd k b).RegsLegal := by
  intro r
  rw [State.setReg_reg]
  split
  · exact (legal_some_iff k b).2 hb
  · exact h r

/-- A fitting effect keeps every register legal. -/
theorem Effect.Fits.regsLegal {e : Effect} (he : e.Fits) {s : State} (h : s.RegsLegal) : (e.apply s).RegsLegal := by
  cases e with
  | fail | answer | store => exact h
  | write vd k b => exact h.setReg he vd
  | stage vd k b => exact State.RegsLegal.setReg (s := s.setScratch b) h he vd

/-! ## What determines the effect of a command -/

/-- The two states have the same tags, and the same payloads where the tag is not EMPTY. -/
def SameSources (s u : State) : Prop := ∀ r : VIdx, s.tag r = u.tag r ∧ (s.tag r ≠ none → s.bits r = u.bits r)

/-- The two states' memories hold the same in the bytes that the command may read. -/
def SameBytes (i : Instr) (s u : State) : Prop :=
  ∀ (b : Buffer) (n : Nat) (a : Word), i.access = some (b, n) → validate b n = .ok a →
    memRead s.mem a n = memRead u.mem a n

theorem SameSources.refl (s : State) : SameSources s s := fun _ => ⟨rfl, fun _ => rfl⟩

theorem SameSources.tag_iff {s u : State} (h : SameSources s u) (r : VIdx) (k : Kind) :
    u.tag r = some k ↔ s.tag r = some k := by rw [(h r).1]

theorem SameSources.bits_eq {s u : State} (h : SameSources s u) {r : VIdx} {k : Kind} (ht : s.tag r = some k) :
    u.bits r = s.bits r := ((h r).2 (by rw [ht]; exact Option.some_ne_none k)).symm

/-- In every state that S relates to s, the meaning g has one and the same effect, which fits if s is legal. -/
def Determined (s : State) (S : State → Prop) (g : State → Result) : Prop :=
  ∃ e : Effect, (s.RegsLegal → e.Fits) ∧ ∀ u, S u → g u = .next (e.apply u)

section
variable {s : State} {S : State → Prop}

theorem determined_raise (e : Error) : Determined s S (raise e) := ⟨.fail e, fun _ => trivial, fun _ _ => rfl⟩

theorem determined_answer {g : State → Word} (hg : ∀ u, S u → g u = g s) :
    Determined s S (fun u => complete (g u) u) :=
  ⟨.answer (g s), fun _ => trivial, fun u hu => congrArg (complete · u) (hg u hu)⟩

theorem determined_write {g : State → Payload} {k : Kind} (vd : VIdx) (hg : ∀ u, S u → g u = g s)
    (hfit : s.RegsLegal → BitsFit k (g s)) : Determined s S (fun u => complete 0 (u.setReg vd k (g u))) :=
  ⟨.write vd k (g s), hfit, fun u hu => congrArg (fun b => complete 0 (u.setReg vd k b)) (hg u hu)⟩

/-- A check whose outcome is the same in all related states. -/
theorem determined_ite {P : State → Prop} [DecidablePred P] {g : State → Result} (e : Error)
    (hP : ∀ u, S u → (P u ↔ P s)) (hg : P s → Determined s S g) :
    Determined s S (fun u => if P u then g u else raise e u) := by
  by_cases h : P s
  · obtain ⟨f, hfit, hf⟩ := hg h
    exact ⟨f, hfit, fun u hu => (if_pos ((hP u hu).2 h)).trans (hf u hu)⟩
  · exact ⟨.fail e, fun _ => trivial, fun u hu => if_neg (h ∘ (hP u hu).1)⟩

theorem Determined.mono {T : State → Prop} {g : State → Result} (h : Determined s S g) (hST : ∀ u, T u → S u) :
    Determined s T g := by
  obtain ⟨e, hfit, he⟩ := h
  exact ⟨e, hfit, fun u hu => he u (hST u hu)⟩

end

/-! ## The shared templates -/

section
variable (s : State)

theorem unary_determined {op : Option UnaryOp} {k rk : Kind} (vd a : VIdx)
    (hfit : ∀ f, op = some f → ∀ x, BitsFit rk (f x)) :
    Determined s (SameSources s) (unary op k rk vd a) := by
  cases op with
  | none => exact determined_raise _
  | some f =>
    refine determined_ite _ (fun u hu => hu.tag_iff a k) fun ha => ?_
    exact determined_write vd (fun u hu => congrArg f (hu.bits_eq ha)) fun _ => hfit f rfl _

theorem binary_determined {op : Option BinaryOp} {k rk : Kind} (vd a b : VIdx)
    (hfit : ∀ f, op = some f → ∀ x y, BitsFit rk (f x y)) :
    Determined s (SameSources s) (binary op k rk vd a b) := by
  cases op with
  | none => exact determined_raise _
  | some f =>
    refine determined_ite _ (fun u hu => and_congr (hu.tag_iff a k) (hu.tag_iff b k)) fun ⟨ha, hb⟩ => ?_
    exact determined_write vd (fun u hu => congrArg₂ f (hu.bits_eq ha) (hu.bits_eq hb)) fun _ => hfit f rfl _ _

/-- A unary command of a numeric kind. -/
theorem unary_determined_of_isNumeric {op : Option UnaryOp} {k : Kind} (vd a : VIdx)
    (hk : op.isSome = true → k.isNumeric = true) : Determined s (SameSources s) (unary op k k vd a) :=
  unary_determined s vd a fun _ hf _ => bitsFit_of_isNumeric (hk (by rw [hf]; rfl)) _

/-- A binary command of a numeric kind. -/
theorem binary_determined_of_isNumeric {op : Option BinaryOp} {k : Kind} (vd a b : VIdx)
    (hk : op.isSome = true → k.isNumeric = true) : Determined s (SameSources s) (binary op k k vd a b) :=
  binary_determined s vd a b fun _ hf _ _ => bitsFit_of_isNumeric (hk (by rw [hf]; rfl)) _

theorem compare_determined (int : (w : Nat) → BitVec w → BitVec w → Bool) (f64 : BitVec 64 → BitVec 64 → Bool)
    (f32 : BitVec 32 → BitVec 32 → Bool) (k : Kind) (vd a b : VIdx) :
    Determined s (SameSources s) (binary (numericCompare int f64 f32 k) k k.boolOf vd a b) := by
  refine binary_determined s vd a b fun f hf x y => ?_
  have hk : k.isNumeric = true := (isSome_numericCompare int f64 f32 k).symm.trans (by rw [hf]; rfl)
  obtain ⟨rel, hrel⟩ := numericCompare_eq int f64 f32 hk
  cases hf.symm.trans hrel
  exact bitsFit_cmp2 k rel x y

theorem logicBinary_determined (op : (w : Nat) → BitVec w → BitVec w → BitVec w) (k : Kind) (vd a b : VIdx) :
    Determined s (SameSources s) (binary (logicBinary op k) k k vd a b) := by
  refine binary_determined s vd a b fun f hf x y => ?_
  have hk := (isSome_logicBinary op k).symm.trans (by rw [hf, Option.isSome_some])
  cases hf.symm.trans (logicBinary_eq op hk)
  exact bitsFit_pack k _

theorem logicUnary_determined (op : (w : Nat) → BitVec w → BitVec w) (k : Kind) (vd a : VIdx) :
    Determined s (SameSources s) (unary (logicUnary op k) k k vd a) := by
  refine unary_determined s vd a fun f hf x => ?_
  have hk := (isSome_logicUnary op k).symm.trans (by rw [hf, Option.isSome_some])
  cases hf.symm.trans (logicUnary_eq op hk)
  exact bitsFit_pack k _

/-- A LOAD command reads no register, and of the memory the bytes of its access. -/
theorem loadLanes_determined {i : Instr} {c : Nat} {k : Kind} (vd : VIdx) {b : Buffer} (hc : c < 4)
    (hacc : i.access = some (b, requiredBytes k (k.prefixLanes c))) :
    Determined s (SameBytes i s) (loadLanes c k vd b) := by
  unfold loadLanes
  rw [lanesMoved_eq k c hc]
  split_ifs with hk
  · dsimp only
    cases hv : validate b (requiredBytes k (k.prefixLanes c)) with
    | error e => exact determined_raise e
    | ok a =>
      refine ⟨.stage vd k (memRead s.mem a (requiredBytes k (k.prefixLanes c))), fun _ => bitsFit_of_isNumeric hk.1 _,
        fun u hu => ?_⟩
      rw [hu b _ a hacc hv]
      rfl
  · exact determined_raise _

/-- A STORE command reads its source register and no memory. -/
theorem storeLanes_determined (c : Nat) (k : Kind) (r : VIdx) (b : Buffer) :
    Determined s (SameSources s) (storeLanes c k r b) := by
  unfold storeLanes
  cases lanesMoved k c with
  | none => exact determined_raise _
  | some cnt =>
    refine determined_ite _ (fun u hu => hu.tag_iff r k) fun hr => ?_
    cases validate b (requiredBytes k cnt) with
    | error e => exact determined_raise e
    | ok a =>
      refine ⟨.store (s.bits r) a (requiredBytes k cnt), fun _ => trivial, fun u hu => ?_⟩
      rw [← hu.bits_eq hr]
      rfl

end

end Sys2Proof.Machine

namespace Sys2Proof

theorem Kind.isNumeric_of_isFloat {k : Kind} (h : k.isFloat = true) : k.isNumeric = true := by
  cases k with
  | f64x2 | f32x4 => rfl
  | i32x4 | i16x8 | i8x16 | b2 | b4 | b8 | b16 => cases h

theorem Kind.isNumeric_of_isInt {k : Kind} (h : k.isInt = true) : k.isNumeric = true := by
  cases k with
  | i32x4 | i16x8 | i8x16 => rfl
  | f64x2 | f32x4 | b2 | b4 | b8 | b16 => cases h

end Sys2Proof

namespace Sys2Proof.Machine

/-! ## Command by command -/

/-- BCAST goes through SCRATCH, which it writes before it reads it. -/
theorem execBcast_determined (s : State) (k target : Kind) (vd a : VIdx) :
    Determined s (SameSources s) (execBcast k target vd a) := by
  refine determined_ite (P := fun _ => (castable k && castable target) = true) _ (fun _ _ => Iff.rfl) fun hc => ?_
  refine determined_ite _ (fun u hu => hu.tag_iff a k) fun ha => ?_
  refine ⟨.stage vd target (s.bits a), fun _ => bitsFit_of_isNumeric ?_ _, fun u hu => ?_⟩
  · exact (castable_eq_isNumeric target).symm.trans (Bool.and_eq_true_iff.1 hc).2
  · rw [← hu.bits_eq ha]
    rfl

theorem execFromf_determined (s : State) (vd a : VIdx) : Determined s (SameSources s) (execFromf .i32x4 vd a) := by
  refine determined_ite _ (fun u hu => hu.tag_iff a _) fun ha => ?_
  cases hv : truncLanes (s.bits a) with
  | none => exact ⟨.fail .conversionRange, fun _ => trivial, fun u hu => by dsimp only; rw [hu.bits_eq ha, hv]; rfl⟩
  | some r => exact ⟨.write vd .i32x4 r, fun _ => bitsFit_of_isNumeric rfl _,
      fun u hu => by dsimp only; rw [hu.bits_eq ha, hv]; rfl⟩

/-- All commands but the LOADs, which alone read memory. -/
theorem exec_determined_of_sources (i : Instr) (s : State)
    (hi : ∀ (b : Buffer) (n : Nat), i.access = some (b, n) → i.isStore = true) :
    Determined s (SameSources s) (exec i) := by
  cases i with
  | check k a => exact determined_ite _ (fun u hu => hu.tag_iff a k) fun _ => determined_answer fun _ _ => rfl
  | extract k a x =>
    refine determined_ite _ (fun u hu => hu.tag_iff a k) fun ha => ?_
    refine determined_ite _ (fun _ _ => Iff.rfl) fun _ => ?_
    exact determined_answer fun u hu => by rw [hu.bits_eq ha]
  | replace k vd a x y =>
    refine determined_ite _ (fun u hu => hu.tag_iff a k) fun ha => ?_
    refine determined_ite _ (fun _ _ => Iff.rfl) fun hx => ?_
    refine determined_write vd (fun u hu => by rw [hu.bits_eq ha]) fun hs => ?_
    rw [laneIndexOk_eq _ _ k.lanes_le] at hx
    exact (hs.bitsFit ha).replaceLane (toNat_of_inRange hx).2 _
  | splat k vd x => exact determined_write vd (fun _ _ => rfl) fun _ => bitsFit_pack k _
  | cons k vd argc x =>
    refine determined_ite _ (fun _ _ => Iff.rfl) fun _ => ?_
    exact determined_write vd (fun _ _ => rfl) fun _ => bitsFit_pack k _
  | add k vd a b | sub k vd a b | mul k vd a b | min k vd a b | max k vd a b =>
    exact binary_determined_of_isNumeric s vd a b (isSome_numericBinary ..).symm.trans
  | div k vd a b | minnum k vd a b | maxnum k vd a b =>
    exact binary_determined_of_isNumeric s vd a b fun h =>
      Kind.isNumeric_of_isFloat ((isSome_floatBinary ..).symm.trans h)
  | neg k vd a | abs k vd a => exact unary_determined_of_isNumeric s vd a (isSome_numericUnary ..).symm.trans
  | sqrt k vd a | rcpa k vd a =>
    exact unary_determined_of_isNumeric s vd a fun h => Kind.isNumeric_of_isFloat ((isSome_floatUnary ..).symm.trans h)
  | eq k vd a b | ne k vd a b | lt k vd a b | le k vd a b | gt k vd a b | ge k vd a b =>
    exact compare_determined ..
  | and k vd a b | or k vd a b | xor k vd a b => exact logicBinary_determined ..
  | not k vd a => exact logicUnary_determined ..
  | shl k vd a x | shrl k vd a x | shra k vd a x =>
    exact unary_determined_of_isNumeric s vd a fun h => Kind.isNumeric_of_isInt ((isSome_intUnary ..).symm.trans h)
  | adds k vd a b | subs k vd a b =>
    refine binary_determined_of_isNumeric s vd a b fun h => ?_
    rcases Bool.or_eq_true_iff.1 ((isSome_narrowBinary ..).symm.trans h) with hk | hk
    · rw [of_decide_eq_true hk]; rfl
    · rw [of_decide_eq_true hk]; rfl
  | sel k vd m t f =>
    cases k with
    | b2 | b4 | b8 | b16 => exact determined_raise _
    | f64x2 | f32x4 | i32x4 | i16x8 | i8x16 =>
      refine determined_ite _ (fun u hu => and_congr (hu.tag_iff m _) (and_congr (hu.tag_iff t _) (hu.tag_iff f _)))
        fun ⟨hm, ht, hf⟩ => ?_
      exact determined_write vd (fun u hu => by rw [hu.bits_eq hm, hu.bits_eq ht, hu.bits_eq hf])
        fun _ => bitsFit_of_isNumeric rfl _
  | selb k vd m t f =>
    cases k with
    | f64x2 | f32x4 | b2 | b4 | b8 | b16 => exact determined_raise _
    | i32x4 | i16x8 | i8x16 =>
      refine determined_ite _ (fun u hu => and_congr (hu.tag_iff m _) (and_congr (hu.tag_iff t _) (hu.tag_iff f _)))
        fun ⟨hm, ht, hf⟩ => ?_
      exact determined_write vd (fun u hu => by rw [hu.bits_eq hm, hu.bits_eq ht, hu.bits_eq hf])
        fun _ => bitsFit_of_isNumeric rfl _
  | sad k a b =>
    cases k with
    | f64x2 | f32x4 | i32x4 | i16x8 | b2 | b4 | b8 | b16 => exact determined_raise _
    | i8x16 =>
      refine determined_ite _ (fun u hu => and_congr (hu.tag_iff a _) (hu.tag_iff b _)) fun ⟨ha, hb⟩ => ?_
      exact determined_answer fun u hu => by rw [hu.bits_eq ha, hu.bits_eq hb]
  | fromf k vd a =>
    cases k with
    | f64x2 | f32x4 | i16x8 | i8x16 | b2 | b4 | b8 | b16 => exact determined_raise _
    | i32x4 => exact execFromf_determined s vd a
  | swz k vd a x =>
    cases k with
    | b2 | b4 | b8 | b16 => exact determined_raise _
    | f64x2 | f32x4 | i32x4 | i16x8 | i8x16 =>
      refine determined_ite _ (fun u hu => hu.tag_iff a _) fun ha => ?_
      refine determined_ite _ (fun _ _ => Iff.rfl) fun _ => ?_
      exact determined_write vd (fun u hu => by rw [hu.bits_eq ha]) fun _ => bitsFit_of_isNumeric rfl _
  | shuf k vd a b x =>
    cases k with
    | b2 | b4 | b8 | b16 => exact determined_raise _
    | f64x2 | f32x4 | i32x4 | i16x8 | i8x16 =>
      refine determined_ite _ (fun u hu => and_congr (hu.tag_iff a _) (hu.tag_iff b _)) fun ⟨ha, hb⟩ => ?_
      refine determined_ite _ (fun _ _ => Iff.rfl) fun _ => ?_
      exact determined_write vd (fun u hu => by rw [hu.bits_eq ha, hu.bits_eq hb])
        fun _ => bitsFit_of_isNumeric rfl _
  | bcast k target vd a => exact execBcast_determined s k target vd a
  | store k a b | store1 k a b | store2 k a b | store3 k a b => exact storeLanes_determined ..
  | load k vd b | load1 k vd b | load2 k vd b | load3 k vd b => cases hi b _ rfl

/-- What a command does is determined by its source registers and the bytes of its buffer. -/
theorem exec_determined (i : Instr) (s : State) :
    Determined s (fun u => SameSources s u ∧ SameBytes i s u) (exec i) := by
  cases i with
  | load k vd b | load1 k vd b | load2 k vd b | load3 k vd b =>
    exact (loadLanes_determined s vd (by decide) rfl).mono fun _ => And.right
  | _ => exact (exec_determined_of_sources _ s (fun _ _ h => by cases h <;> rfl)).mono fun _ => And.left

/-! ## The invariant -/

theorem State.Inv.exec {s t : State} (h : s.Inv) {i : Instr} (ht : exec i s = .next t) : t.Inv := by
  obtain ⟨e, hfit, he⟩ := exec_determined i s
  obtain rfl : e.apply s = t := by rw [he s ⟨.refl s, fun _ _ _ _ _ => rfl⟩] at ht; injection ht
  exact ⟨(ending_of_exec ht).wf_mem h.1, (hfit h.2).regsLegal h.2⟩

theorem State.Inv.runCommand {s t : State} (h : s.Inv) {c : Command} (ht : runCommand c s = .next t) : t.Inv := by
  cases hc : decode c with
  | ok i => exact h.exec ((runCommand_of_decode hc s).symm.trans ht)
  | error e =>
    obtain rfl : s.raise .illegalCommand = t := by rw [runCommand_of_illegal hc] at ht; injection ht
    exact h

theorem State.reset_regsLegal : State.reset.RegsLegal := fun r => by rw [State.reset_reg]; rfl

/-- Settles O57. -/
theorem resetMeetsTheInvariant : Obligations.ResetMeetsTheInvariant := ⟨Memory.wf_reset, State.reset_regsLegal⟩

/-- Settles O56, by the event at the head: a command by its effect, a host write by the write, RESET by the reset
registers, over the memory that was there or that the abandoned command left. -/
theorem stepKeepsInvariant : Obligations.StepKeepsInvariant := by
  intro s t h ht
  cases hs : s.host with
  | nil => cases (step_of_idle hs).symm.trans ht; exact h
  | cons ev rest =>
    cases ev with
    | command c => exact h.runCommand ((step_of_command hs).symm.trans ht)
    | hostWrite addr b =>
      cases (step_of_hostWrite hs).symm.trans ht
      exact ⟨Memory.wf_write _ _ _ addr.isLt h.1, h.2⟩
    | reset => cases (step_of_reset hs).symm.trans ht; exact ⟨h.1, State.reset_regsLegal⟩
    | resetDuring c =>
      cases (step_of_resetDuring hs).symm.trans ht
      obtain ⟨u, -, hu, -⟩ := runCommand_next c s
      refine ⟨?_, State.reset_regsLegal⟩
      rcases State.afterResetDuring_mem_or (s := s) hu with hm | hm
      · rw [hm]; exact h.1
      · rw [hm]; exact (h.runCommand hu).1

/-! ## The bytes of an access -/

/-- The bytes of an access that passes the validation lie in its buffer (46_load_store.md R221, R222). -/
theorem byteAddress_of_validate {b : Buffer} {n : Nat} {a : Word} (h : validate b n = .ok a) {j : Nat} (hj : j < n) :
    ∃ d < b.byteLength.toNat, byteAddress a j = (b.base.toNat + d) % 2 ^ 64 := by
  obtain ⟨ew, hew, -, hidx, hlen, rfl⟩ := validate_ok h
  obtain rfl : widthOfBufferKind b.bkind.toNat = ew := by
    rw [elementWidth_eq] at hew
    split at hew
    · exact Option.some.inj hew
    · cases hew
  have hnat : b.index.toInt = (b.index.toNat : Int) := by
    have := BitVec.toInt_eq_toNat_cond b.index
    split at this <;> omega
  refine ⟨b.index.toNat * widthOfBufferKind b.bkind.toNat + j, ?_, ?_⟩
  · rw [hnat, ← Int.natCast_mul] at hlen
    omega
  · rw [byteAddress_bufferAddress b j hidx, accessAddress, Nat.add_assoc]

theorem exec_storeCommand (c : Fin 4) (k : Kind) (r : VIdx) (b : Buffer) (s : State) :
    exec (storeCommand c k r b) s = storeLanes c.val k r b s := by
  fin_cases c <;> rfl

theorem exec_loadCommand (c : Fin 4) (k : Kind) (vd : VIdx) (b : Buffer) (s : State) :
    exec (loadCommand c k vd b) s = loadLanes c.val k vd b s := by
  fin_cases c <;> rfl

theorem access_storeCommand (c : Fin 4) (k : Kind) (r : VIdx) (b : Buffer) :
    (storeCommand c k r b).access = some (b, bytesMoved c k) := by
  fin_cases c <;> rfl

/-- The STORE commands are those of `storeCommand`. -/
theorem exists_storeCommand_eq {i : Instr} (h : i.isStore = true) : ∃ c k r b, i = storeCommand c k r b := by
  cases i with
  | store k r b => exact ⟨0, k, r, b, rfl⟩
  | store1 k r b => exact ⟨1, k, r, b, rfl⟩
  | store2 k r b => exact ⟨2, k, r, b, rfl⟩
  | store3 k r b => exact ⟨3, k, r, b, rfl⟩
  | _ => cases h

/-- A STORE command leaves the memory, or writes the bytes of an access that passed the validation. -/
theorem mem_of_exec_storeCommand {c : Fin 4} {k : Kind} {r : VIdx} {b : Buffer} {s t : State}
    (h : exec (storeCommand c k r b) s = .next t) : t.mem = s.mem ∨
      ∃ a, validate b (bytesMoved c k) = .ok a ∧ t.mem = memWrite s.mem a (bytesMoved c k) (s.bits r) := by
  rw [exec_storeCommand] at h
  rcases storeLanes_cases c.val k r b s with
    ⟨-, hu⟩ | ⟨_, -, -, hu⟩ | ⟨_, e, -, -, -, hu⟩ | ⟨cnt, a, hc, -, hv, hu⟩
  · cases hu.symm.trans h; exact .inl rfl
  · cases hu.symm.trans h; exact .inl rfl
  · cases hu.symm.trans h; exact .inl rfl
  · rw [lanesMoved_eq _ _ c.isLt] at hc
    split at hc
    · cases hc
      cases hu.symm.trans h
      exact .inr ⟨a, hv, rfl⟩
    · cases hc

/-- Settles O15: what a MemWrite leaves; with no element width the validation fails. -/
theorem storeLeavesTheOtherBytes : Obligations.StoreLeavesTheOtherBytes := by
  intro c k r b s t ht
  rcases mem_of_exec_storeCommand ht with hm | ⟨a, hv, hm⟩
  · rw [hm]; exact ⟨fun _ _ _ _ => rfl, fun _ _ => rfl⟩
  · obtain ⟨ew, hew, -, -, -, rfl⟩ := validate_ok hv
    rw [hm]
    refine ⟨fun ew' hew' x hx => ?_, fun hnone => by rw [hnone] at hew; cases hew⟩
    cases hew.symm.trans hew'
    exact Memory.read_memWrite_of_ne _ _ _ _ _ hx

/-- Settles O16: a byte that changes is one that a STORE command writes, and the validation has placed it. -/
theorem writesStayInsideTheBuffer : Obligations.WritesStayInsideTheBuffer := by
  intro i s t x ht hx
  have hstore : i.isStore = true := by
    by_contra hns
    exact hx (congrArg (Memory.read · x) ((ending_of_exec ht).mem_eq (Bool.eq_false_iff.2 hns)))
  obtain ⟨c, k, r, b, rfl⟩ := exists_storeCommand_eq hstore
  rcases mem_of_exec_storeCommand ht with hm | ⟨a, hv, hm⟩
  · exact absurd (congrArg (Memory.read · x) hm) hx
  · have hin : ∃ j < bytesMoved c k, x = byteAddress a j := by
      by_contra hout
      rw [hm] at hx
      exact hx (Memory.read_memWrite_of_ne _ _ _ _ _ fun j hj he => hout ⟨j, hj, he⟩)
    obtain ⟨j, hj, rfl⟩ := hin
    obtain ⟨d, hd, hxd⟩ := byteAddress_of_validate hv hj
    exact ⟨b, _, d, access_storeCommand c k r b, hd, hxd⟩

/-! ## Memory outside the buffer -/

/-- A MemRead depends on the bytes that it reads. -/
theorem memRead_congr {m m' : Memory} {a : Word} {n : Nat}
    (h : ∀ j < n, Memory.read m (byteAddress a j) = Memory.read m' (byteAddress a j)) :
    memRead m a n = memRead m' a n := by
  induction n with
  | zero => rfl
  | succ n ih => rw [memRead, memRead, ih fun j hj => h j (by omega), h n (by omega)]

/-- Over another memory the effect leaves the same state but for the memory. -/
theorem Effect.apply_withMem (e : Effect) (s : State) (m : Memory) :
    ∃ m', e.apply { s with mem := m } = { e.apply s with mem := m' } := by
  cases e <;> exact ⟨_, rfl⟩

/-- Settles O17: memories that agree on the buffer agree on every byte that the command may read. -/
theorem readsStayInsideTheBuffer : Obligations.ReadsStayInsideTheBuffer := by
  intro i s t m hm ht
  obtain ⟨e, -, he⟩ := exec_determined i s
  obtain rfl : e.apply s = t := by rw [he s ⟨.refl s, fun _ _ _ _ _ => rfl⟩] at ht; injection ht
  have hbytes : SameBytes i s { s with mem := m } := by
    intro b n a hacc hv
    refine memRead_congr fun j hj => ?_
    obtain ⟨d, hd, hjd⟩ := byteAddress_of_validate hv hj
    rw [hjd]
    exact (hm b n d hacc hd).symm
  obtain ⟨m', hm'⟩ := e.apply_withMem s m
  have hregs : SameSources s { s with mem := m } := fun _ => ⟨rfl, fun _ => rfl⟩
  exact ⟨m', (he { s with mem := m } ⟨hregs, hbytes⟩).trans (congrArg Host.Outcome.next hm')⟩

/-! ## SCRATCH and the payloads of EMPTY registers -/

theorem SameObservations.sameSources {s u : State} (h : SameObservations s u) : SameSources s u := h.2.2.2.2

/-- A register written the same way in both states. -/
theorem SameObservations.setReg {s u : State} (h : SameObservations s u) (vd : VIdx) (k : Kind) (b : Payload) :
    SameObservations (s.setReg vd k b) (u.setReg vd k b) := by
  obtain ⟨hmem, hhost, hresp, hfree, hregs⟩ := h
  refine ⟨hmem, hhost, hresp, hfree, fun r => ?_⟩
  simp only [State.tag, State.bits, State.setReg_reg]
  split
  · exact ⟨rfl, fun _ => rfl⟩
  · exact hregs r

theorem SameObservations.respond {s u : State} (h : SameObservations s u) (st : Status) (xd : Word) :
    SameObservations (s.respond st xd) (u.respond st xd) := by
  obtain ⟨hmem, hhost, hresp, hfree, hregs⟩ := h
  exact ⟨hmem, congrArg List.tail hhost, congrArg (· ++ _) hresp, hfree, hregs⟩

theorem SameObservations.setScratch {s u : State} (h : SameObservations s u) (b : Payload) :
    SameObservations (s.setScratch b) (u.setScratch b) := h

theorem SameObservations.apply {s u : State} (h : SameObservations s u) (e : Effect) :
    SameObservations (e.apply s) (e.apply u) := by
  cases e with
  | fail e => exact h.respond _ _
  | answer xd => exact h.respond _ _
  | write vd k b => exact (h.setReg vd k b).respond _ _
  | stage vd k b => exact ((h.setScratch b).setReg vd k b).respond _ _
  | store b a n =>
    obtain ⟨hmem, hrest⟩ := h
    have hstore : SameObservations ((s.setScratch b).storeScratch a n) ((u.setScratch b).storeScratch a n) :=
      ⟨congrArg (memWrite · a n b) hmem, hrest⟩
    exact hstore.respond _ _

/-- A command word has one effect on all states that cannot be told apart. -/
theorem runCommand_effect (c : Command) (s : State) :
    ∃ e : Effect, ∀ u, SameObservations s u → runCommand c u = .next (e.apply u) := by
  cases hc : decode c with
  | ok i =>
    obtain ⟨e, -, he⟩ := exec_determined i s
    refine ⟨e, fun u hu => (runCommand_of_decode hc u).trans (he u ⟨hu.sameSources, fun b n a _ _ => ?_⟩)⟩
    rw [hu.1]
  | error d => exact ⟨.fail .illegalCommand, fun u _ => runCommand_of_illegal hc u⟩

theorem SameObservations.refl (s : State) : SameObservations s s := ⟨rfl, rfl, rfl, rfl, SameSources.refl s⟩

/-- RESET leaves the same registers in both states. -/
theorem SameObservations.afterReset {s u : State} (h : SameObservations s u) :
    SameObservations s.afterReset u.afterReset := by
  obtain ⟨hmem, hhost, hresp, hfree, -⟩ := h
  exact ⟨hmem, congrArg List.tail hhost, hresp, hfree, SameSources.refl State.reset⟩

theorem SameObservations.step {s u s' : State} (h : SameObservations s u) (hs' : step s = .next s') :
    ∃ u', step u = .next u' ∧ SameObservations s' u' := by
  have ⟨hmem, hhost, hresp, hfree, hregs⟩ := h
  cases hs : s.host with
  | nil =>
    cases (step_of_idle hs).symm.trans hs'
    exact ⟨u, step_of_idle (hhost.symm.trans hs), h⟩
  | cons ev rest =>
    have hu := hhost.symm.trans hs
    cases ev with
    | command c =>
      obtain ⟨e, he⟩ := runCommand_effect c s
      cases ((step_of_command hs).trans (he s (.refl s))).symm.trans hs'
      exact ⟨_, (step_of_command hu).trans (he u h), h.apply e⟩
    | hostWrite addr b =>
      cases (step_of_hostWrite hs).symm.trans hs'
      refine ⟨_, step_of_hostWrite hu, ?_, congrArg List.tail hhost, hresp, hfree, hregs⟩
      rw [State.afterHostWrite_mem, State.afterHostWrite_mem, hmem]
    | reset =>
      cases (step_of_reset hs).symm.trans hs'
      exact ⟨_, step_of_reset hu, h.afterReset⟩
    | resetDuring c =>
      cases (step_of_resetDuring hs).symm.trans hs'
      obtain ⟨e, he⟩ := runCommand_effect c s
      obtain ⟨-, hhost', hresp', -, hregs'⟩ := h.afterReset
      refine ⟨_, step_of_resetDuring hu, ?_, hhost', hresp', congrArg (· + 1) hfree, hregs'⟩
      rw [State.afterResetDuring_mem, State.afterResetDuring_mem, he s (.refl s), he u h, hfree, hmem]
      exact congrArg (fun m => if Config.abandonedStoreLands u.freeCount then m else u.mem) (h.apply e).1

/-- Settles O58, by induction on the number of steps. -/
theorem scratchAndEmptyPayloadsAreInvisible : Obligations.ScratchAndEmptyPayloadsAreInvisible := by
  intro n
  induction n with
  | zero =>
    intro s t s' h hs'
    cases hs'
    exact ⟨t, rfl, h⟩
  | succ n ih =>
    intro s t s' h hs'
    obtain ⟨s₁, hs₁⟩ := nothingStopsTheUnit s
    obtain ⟨t₁, ht₁, h₁⟩ := h.step hs₁
    rw [run_succ_of_step n hs₁] at hs'
    rw [run_succ_of_step n ht₁]
    exact ih s₁ t₁ s' h₁ hs'

end Sys2Proof.Machine

/-! SUPPORT. Lane access, integer arithmetic, comparison, logic and select, shifts, saturation and permutation (O20 to
O27, O39, O41 to O47, O49, O50). What each family of lane operations is at a kind, what a command of the family then
writes (`unary_isVector`, `binary_isVector`), and one lemma for each lane operation. -/

namespace Sys2Proof.Machine

-- As in Tests/Slice0.lean: in the joined text, proofs elaborated side by side can run Lean out of threads.
set_option Elab.async false

/-! ## Vectors -/

theorem isVector_pack (k : Kind) (l : Nat → BitVec k.width) : IsVector k (pack k.width l k.lanes) l :=
  ⟨fun j hj => lane_pack _ k.width_pos l _ j hj k.lanes_mul_width_le, bitsFit_pack k l⟩

theorem IsVector.congr {k : Kind} {b : Payload} {l l' : Nat → BitVec k.width} (h : IsVector k b l)
    (hl : ∀ j < k.lanes, l j = l' j) : IsVector k b l' :=
  ⟨fun j hj => (h.1 j hj).trans (hl j hj), h.2⟩

/-- Bit n of a payload is a bit of one of its lanes. -/
theorem getLsbD_lane_div_mod {w : Nat} (hw : 0 < w) (b : Payload) (n : Nat) :
    (lane w b (n / w)).getLsbD (n % w) = b.getLsbD n := by
  have hn : n / w * w + n % w = n := Nat.div_add_mod' n w
  rw [lane, BitVec.getLsbD_extractLsb', hn, decide_eq_true (Nat.mod_lt n hw), Bool.true_and]

/-! ## The integer families at a kind -/

section
variable {k : Kind} (hk : k.isInt = true)
include hk

theorem intUnary_eq (int : (w : Nat) → BitVec w → BitVec w) :
    intUnary int k = some (map1 k.width k.lanes (int k.width)) := by
  cases k with
  | i32x4 | i16x8 | i8x16 => rfl
  | f64x2 | f32x4 | b2 | b4 | b8 | b16 => cases hk

theorem numericUnary_of_isInt (int : (w : Nat) → BitVec w → BitVec w) (f64 : BitVec 64 → BitVec 64)
    (f32 : BitVec 32 → BitVec 32) : numericUnary int f64 f32 k = some (map1 k.width k.lanes (int k.width)) := by
  cases k with
  | i32x4 | i16x8 | i8x16 => rfl
  | f64x2 | f32x4 | b2 | b4 | b8 | b16 => cases hk

theorem numericBinary_of_isInt (int : (w : Nat) → BitVec w → BitVec w → BitVec w)
    (f64 : BitVec 64 → BitVec 64 → BitVec 64) (f32 : BitVec 32 → BitVec 32 → BitVec 32) :
    numericBinary int f64 f32 k = some (map2 k.width k.lanes (int k.width)) := by
  cases k with
  | i32x4 | i16x8 | i8x16 => rfl
  | f64x2 | f32x4 | b2 | b4 | b8 | b16 => cases hk

theorem numericCompare_of_isInt (int : (w : Nat) → BitVec w → BitVec w → Bool) (f64 : BitVec 64 → BitVec 64 → Bool)
    (f32 : BitVec 32 → BitVec 32 → Bool) :
    numericCompare int f64 f32 k = some (cmp2 k.width k.lanes (int k.width)) := by
  cases k with
  | i32x4 | i16x8 | i8x16 => rfl
  | f64x2 | f32x4 | b2 | b4 | b8 | b16 => cases hk

end

theorem narrowBinary_eq (int : (w : Nat) → BitVec w → BitVec w → BitVec w) {k : Kind} (hk : k = .i16x8 ∨ k = .i8x16) :
    narrowBinary int k = some (map2 k.width k.lanes (int k.width)) := by
  rcases hk with rfl | rfl <;> rfl

/-! ## What a command of a family writes -/

section
variable {k : Kind} {s : State} {a b : VIdx} (vd : VIdx)

theorem unary_isVector {op : Option UnaryOp} {f : BitVec k.width → BitVec k.width}
    (hop : op = some (map1 k.width k.lanes f)) (ha : s.tag a = some k) :
    ∃ r, unary op k k vd a s = .next ((s.setReg vd k r).respond .ok 0) ∧
      IsVector k r (fun j => f (lane k.width (s.bits a) j)) :=
  ⟨_, unary_of_tag k vd hop ha, isVector_pack k _⟩

theorem binary_isVector {op : Option BinaryOp} {f : BitVec k.width → BitVec k.width → BitVec k.width}
    (hop : op = some (map2 k.width k.lanes f)) (ha : s.tag a = some k) (hb : s.tag b = some k) :
    ∃ r, binary op k k vd a b s = .next ((s.setReg vd k r).respond .ok 0) ∧
      IsVector k r (fun j => f (lane k.width (s.bits a) j) (lane k.width (s.bits b) j)) :=
  ⟨_, binary_of_tag k vd hop ha hb, isVector_pack k _⟩

theorem compare_getLsbD {op : Option BinaryOp} {rel : BitVec k.width → BitVec k.width → Bool}
    (hop : op = some (cmp2 k.width k.lanes rel)) (ha : s.tag a = some k) (hb : s.tag b = some k) :
    ∃ r, binary op k k.boolOf vd a b s = .next ((s.setReg vd k.boolOf r).respond .ok 0) ∧ ∀ j : Nat, r.getLsbD j =
      (decide (j < k.lanes) && rel (lane k.width (s.bits a) j) (lane k.width (s.bits b) j)) :=
  ⟨_, binary_of_tag k.boolOf vd hop ha hb, getLsbD_cmp2 _ _ (k.lanes_le.trans (by decide)) rel _ _⟩

end

/-! ## Lane access (40_lane_access.md) -/

/-- The scalar of an Int lane has the lane's signed value. -/
theorem toInt_laneOut {k : Kind} (hk : k.isInt = true) (l : BitVec k.width) : (laneOut k l).toInt = l.toInt := by
  cases k with
  | i32x4 | i16x8 | i8x16 => exact BitVec.toInt_signExtend_of_le (by decide)
  | f64x2 | f32x4 | b2 | b4 | b8 | b16 => cases hk

/-- The scalar of a Bool lane is 1 or 0. -/
theorem laneOut_of_isBool {k : Kind} (hk : k.isBool = true) (b : Payload) (j : Nat) :
    laneOut k (lane k.width b j) = if b.getLsbD j then 1 else 0 := by
  have hbit : (lane 1 b j).setWidth 64 = if b.getLsbD j then 1#64 else 0#64 := by
    have hlane : lane 1 b j = BitVec.ofBool (b.getLsbD j) := by
      apply BitVec.eq_of_getLsbD_eq
      intro i hi
      obtain rfl : i = 0 := by omega
      simp [lane]
    rw [hlane]
    cases b.getLsbD j <;> rfl
  cases k with
  | b2 | b4 | b8 | b16 => exact hbit
  | f64x2 | f32x4 | i32x4 | i16x8 | i8x16 => cases hk

/-- Settles O20: the tag check and the index check pass, and the scalar of the lane is the answer. -/
theorem extractAnswersTheLane : Obligations.ExtractAnswersTheLane := by
  intro k a x s ha h0 hn
  have hx : laneIndexOk x k.lanes = true := (laneIndexOk_eq x _ k.lanes_le).trans (decide_eq_true ⟨h0, hn⟩)
  refine ⟨laneOut k (lane k.width (s.bits a) x.toNat), ?_, fun hk => toInt_laneOut hk _, ?_, ?_,
    fun hk => laneOut_of_isBool hk _ _⟩
  · exact (if_pos ha).trans (if_pos hx)
  · rintro rfl; rfl
  · rintro rfl; rfl

/-- Settles O21: the lane replaced and the bits outside it. -/
theorem replaceWritesOneLane : Obligations.ReplaceWritesOneLane := by
  intro k vd a x y s ha h0 hn
  have hin : inRange x k.lanes = true := decide_eq_true ⟨h0, hn⟩
  have hx : laneIndexOk x k.lanes = true := (laneIndexOk_eq x _ k.lanes_le).trans hin
  have hfit : (x.toNat + 1) * k.width ≤ 128 :=
    (Nat.mul_le_mul_right _ (toNat_of_inRange hin).2).trans k.lanes_mul_width_le
  refine ⟨_, (if_pos ha).trans (if_pos hx), ?_, fun n hn => getLsbD_replaceLane_of_outside _ _ _ _ _ hn⟩
  rw [lane_replaceLane _ _ _ _ _ hfit hfit, if_pos rfl]

/-- Settles O22: SPLAT checks nothing. -/
theorem splatFillsEveryLane : Obligations.SplatFillsEveryLane := fun k _ _ _ => ⟨_, rfl, isVector_pack k _⟩

/-- Settles O23: a legal count is all that CONS checks. -/
theorem consFillsMissingLanes : Obligations.ConsFillsMissingLanes := fun k _ _ _ _ hn =>
  ⟨_, if_pos hn, isVector_pack k _⟩

/-- The low bits of a word have its signed value, wrapped. -/
theorem toInt_setWidth_word (x : Word) {w : Nat} (hw : w ≤ 64) : (x.setWidth w).toInt = x.toInt.bmod (2 ^ w) := by
  rw [BitVec.toInt_setWidth, BitVec.toInt_eq_toNat_bmod, Int.bmod_bmod_of_dvd (Nat.pow_dvd_pow 2 hw)]

/-- Settles O24: by the definition of coercion at each kind. -/
theorem coercionOfOperandWords : Obligations.CoercionOfOperandWords := by
  refine ⟨fun k x hk => ?_, fun _ => rfl, fun k x hk => ?_, fun _ => rfl⟩
  · cases k with
    | i32x4 | i16x8 | i8x16 => exact toInt_setWidth_word x (by decide)
    | f64x2 | f32x4 | b2 | b4 | b8 | b16 => cases hk
  · have htruth : (BitVec.ofBool (x != 0)).toNat = 1 ↔ x ≠ 0 := by
      rw [BitVec.toNat_ofBool, Bool.toNat_eq_one, bne_iff_ne]
    cases k with
    | b2 | b4 | b8 | b16 => exact htruth
    | f64x2 | f32x4 | i32x4 | i16x8 | i8x16 => cases hk

/-! ## Integer arithmetic (41_arithmetic.md) -/

section
variable {w : Nat} (x y : BitVec w)

theorem ofInt_toInt_add : BitVec.ofInt w (x.toInt + y.toInt) = x + y := by
  rw [BitVec.ofInt_add, BitVec.ofInt_toInt, BitVec.ofInt_toInt]

theorem ofInt_toInt_sub : BitVec.ofInt w (x.toInt - y.toInt) = x - y := by
  rw [Int.sub_eq_add_neg, BitVec.ofInt_add, BitVec.ofInt_neg, BitVec.ofInt_toInt, BitVec.ofInt_toInt,
    BitVec.sub_eq_add_neg]

theorem ofInt_toInt_mul : BitVec.ofInt w (x.toInt * y.toInt) = x * y := by
  rw [BitVec.ofInt_mul, BitVec.ofInt_toInt, BitVec.ofInt_toInt]

theorem ofInt_neg_toInt : BitVec.ofInt w (-x.toInt) = -x := by rw [BitVec.ofInt_neg, BitVec.ofInt_toInt]

theorem ofInt_natAbs_toInt : BitVec.ofInt w x.toInt.natAbs = if x.msb then -x else x := by
  rw [BitVec.msb_eq_toInt]
  by_cases h : x.toInt < 0
  · rw [Int.ofNat_natAbs_of_nonpos h.le, ofInt_neg_toInt, if_pos (decide_eq_true h)]
  · rw [Int.natAbs_of_nonneg (not_lt.1 h), BitVec.ofInt_toInt, if_neg (by simpa using h)]

theorem toInt_ite_le : (if x.toInt ≤ y.toInt then x else y).toInt = min x.toInt y.toInt := by
  rw [min_def]; split <;> rfl

theorem toInt_ite_ge : (if x.toInt ≥ y.toInt then x else y).toInt = max x.toInt y.toInt := by
  rw [max_comm, max_def]; split <;> rfl

end

/-- Settles O25: the exact result of the lanes, modulo 2^W. -/
theorem integerAddSubMul : Obligations.IntegerAddSubMul := by
  intro k vd a b s hk ha hb
  refine ⟨?_, ?_, ?_⟩
  · obtain ⟨r, hr, hv⟩ := binary_isVector vd (numericBinary_of_isInt hk _ _ _) ha hb
    exact ⟨r, hr, hv.congr fun _ _ => ofInt_toInt_add _ _⟩
  · obtain ⟨r, hr, hv⟩ := binary_isVector vd (numericBinary_of_isInt hk _ _ _) ha hb
    exact ⟨r, hr, hv.congr fun _ _ => ofInt_toInt_sub _ _⟩
  · obtain ⟨r, hr, hv⟩ := binary_isVector vd (numericBinary_of_isInt hk _ _ _) ha hb
    exact ⟨r, hr, hv.congr fun _ _ => ofInt_toInt_mul _ _⟩

/-- Settles O26: the negation or the absolute value of the lanes, modulo 2^W. -/
theorem integerNegAbs : Obligations.IntegerNegAbs := by
  intro k vd a s hk ha
  refine ⟨?_, ?_⟩
  · obtain ⟨r, hr, hv⟩ := unary_isVector vd (numericUnary_of_isInt hk _ _ _) ha
    exact ⟨r, hr, hv.congr fun _ _ => ofInt_neg_toInt _⟩
  · obtain ⟨r, hr, hv⟩ := unary_isVector vd (numericUnary_of_isInt hk _ _ _) ha
    exact ⟨r, hr, hv.congr fun _ _ => ofInt_natAbs_toInt _⟩

/-- Settles O27: the signed value of the lane chosen. -/
theorem integerMinMax : Obligations.IntegerMinMax := by
  intro k vd a b s hk ha hb
  refine ⟨?_, ?_⟩
  · obtain ⟨r, hr, hv⟩ := binary_isVector vd (numericBinary_of_isInt hk _ _ _) ha hb
    exact ⟨r, hr, fun j hj => (congrArg BitVec.toInt (hv.1 j hj)).trans (toInt_ite_le _ _)⟩
  · obtain ⟨r, hr, hv⟩ := binary_isVector vd (numericBinary_of_isInt hk _ _ _) ha hb
    exact ⟨r, hr, fun j hj => (congrArg BitVec.toInt (hv.1 j hj)).trans (toInt_ite_ge _ _)⟩

/-! ## Integer comparison, logic and select (42_compare_logic_select.md) -/

/-- Settles O39: one truth value a lane, by the relation of the command. -/
theorem integerComparisons : Obligations.IntegerComparisons := by
  intro k vd a b s hk ha hb i rel hmem
  simp only [List.mem_cons, Prod.mk.injEq, List.not_mem_nil, or_false] at hmem
  rcases hmem with ⟨rfl, rfl⟩ | ⟨rfl, rfl⟩ | ⟨rfl, rfl⟩ | ⟨rfl, rfl⟩ | ⟨rfl, rfl⟩ | ⟨rfl, rfl⟩
  all_goals exact compare_getLsbD vd (numericCompare_of_isInt hk _ _ _) ha hb

/-- Bit n of a lane-wise operation that works bit by bit. -/
theorem getLsbD_map2_bitwise (k : Kind) {f : BitVec k.width → BitVec k.width → BitVec k.width}
    {op : Bool → Bool → Bool} (hf : ∀ x y, ∀ i < k.width, (f x y).getLsbD i = op (x.getLsbD i) (y.getLsbD i))
    (a b : Payload) (n : Nat) :
    (map2 k.width k.lanes f a b).getLsbD n = (decide (n < k.lanes * k.width) && op (a.getLsbD n) (b.getLsbD n)) := by
  rw [map2, getLsbD_pack _ k.width_pos, hf _ _ _ (Nat.mod_lt _ k.width_pos), getLsbD_lane_div_mod k.width_pos,
    getLsbD_lane_div_mod k.width_pos]
  by_cases h : n < k.lanes * k.width
  · rw [decide_eq_true (h.trans_le k.lanes_mul_width_le), Bool.true_and]
  · rw [decide_eq_false h, Bool.and_false, Bool.false_and]

theorem getLsbD_map1_not (k : Kind) (a : Payload) (n : Nat) :
    (map1 k.width k.lanes (fun x => ~~~ x) a).getLsbD n = (decide (n < k.lanes * k.width) && !a.getLsbD n) :=
  getLsbD_map2_bitwise k (f := fun x _ => ~~~ x) (op := fun x _ => !x)
    (fun x _ i hi => by rw [BitVec.getLsbD_not, decide_eq_true hi, Bool.true_and]) a a n

/-- Settles O41: AND, OR and XOR by the bits of the lanes; NOT has one operand. -/
theorem logicIsBitwise : Obligations.LogicIsBitwise := by
  intro k vd a b s hk ha hb i op hmem
  have hk' : (k.isInt || k.isBool) = true := Bool.or_eq_true_iff.2 hk
  simp only [List.mem_cons, Prod.mk.injEq, List.not_mem_nil, or_false] at hmem
  rcases hmem with ⟨rfl, rfl⟩ | ⟨rfl, rfl⟩ | ⟨rfl, rfl⟩ | ⟨rfl, rfl⟩
  · exact ⟨_, binary_of_tag k vd (logicBinary_eq _ hk') ha hb,
      getLsbD_map2_bitwise k (fun _ _ _ _ => BitVec.getLsbD_and) _ _⟩
  · exact ⟨_, binary_of_tag k vd (logicBinary_eq _ hk') ha hb,
      getLsbD_map2_bitwise k (fun _ _ _ _ => BitVec.getLsbD_or) _ _⟩
  · exact ⟨_, binary_of_tag k vd (logicBinary_eq _ hk') ha hb,
      getLsbD_map2_bitwise k (fun _ _ _ _ => BitVec.getLsbD_xor) _ _⟩
  · exact ⟨_, unary_of_tag k vd (logicUnary_eq _ hk') ha, getLsbD_map1_not k _⟩

theorem execSel_of_tag {k : Kind} {vd m t f : VIdx} {s : State} (hk : k.isNumeric = true)
    (hm : s.tag m = some k.boolOf) (ht : s.tag t = some k) (hf : s.tag f = some k) :
    execSel k vd m t f s = .next
      ((s.setReg vd k (selectLanes k.width k.lanes (s.bits m) (s.bits t) (s.bits f))).respond .ok 0) := by
  cases k with
  | b2 | b4 | b8 | b16 => cases hk
  | f64x2 | f32x4 | i32x4 | i16x8 | i8x16 => exact if_pos ⟨hm, ht, hf⟩

theorem execSelb_of_tag {k : Kind} {vd m t f : VIdx} {s : State} (hk : k.isInt = true) (hm : s.tag m = some k)
    (ht : s.tag t = some k) (hf : s.tag f = some k) :
    execSelb k vd m t f s = .next ((s.setReg vd k (selectBits (s.bits m) (s.bits t) (s.bits f))).respond .ok 0) := by
  cases k with
  | f64x2 | f32x4 | b2 | b4 | b8 | b16 => cases hk
  | i32x4 | i16x8 | i8x16 => exact if_pos ⟨hm, ht, hf⟩

theorem getLsbD_selectBits (m t f : Payload) (n : Nat) :
    (selectBits m t f).getLsbD n = if m.getLsbD n then t.getLsbD n else f.getLsbD n := by
  by_cases hn : n < 128
  · simp only [selectBits, BitVec.getLsbD_or, BitVec.getLsbD_and, BitVec.getLsbD_not, hn, decide_true, Bool.true_and]
    cases m.getLsbD n <;> simp
  · have hge : 128 ≤ n := not_lt.1 hn
    rw [BitVec.getLsbD_of_ge _ _ hge, BitVec.getLsbD_of_ge _ _ hge, BitVec.getLsbD_of_ge _ _ hge,
      BitVec.getLsbD_of_ge _ _ hge, ite_self]

/-- Settles O42. -/
theorem selTakesWholeLanes : Obligations.SelTakesWholeLanes := fun k _ _ _ _ _ hk hm ht hf =>
  ⟨_, execSel_of_tag hk hm ht hf, isVector_pack k _⟩

/-- Settles O43. -/
theorem selbTakesBits : Obligations.SelbTakesBits := fun _ _ _ _ _ _ hk hm ht hf =>
  ⟨_, execSelb_of_tag hk hm ht hf, getLsbD_selectBits _ _ _⟩

theorem lane_selectLanes (k : Kind) (m t f : Payload) {j : Nat} (hj : j < k.lanes) :
    lane k.width (selectLanes k.width k.lanes m t f) j = if m.getLsbD j then lane k.width t j else lane k.width f j :=
  (isVector_pack k _).1 j hj

/-- SELB on a lane of the mask that is all ones or all zeros takes the lane whole. -/
theorem lane_selectBits {w : Nat} (c t f : Payload) (j : Nat) {p : Bool}
    (hc : lane w c j = if p then BitVec.allOnes w else 0) :
    lane w (selectBits c t f) j = if p then lane w t j else lane w f j := by
  apply BitVec.eq_of_getLsbD_eq
  intro i hi
  have hbit : c.getLsbD (j * w + i) = p := by
    have h := congrArg (fun x => x.getLsbD i) hc
    rw [lane, BitVec.getLsbD_extractLsb', decide_eq_true hi, Bool.true_and] at h
    rw [h]
    cases p <;> simp [hi]
  simp only [lane, BitVec.getLsbD_extractLsb', getLsbD_selectBits, hbit, apply_ite (BitVec.getLsbD · i)]
  cases p <;> rfl

theorem lane_allOnes {w j : Nat} (h : (j + 1) * w ≤ 128) : lane w (BitVec.allOnes 128) j = BitVec.allOnes w := by
  apply BitVec.eq_of_getLsbD_eq
  intro i hi
  have h128 : j * w + i < 128 := by rw [Nat.add_mul] at h; omega
  rw [lane, BitVec.getLsbD_extractLsb', BitVec.getLsbD_allOnes, BitVec.getLsbD_allOnes, decide_eq_true h128,
    Bool.and_true]

/-- Settles O44. A canonical mask makes both take whole lanes. Conversely, selecting between all ones and zeros gives
back the bit mask itself, while SEL gives lanes that are all ones or zero. -/
theorem selAndSelbCoincideOnCanonicalMasks : Obligations.SelAndSelbCoincideOnCanonicalMasks := by
  constructor
  · intro k vd m c t f s hk hm hc ht hf hcanon
    have hfull := Kind.lanes_mul_width_of_isNumeric (Kind.isNumeric_of_isInt hk)
    have hsel : selectLanes k.width k.lanes (s.bits m) (s.bits t) (s.bits f)
        = selectBits (s.bits c) (s.bits t) (s.bits f) := by
      refine eq_of_lane_eq k.width k.lanes k.width_pos hfull _ _ fun j hj => ?_
      rw [lane_selectLanes k _ _ _ hj, lane_selectBits _ _ _ j (hcanon j hj)]
    show execSel k vd m t f s = execSelb k vd c t f s
    rw [execSel_of_tag (Kind.isNumeric_of_isInt hk) hm ht hf, execSelb_of_tag hk hc ht hf, hsel]
  · rintro k c hk ⟨j, hj, hzero, hones⟩ ⟨m, hm⟩
    have hmask : selectBits c (BitVec.allOnes 128) 0 = c := by
      rw [selectBits, BitVec.and_allOnes]
      simp
    have hlane := congrArg (fun b => lane k.width b j) (hm (BitVec.allOnes 128) 0)
    simp only [lane_selectLanes k _ _ _ hj, hmask] at hlane
    have hfull : (j + 1) * k.width ≤ 128 := (Nat.mul_le_mul_right _ hj).trans k.lanes_mul_width_le
    split at hlane
    · exact hones (hlane.symm.trans (lane_allOnes hfull))
    · exact hzero (hlane.symm.trans (by simp [lane]))

end Sys2Proof.Machine

/-! SUPPORT. Shifts, saturation, the sum of absolute differences, FROMF and the permutations (O45 to O50;
43_shift_saturate_convert.md, 44_swizzle_shuffle.md): one lemma for each lane operation, then the commands. -/

namespace Sys2Proof.Machine

-- As in Tests/Slice0.lean: in the joined text, proofs elaborated side by side can run Lean out of threads.
set_option Elab.async false

/-! ## Shifts -/

theorem shlLane_eq (c w : Nat) (a : BitVec w) : shlLane c w a = a <<< c := by
  apply BitVec.eq_of_toNat_eq
  rw [shlLane, BitVec.toNat_ofNat, BitVec.toNat_shiftLeft, Nat.shiftLeft_eq]

theorem shrlLane_eq (c w : Nat) (a : BitVec w) : shrlLane c w a = a >>> c := by
  apply BitVec.eq_of_toNat_eq
  rw [shrlLane, BitVec.toNat_ofNat, BitVec.toNat_ushiftRight, Nat.shiftRight_eq_div_pow,
    Nat.mod_eq_of_lt (Nat.lt_of_le_of_lt (Nat.div_le_self _ _) a.isLt)]

theorem shraLane_eq (c w : Nat) (a : BitVec w) : shraLane c w a = a.sshiftRight c := by
  rw [shraLane, BitVec.sshiftRight, Int.shiftRight_eq_div_pow, Nat.cast_pow, Nat.cast_ofNat]

/-- The clamp at the lane's width (R180) changes no left or logical right shift: from W on the result is zero. -/
theorem logicalShiftLane_eq {shift : Nat → (w : Nat) → BitVec w → BitVec w} {c w : Nat} {a : BitVec w}
    (hzero : ∀ c, w ≤ c → shift c w a = 0) : logicalShiftLane shift c w a = shift c w a := by
  rw [logicalShiftLane, logicalCount]
  by_cases hw : w = 32
  · rw [if_pos hw]
    by_cases hc : c ≥ 32
    · rw [if_pos hc, hzero c (by omega)]
    · rw [if_neg hc]
  · rw [if_neg hw]
    show shift (min c w) w a = shift c w a
    rcases le_total c w with hc | hc
    · rw [min_eq_left hc]
    · rw [min_eq_right hc, hzero c hc, hzero w le_rfl]

/-- From W-1 on an arithmetic right shift leaves copies of the sign. -/
theorem sshiftRight_of_le {w c : Nat} (a : BitVec w) (hc : w - 1 ≤ c) : a.sshiftRight c = a.sshiftRight (w - 1) := by
  apply BitVec.eq_of_getLsbD_eq
  intro i hi
  rw [BitVec.getLsbD_sshiftRight, BitVec.getLsbD_sshiftRight]
  have hmsb : a.msb = a.getLsbD (w - 1) := BitVec.msb_eq_getLsbD_last a
  rcases Nat.eq_zero_or_pos i with rfl | hpos
  · rw [if_pos (by omega : w - 1 + 0 < w), Nat.add_zero, Nat.add_zero]
    split
    · rw [show c = w - 1 by omega]
    · rw [hmsb]
  · rw [if_neg (by omega), if_neg (by omega)]

/-- The clamp at 31, or at the width of a narrow lane (R180), changes no arithmetic right shift. -/
theorem sshiftRight_arithmeticCount {w : Nat} (c : Nat) (a : BitVec w) :
    a.sshiftRight (arithmeticCount w c) = a.sshiftRight c := by
  rw [arithmeticCount]
  split
  next hw =>
    show a.sshiftRight (min c 31) = a.sshiftRight c
    rcases le_total c 31 with hc | hc
    · rw [min_eq_left hc]
    · rw [min_eq_right hc, sshiftRight_of_le a (c := c) (by omega), sshiftRight_of_le a (c := 31) (by omega)]
  next =>
    show a.sshiftRight (min c w) = a.sshiftRight c
    rcases le_total c w with hc | hc
    · rw [min_eq_left hc]
    · rw [min_eq_right hc, sshiftRight_of_le a (c := c) (by omega), sshiftRight_of_le a (c := w) (by omega)]

theorem shiftCount_eq (x : Word) : shiftCount x = x.toNat % 2 ^ 32 := BitVec.toNat_setWidth ..

/-- Settles O45: the count of the model is clamped, which no lane shows. -/
theorem shiftsByAnyCount : Obligations.ShiftsByAnyCount := by
  intro k vd a x s hk ha
  rw [← shiftCount_eq]
  refine ⟨?_, ?_, ?_⟩
  · obtain ⟨r, hr, hv⟩ := unary_isVector vd (intUnary_eq hk (logicalShiftLane shlLane (shiftCount x))) ha
    refine ⟨r, hr, hv.congr fun j _ => ?_⟩
    rw [logicalShiftLane_eq fun c hc => (shlLane_eq c _ _).trans (BitVec.shiftLeft_eq_zero hc), shlLane_eq]
  · obtain ⟨r, hr, hv⟩ := unary_isVector vd (intUnary_eq hk (logicalShiftLane shrlLane (shiftCount x))) ha
    refine ⟨r, hr, hv.congr fun j _ => ?_⟩
    rw [logicalShiftLane_eq fun c hc => (shrlLane_eq c _ _).trans (BitVec.ushiftRight_eq_zero hc), shrlLane_eq]
  · obtain ⟨r, hr, hv⟩ := unary_isVector vd
      (intUnary_eq hk fun w a => shraLane (arithmeticCount w (shiftCount x)) w a) ha
    refine ⟨r, hr, hv.congr fun j _ => ?_⟩
    rw [shraLane_eq, sshiftRight_arithmeticCount]

/-! ## Saturating arithmetic -/

/-- The signed value of a 16- or 8-bit sum that wraps only when both operands have one sign and it has the other. -/
theorem toInt_addsLane {w : Nat} (hw : w = 16 ∨ w = 8) (a b : BitVec w) :
    (addsLane w a b).toInt = max (-2 ^ (w - 1)) (min (2 ^ (w - 1) - 1) (a.toInt + b.toInt)) := by
  have ha := BitVec.toInt_lt (x := a)
  have ha' := BitVec.le_toInt a
  have hb := BitVec.toInt_lt (x := b)
  have hb' := BitVec.le_toInt b
  rw [addsLane, addOverflow, clampLane, wrappedSum]
  simp only [BitVec.msb_eq_toInt, apply_ite BitVec.toInt, BitVec.toInt_ofInt, Int.bmod_def, Bool.and_eq_true,
    beq_iff_eq, bne_iff_ne, decide_eq_decide, decide_eq_true_eq, ne_eq]
  rcases hw with rfl | rfl
  all_goals
    simp only [Nat.reduceSub, Nat.reducePow, Int.reducePow, Int.reduceNeg] at *
    split_ifs <;> omega

/-- As for the sum, where the operands have different signs. -/
theorem toInt_subsLane {w : Nat} (hw : w = 16 ∨ w = 8) (a b : BitVec w) :
    (subsLane w a b).toInt = max (-2 ^ (w - 1)) (min (2 ^ (w - 1) - 1) (a.toInt - b.toInt)) := by
  have ha := BitVec.toInt_lt (x := a)
  have ha' := BitVec.le_toInt a
  have hb := BitVec.toInt_lt (x := b)
  have hb' := BitVec.le_toInt b
  rw [subsLane, subOverflow, clampLane, wrappedDifference]
  simp only [BitVec.msb_eq_toInt, apply_ite BitVec.toInt, BitVec.toInt_ofInt, Int.bmod_def, Bool.and_eq_true,
    bne_iff_ne, decide_eq_decide, decide_eq_true_eq, ne_eq]
  rcases hw with rfl | rfl
  all_goals
    simp only [Nat.reduceSub, Nat.reducePow, Int.reducePow, Int.reduceNeg] at *
    split_ifs <;> omega

/-- Settles O46: in every lane the exact result, clamped. -/
theorem saturationClampsTheExactResult : Obligations.SaturationClampsTheExactResult := by
  intro k vd a b s hk ha hb
  have hw : k.width = 16 ∨ k.width = 8 := by rcases hk with rfl | rfl <;> decide
  refine ⟨?_, ?_⟩
  · obtain ⟨r, hr, hv⟩ := binary_isVector vd (narrowBinary_eq addsLane hk) ha hb
    exact ⟨r, hr, fun j hj => (congrArg BitVec.toInt (hv.1 j hj)).trans (toInt_addsLane hw _ _)⟩
  · obtain ⟨r, hr, hv⟩ := binary_isVector vd (narrowBinary_eq subsLane hk) ha hb
    exact ⟨r, hr, fun j hj => (congrArg BitVec.toInt (hv.1 j hj)).trans (toInt_subsLane hw _ _)⟩

/-! ## The sum of absolute differences -/

/-- The absolute difference of two signed lanes of a payload pair. -/
theorem sumAbsDiff_eq_sum (a b : Payload) (n : Nat) :
    sumAbsDiff a b n = ((List.range n).map fun j => ((lane 8 a j).toInt - (lane 8 b j).toInt).natAbs).sum := by
  induction n with
  | zero => rfl
  | succ n ih => rw [sumAbsDiff, ih, List.range_succ, List.map_append, List.sum_append]; simp

/-- Two signed bytes differ by at most 255. -/
theorem sumAbsDiff_le (a b : Payload) (n : Nat) : sumAbsDiff a b n ≤ 255 * n := by
  induction n with
  | zero => exact le_rfl
  | succ n ih =>
    have ha := BitVec.toInt_lt (x := lane 8 a n)
    have ha' := BitVec.le_toInt (lane 8 a n)
    have hb := BitVec.toInt_lt (x := lane 8 b n)
    have hb' := BitVec.le_toInt (lane 8 b n)
    rw [sumAbsDiff]
    omega

/-- Settles O47: the sum is small enough to be the word's value. -/
theorem sadIsTheExactSum : Obligations.SadIsTheExactSum := by
  intro a b s ha hb
  have hle := sumAbsDiff_le (s.bits a) (s.bits b) 16
  have hval : (BitVec.ofNat 64 (sumAbsDiff (s.bits a) (s.bits b) 16)).toNat = sumAbsDiff (s.bits a) (s.bits b) 16 :=
    (BitVec.toNat_ofNat ..).trans (Nat.mod_eq_of_lt (by omega))
  exact ⟨_, if_pos ⟨ha, hb⟩, hval.le.trans hle, hval.trans (sumAbsDiff_eq_sum _ _ 16)⟩

/-! ## FROMF -/

/-- Units over the units of 1.0, toward zero: the sign does not matter to truncation. -/
theorem signedUnits_div (n : Bool) (u d : Nat) : signedUnits n (u / d) = (signedUnits n u).tdiv d := by
  cases n with
  | false => exact (Int.ofNat_tdiv u d).symm
  | true => rw [signedUnits, if_pos rfl, signedUnits, if_pos rfl, Int.neg_tdiv, Int.ofNat_tdiv]

/-- The integer that a lane in range is truncated to fits 32 bits. -/
theorem toInt_of_truncLane {l q : BitVec 32} (h : truncLane l = some q) {n : Bool} {u : Nat}
    (hl : binary32.unpack l = .fin n u) : q.toInt = (signedUnits n u).tdiv (2 ^ 149) := by
  have hunit : binary32.unitExp = 149 := rfl
  rw [truncLane, hl] at h
  dsimp only at h
  rw [hunit] at h
  split at h
  next hrange =>
    cases h
    have hdiv := Nat.div_add_mod u (2 ^ 149)
    have hmod := Nat.mod_lt u (show 2 ^ 149 > 0 by decide)
    rw [BitVec.toInt_ofInt_eq_self (by decide)]
    · exact signedUnits_div n u (2 ^ 149)
    all_goals
      cases n <;> simp only [signedUnits, if_true, if_false, Bool.false_eq_true] at hrange ⊢ <;> omega
  · cases h

/-- The lanes of four words put together. -/
theorem lane_append_four (a b c d : BitVec 32) {j : Nat} (hj : j < 4) :
    lane 32 (d ++ c ++ b ++ a) j = [a, b, c, d][j] := by
  apply BitVec.eq_of_getLsbD_eq
  intro i hi
  simp only [lane, BitVec.getLsbD_extractLsb', hi, decide_true, Bool.true_and, BitVec.getLsbD_append]
  interval_cases j
  · rw [if_pos (by omega)]; simp
  · rw [if_neg (by omega), if_pos (by omega)]; simp
  · rw [if_neg (by omega), if_neg (by omega), if_pos (by omega)]; congr 1; omega
  · rw [if_neg (by omega), if_neg (by omega), if_neg (by omega)]; congr 1; omega

/-- The lanes of the result of FROMF are the lanes truncated. -/
theorem lane_of_truncLanes {b r : Payload} (h : truncLanes b = some r) {j : Nat} (hj : j < 4) :
    truncLane (lane 32 b j) = some (lane 32 r j) := by
  unfold truncLanes at h
  split at h
  next q0 q1 q2 q3 h0 h1 h2 h3 =>
    cases h
    rw [lane_append_four q0 q1 q2 q3 hj]
    interval_cases j
    · exact h0
    · exact h1
    · exact h2
    · exact h3
  · cases h

/-- Settles O48: four lanes in range are truncated, each by `toInt_of_truncLane`. -/
theorem fromfTruncatesTowardZero : Obligations.FromfTruncatesTowardZero := by
  intro vd a s ha hconv
  have hall : (truncLanes (s.bits a)).isSome = true := by
    rw [isSome_truncLanes, List.all_eq_true]
    exact fun j hj => hconv j (List.mem_range.1 hj)
  obtain ⟨r, hr⟩ := Option.isSome_iff_exists.1 hall
  refine ⟨r, ?_, fun j hj n u hu => toInt_of_truncLane (lane_of_truncLanes hr hj) hu⟩
  show execFromf .i32x4 vd a s = _
  rw [execFromf, if_pos ha, hr]
  rfl

/-! ## Permutations -/

/-- Settles O49: every index is in range, so the swizzle is written. -/
theorem swizzleCopiesTheIndexedLanes : Obligations.SwizzleCopiesTheIndexedLanes := by
  intro k vd a x s hk ha hx
  have hr : rangesValid (.swz k vd a x) = true := by
    rw [rangesValid, Instr.access, Bool.and_true, List.all_eq_true]
    exact fun j hj => hx j (List.mem_range.1 hj)
  exact ⟨_, (execSwz_of_tag hk ha).trans (if_pos hr), isVector_pack k _⟩

/-- Settles O50: every index is in range, so the shuffle is written. -/
theorem shuffleCopiesFromBothSources : Obligations.ShuffleCopiesFromBothSources := by
  intro k vd a b x s hk ha hb hx
  have hr : rangesValid (.shuf k vd a b x) = true := by
    rw [rangesValid, Instr.access, Bool.and_true, List.all_eq_true]
    exact fun j hj => hx j (List.mem_range.1 hj)
  exact ⟨_, (execShuf_of_tag hk ⟨ha, hb⟩).trans (if_pos hr), isVector_pack k _⟩

end Sys2Proof.Machine

/-! SUPPORT. Bitcast, load and store (O51 to O55; 45_bitcast.md, 46_load_store.md): the whole state after each command
that passes its checks, and what a MemRead finds where a MemWrite has been. -/

namespace Sys2Proof.Machine

-- As in Tests/Slice0.lean: in the joined text, proofs elaborated side by side can run Lean out of threads.
set_option Elab.async false

/-! ## Bitcast -/

/-- Settles O51: both kinds are castable and the tag check passes. -/
theorem bitcastKeepsTheBits : Obligations.BitcastKeepsTheBits := by
  intro k t vd a s hk ht ha
  show execBcast k t vd a s = _
  rw [execBcast, castable_eq_isNumeric, castable_eq_isNumeric, hk, ht, Bool.and_self, if_pos rfl, if_pos ha]
  rfl

/-- The register that a bitcast has written. -/
theorem exists_bcast_next {k t : Kind} (vd : VIdx) {a : VIdx} {s : State} (hk : k.isNumeric = true)
    (ht : t.isNumeric = true) (ha : s.tag a = some k) :
    ∃ u, exec (.bcast k t vd a) s = .next u ∧ u.reg vd = ⟨some t, s.bits a⟩ :=
  ⟨_, bitcastKeepsTheBits k t vd a s hk ht ha, State.setReg_reg_self ..⟩

/-- A chain of bitcasts carries the payload to its end, under the kind of its end. -/
theorem exists_bcastChain_next (hops : List (Kind × VIdx)) {k : Kind} {r : VIdx} {s : State} (hk : k.isNumeric = true)
    (hhops : ∀ p ∈ hops, p.1.isNumeric = true) (hr : s.tag r = some k) :
    ∃ t, bcastChain k r hops s = .next t ∧
      t.reg (chainEnd k r hops).2 = ⟨some (chainEnd k r hops).1, s.bits r⟩ := by
  induction hops generalizing k r s with
  | nil => exact ⟨s, rfl, State.reg_eq_of_tag hr⟩
  | cons p hops ih =>
    obtain ⟨k', r'⟩ := p
    have hk' : k'.isNumeric = true := hhops (k', r') List.mem_cons_self
    obtain ⟨u, hu, hreg⟩ := exists_bcast_next r' hk hk' hr
    have htag : u.tag r' = some k' := congrArg VReg.tag hreg
    have hbits : u.bits r' = s.bits r := by rw [State.bits, hreg]
    obtain ⟨t, ht, htreg⟩ := ih hk' (fun q hq => hhops q (List.mem_cons_of_mem _ hq)) htag
    refine ⟨t, ?_, hbits ▸ htreg⟩
    rw [bcastChain, hu]
    exact ht

/-- Settles O52: a chain that ends in the first kind ends in the first register's tag and payload; the two bitcasts are
such a chain. -/
theorem bitcastRoundTrip : Obligations.BitcastRoundTrip := by
  constructor
  · intro A B vs vt vu s hA hB hs
    obtain ⟨u, hu, hreg⟩ := exists_bcast_next vt hA hB hs
    obtain ⟨t, ht, htreg⟩ := exists_bcast_next vu hB hA (congrArg VReg.tag hreg)
    refine ⟨u, t, hu, ht, htreg.trans ?_⟩
    rw [State.reg_eq_of_tag hs, State.bits, hreg]
  · intro A vs hops s hA hhops hs hend
    obtain ⟨t, ht, hreg⟩ := exists_bcastChain_next hops hA hhops hs
    exact ⟨t, ht, by rw [hreg, hend, State.reg_eq_of_tag hs]⟩

/-! ## A LOAD or STORE command that passes the validation -/

/-- The address of an access, where the buffer kind is one of 1 .. 5 (46_load_store.md R222). -/
def accessBase (b : Buffer) : Word := bufferAddress b (widthOfBufferKind b.bkind.toNat)

theorem byteAddress_accessBase {b : Buffer} {n : Nat} (h : bufferValid b n = true) (j : Nat) :
    byteAddress (accessBase b) j = accessAddress b j := by
  simp only [bufferValid, Bool.and_eq_true, decide_eq_true_eq] at h
  obtain ⟨⟨-, hidx⟩, -⟩ := h
  exact byteAddress_bufferAddress b j hidx

section
variable {c : Fin 4} {k : Kind} {b : Buffer} {s : State} (hk : k.isNumeric = true) (hc : c.val < k.lanes)
  (hb : bufferValid b (bytesMoved c k) = true)
include hk hc hb

theorem exec_loadCommand_of_valid (vd : VIdx) :
    exec (loadCommand c k vd b) s = .next (((s.setScratch (memRead s.mem (accessBase b) (bytesMoved c k))).setReg vd k
      (memRead s.mem (accessBase b) (bytesMoved c k))).respond .ok 0) := by
  rw [exec_loadCommand, loadLanes, lanesMoved_eq _ _ c.isLt, if_pos ⟨hk, hc⟩]
  dsimp only
  rw [requiredBytes_prefixLanes, validate_of_bufferValid hb]
  rfl

theorem exec_storeCommand_of_valid {r : VIdx} (hr : s.tag r = some k) :
    exec (storeCommand c k r b) s =
      .next (((s.setScratch (s.bits r)).storeScratch (accessBase b) (bytesMoved c k)).respond .ok 0) := by
  rw [exec_storeCommand, storeLanes, lanesMoved_eq _ _ c.isLt, if_pos ⟨hk, hc⟩]
  dsimp only
  rw [if_pos hr, requiredBytes_prefixLanes, validate_of_bufferValid hb]
  rfl

end

/-- Settles O53: the bytes of a MemRead at the addresses of the access. -/
theorem loadsReadTheBytes : Obligations.LoadsReadTheBytes := by
  intro c k vd b s hk hc hb
  refine ⟨_, exec_loadCommand_of_valid hk hc hb vd, fun n hn => ?_⟩
  rw [lane_memRead _ _ _ _ hn, byteAddress_accessBase hb]

/-- Settles O54: the bytes of a MemWrite at the addresses of the access. -/
theorem storesWriteTheBytes : Obligations.StoresWriteTheBytes := by
  intro c k r b s hk hc hr hb
  refine ⟨_, exec_storeCommand_of_valid hk hc hb hr, fun n hn => ?_, fun a ha => ?_, rfl, rfl, rfl, rfl, rfl⟩
  · rw [← byteAddress_accessBase hb]
    exact Memory.read_memWrite _ _ _ _ _ hn (bytesMoved_le c k hc)
  · refine Memory.read_memWrite_of_ne _ _ _ _ _ fun j hj => ?_
    rw [byteAddress_accessBase hb]
    exact ha j hj

/-! ## A store and then a load -/

/-- A MemRead of the bytes that a MemWrite has written: the low bytes of what was written. -/
theorem getLsbD_memRead_memWrite (m : Memory) (a : Word) {n : Nat} (hn : n ≤ 16) (v : Payload) (i : Nat) :
    (memRead (memWrite m a n v) a n).getLsbD i = (decide (i < 8 * n) && v.getLsbD i) := by
  rw [getLsbD_memRead]
  by_cases hi : i < 8 * n
  · rw [Memory.read_memWrite m a n v (i / 8) (by omega) hn, getLsbD_lane_div_mod (by decide),
      decide_eq_true (by omega : i < 128), Bool.true_and]
  · rw [decide_eq_false hi, Bool.and_false, Bool.false_and, Bool.false_and]

/-- A MemRead of all sixteen bytes gives back the payload. -/
theorem memRead_memWrite_whole (m : Memory) (a : Word) (v : Payload) : memRead (memWrite m a 16 v) a 16 = v := by
  apply BitVec.eq_of_getLsbD_eq
  intro i hi
  rw [getLsbD_memRead_memWrite m a le_rfl, decide_eq_true (by omega : i < 8 * 16), Bool.true_and]

theorem bytesMoved_zero {k : Kind} (hk : k.isNumeric = true) : bytesMoved 0 k = 16 := by
  cases k with
  | f64x2 | f32x4 | i32x4 | i16x8 | i8x16 => rfl
  | b2 | b4 | b8 | b16 => cases hk

/-- The bytes moved are whole lanes. -/
theorem eight_mul_bytesMoved {k : Kind} (hk : k.isNumeric = true) (c : Fin 4) :
    8 * bytesMoved c k = k.prefixLanes c.val * k.width := by
  have hdvd : 8 ∣ k.width := by
    cases k with
    | f64x2 | f32x4 | i32x4 | i16x8 | i8x16 => decide
    | b2 | b4 | b8 | b16 => cases hk
  exact Nat.mul_div_cancel' (Dvd.dvd.mul_left hdvd _)

/-- The lanes of a payload whose bits from lane n on have been cleared. -/
theorem lane_of_prefix {w n : Nat} {r v : Payload} (hr : ∀ i, r.getLsbD i = (decide (i < n * w) && v.getLsbD i))
    (j : Nat) : lane w r j = if j < n then lane w v j else 0 := by
  apply BitVec.eq_of_getLsbD_eq
  intro i hi
  rw [lane, BitVec.getLsbD_extractLsb', hr, decide_eq_true hi, Bool.true_and]
  by_cases hj : j < n
  · have hlt : j * w + i < n * w := by
      have := Nat.mul_le_mul_right w (Nat.succ_le_of_lt hj)
      rw [Nat.succ_mul] at this
      omega
    rw [decide_eq_true hlt, if_pos hj, lane, BitVec.getLsbD_extractLsb', decide_eq_true hi]
  · have hge : ¬ j * w + i < n * w := by
      have := Nat.mul_le_mul_right w (not_lt.1 hj)
      omega
    rw [decide_eq_false hge, if_neg hj, Bool.false_and]
    exact BitVec.getLsbD_zero.symm

/-- Settles O55: the load finds the bytes that the store has left, all sixteen or those of the first lanes. -/
theorem storeThenLoadRoundTrip : Obligations.StoreThenLoadRoundTrip := by
  constructor
  · intro c k vs vd b s hk hc hs hb
    refine ⟨_, _, exec_storeCommand_of_valid hk hc hb hs, exec_loadCommand_of_valid hk hc hb vd, ?_, ?_, ?_⟩
    · rintro rfl
      rw [State.respond_reg, State.setReg_reg_self, State.reg_eq_of_tag hs, bytesMoved_zero hk]
      exact congrArg (VReg.mk (some k)) (memRead_memWrite_whole _ _ _)
    · rw [State.respond_tag, State.setReg_tag, if_pos rfl]
    · intro j hj
      rw [State.bits, State.respond_reg, State.setReg_reg_self]
      have hprefix : (j < k.prefixLanes c.val) = (c = 0 ∨ j < c.val) := by
        rw [Kind.prefixLanes, Fin.ext_iff, Fin.val_zero]
        split <;> simp_all
      simp only [← hprefix]
      refine lane_of_prefix (fun i => ?_) j
      rw [← eight_mul_bytesMoved hk]
      exact getLsbD_memRead_memWrite _ _ (bytesMoved_le c k hc) _ i
  · intro A B vs vd b s hA hB hs hb
    have hbA : bufferValid b (bytesMoved 0 A) = true := by rw [bytesMoved_zero hA]; exact hb
    have hbB : bufferValid b (bytesMoved 0 B) = true := by rw [bytesMoved_zero hB]; exact hb
    obtain ⟨t, ht, hreg⟩ := exists_bcast_next vd hA hB hs
    refine ⟨_, _, t, exec_storeCommand_of_valid hA A.lanes_pos hbA hs, exec_loadCommand_of_valid hB B.lanes_pos hbB vd,
      ht, ?_⟩
    rw [State.respond_reg, State.setReg_reg_self, hreg, bytesMoved_zero hA, bytesMoved_zero hB]
    exact congrArg (VReg.mk (some B)) (memRead_memWrite_whole _ _ _)

end Sys2Proof.Machine

/-! SUPPORT. The encodings of float values (O36; 10_state.md R25), the special cases of binary64 arithmetic (O35;
41_arithmetic.md R120, R122) and the commands that put a binary64 operation on every lane (O28, O29; R125 to R132). -/

namespace Sys2Proof.Machine

-- As in Tests/Slice0.lean: in the joined text, proofs elaborated side by side can run Lean out of threads.
set_option Elab.async false

/-! ## Encodings -/

/-- A lane of width w is an encoding of the format: a sign bit above exponent and fraction. -/
structure FloatFormat.Encodes (F : FloatFormat) (w : Nat) : Prop where
  width_eq : w = F.fracBits + F.expBits + 1
  fracBits_pos : 0 < F.fracBits
  expBits_pos : 0 < F.expBits

theorem binary64_encodes : binary64.Encodes 64 := ⟨rfl, by decide, by decide⟩
theorem binary32_encodes : binary32.Encodes 32 := ⟨rfl, by decide, by decide⟩

theorem lowBits_lt {w : Nat} (a : BitVec w) : lowBits a < 2 ^ (w - 1) := Nat.mod_lt _ (Nat.two_pow_pos _)

section
variable {F : FloatFormat} {w : Nat} (hF : F.Encodes w)
include hF

theorem FloatFormat.Encodes.sub_one_eq : w - 1 = F.fracBits + F.expBits := by rw [hF.width_eq, Nat.add_sub_cancel]

theorem FloatFormat.Encodes.infBits_lt : F.infBits < 2 ^ (w - 1) := by
  rw [hF.sub_one_eq, Nat.pow_add, Nat.mul_comm, FloatFormat.infBits]
  exact Nat.mul_lt_mul_of_pos_right (Nat.sub_lt (Nat.two_pow_pos _) Nat.one_pos) (Nat.two_pow_pos _)

/-- The sign bit as `unpack` reads it. -/
theorem FloatFormat.Encodes.sign_eq (a : BitVec w) :
    decide (a.toNat / 2 ^ (F.fracBits + F.expBits) % 2 = 1) = a.msb := by
  have hlt : a.toNat < 2 * 2 ^ (F.fracBits + F.expBits) := by
    rw [← hF.sub_one_eq, ← Nat.pow_succ', Nat.succ_eq_add_one, Nat.sub_add_cancel (by rw [hF.width_eq]; omega)]
    exact a.isLt
  have hdiv : a.toNat / 2 ^ (F.fracBits + F.expBits) < 2 := Nat.div_lt_of_lt_mul (by rwa [Nat.mul_comm] at hlt)
  rw [BitVec.msb_eq_decide, hF.sub_one_eq, Nat.mod_eq_of_lt hdiv]
  congr 1
  rw [eq_iff_iff, ← Nat.one_le_div_iff (Nat.two_pow_pos _)]
  omega

/-- The exponent field is the upper part of the bits below the sign. -/
theorem FloatFormat.Encodes.exponent_eq (a : BitVec w) :
    a.toNat / 2 ^ F.fracBits % 2 ^ F.expBits = lowBits a / 2 ^ F.fracBits := by
  rw [lowBits, hF.sub_one_eq, Nat.pow_add, Nat.mod_mul_right_div_self]

/-- The fraction field is the lower part of the bits below the sign. -/
theorem FloatFormat.Encodes.fraction_eq (a : BitVec w) : a.toNat % 2 ^ F.fracBits = lowBits a % 2 ^ F.fracBits := by
  rw [lowBits, hF.sub_one_eq, Nat.mod_mod_of_dvd _ (Nat.pow_dvd_pow 2 (Nat.le_add_right _ _))]

/-- The reading of an encoding by the bits below its sign bit. -/
theorem FloatFormat.Encodes.unpack_eq (a : BitVec w) : F.unpack a =
    if lowBits a < F.infBits then .fin a.msb (F.unitsAt (lowBits a))
    else if lowBits a = F.infBits then .inf a.msb else .nan := by
  have hP : 0 < 2 ^ F.fracBits := Nat.two_pow_pos _
  have hlt : lowBits a / 2 ^ F.fracBits < 2 ^ F.expBits := by
    refine Nat.div_lt_of_lt_mul ?_
    rw [← Nat.pow_add, ← hF.sub_one_eq]
    exact lowBits_lt a
  have hsplit := Nat.div_add_mod (lowBits a) (2 ^ F.fracBits)
  have hbelow : lowBits a < F.infBits ↔ lowBits a / 2 ^ F.fracBits < 2 ^ F.expBits - 1 :=
    (Nat.div_lt_iff_lt_mul hP).symm
  simp only [FloatFormat.unpack, hF.sign_eq, hF.exponent_eq, hF.fraction_eq]
  by_cases hex : lowBits a / 2 ^ F.fracBits = 2 ^ F.expBits - 1
  · have hnot : ¬ lowBits a < F.infBits := by rw [hbelow]; omega
    have hinf : lowBits a = F.infBits ↔ lowBits a % 2 ^ F.fracBits = 0 := by
      rw [FloatFormat.infBits, ← hex, Nat.mul_comm]
      omega
    rw [if_pos hex, if_neg hnot]
    simp only [hinf]
  · have hlt' : lowBits a < F.infBits := by rw [hbelow]; omega
    rw [if_neg hex, if_pos hlt', FloatFormat.unitsAt]
    by_cases h0 : lowBits a / 2 ^ F.fracBits = 0
    · have hsmall : lowBits a < 2 ^ F.fracBits := by rwa [Nat.div_eq_zero_iff_lt hP] at h0
      rw [if_pos h0, if_pos hsmall, Nat.mod_eq_of_lt hsmall]
    · have hbig : ¬ lowBits a < 2 ^ F.fracBits := by rwa [Nat.div_eq_zero_iff_lt hP] at h0
      rw [if_neg h0, if_neg hbig]

/-- The bits of an encoding put together, as a number. -/
theorem FloatFormat.Encodes.toNat_pack (neg : Bool) {low : Nat} (h : low < 2 ^ (w - 1)) :
    (F.pack w neg low).toNat = (if neg then 2 ^ (w - 1) else 0) + low := by
  have hw : 2 ^ w = 2 * 2 ^ (w - 1) := by rw [hF.width_eq, Nat.add_sub_cancel, Nat.pow_succ, Nat.mul_comm]
  rw [FloatFormat.pack, ← hF.sub_one_eq, BitVec.toNat_ofNat, Nat.mod_eq_of_lt]
  rw [hw]
  split <;> omega

theorem FloatFormat.Encodes.lowBits_pack (neg : Bool) {low : Nat} (h : low < 2 ^ (w - 1)) :
    lowBits (F.pack w neg low) = low := by
  rw [lowBits, hF.toNat_pack neg h]
  cases neg with
  | true => rw [if_pos rfl, Nat.add_mod_left, Nat.mod_eq_of_lt h]
  | false => rw [if_neg Bool.false_ne_true, Nat.zero_add, Nat.mod_eq_of_lt h]

theorem FloatFormat.Encodes.msb_pack (neg : Bool) {low : Nat} (h : low < 2 ^ (w - 1)) :
    (F.pack w neg low).msb = neg := by
  rw [BitVec.msb_eq_decide, hF.toNat_pack neg h]
  cases neg with
  | true => exact decide_eq_true (Nat.le_add_right _ _)
  | false => exact decide_eq_false (by rw [if_neg Bool.false_ne_true]; omega)

/-- An encoding is its sign and the bits below it. -/
theorem FloatFormat.Encodes.pack_lowBits (a : BitVec w) : F.pack w a.msb (lowBits a) = a := by
  apply BitVec.eq_of_toNat_eq
  rw [hF.toNat_pack _ (lowBits_lt a), lowBits, BitVec.msb_eq_decide]
  have hw : 2 ^ w = 2 * 2 ^ (w - 1) := by rw [hF.width_eq, Nat.add_sub_cancel, Nat.pow_succ, Nat.mul_comm]
  have ha := a.isLt
  by_cases hs : 2 ^ (w - 1) ≤ a.toNat
  · rw [if_pos (decide_eq_true hs), Nat.mod_eq_sub_mod hs, Nat.mod_eq_of_lt (by omega)]
    omega
  · rw [if_neg (by simpa using hs), Nat.mod_eq_of_lt (by omega), Nat.zero_add]

/-- An encoding above the bits of infinity is a NaN, and no other is. -/
theorem FloatFormat.Encodes.unpack_eq_nan_iff (a : BitVec w) : F.unpack a = .nan ↔ F.infBits < lowBits a := by
  rw [hF.unpack_eq]
  split
  · constructor
    · intro h; cases h
    · omega
  · split
    · constructor
      · intro h; cases h
      · omega
    · simp only [true_iff]; omega

theorem FloatFormat.Encodes.eq_pack_of_inf {a : BitVec w} {n : Bool} (h : F.unpack a = .inf n) :
    a = F.pack w n F.infBits := by
  rw [hF.unpack_eq] at h
  split at h
  · cases h
  · split at h
    next heq => cases h; rw [← heq, hF.pack_lowBits]
    · cases h

/-- A finite encoding: its sign and the units of the bits below it. -/
theorem FloatFormat.Encodes.of_unpack_fin {a : BitVec w} {n : Bool} {x : Nat} (h : F.unpack a = .fin n x) :
    lowBits a < F.infBits ∧ a.msb = n ∧ F.unitsAt (lowBits a) = x := by
  rw [hF.unpack_eq] at h
  split at h
  next hlt => cases h; exact ⟨hlt, rfl, rfl⟩
  · split at h <;> cases h

theorem FloatFormat.Encodes.eq_pack_of_zero {a : BitVec w} {n : Bool} (h : F.unpack a = .fin n 0) :
    a = F.pack w n 0 := by
  obtain ⟨-, hn, hu⟩ := hF.of_unpack_fin h
  have hlow : lowBits a = 0 := by
    rw [FloatFormat.unitsAt] at hu
    split at hu
    · exact hu
    · exact absurd hu (Nat.mul_ne_zero (Nat.add_pos_left (Nat.two_pow_pos _) _).ne' (Nat.two_pow_pos _).ne')
  rw [← hn, ← hlow, hF.pack_lowBits]

end

/-- Settles O36: both formats. -/
theorem encodingOfFloatValues : Obligations.EncodingOfFloatValues :=
  ⟨binary64_encodes.unpack_eq, binary32_encodes.unpack_eq⟩

/-! ## Special cases of binary64 arithmetic -/

theorem eq_inf64_of_unpack {a : BitVec 64} {n : Bool} (h : binary64.unpack a = .inf n) : a = inf64 n :=
  binary64_encodes.eq_pack_of_inf h

theorem eq_zero64_of_unpack {a : BitVec 64} {n : Bool} (h : binary64.unpack a = .fin n 0) : a = zero64 n :=
  binary64_encodes.eq_pack_of_zero h

theorem unpack_of_isNaNLane {a : BitVec 64} (h : isNaNLane .f64x2 a = true) : binary64.unpack a = .nan :=
  (binary64_encodes.unpack_eq_nan_iff a).2 (of_decide_eq_true h)

section
variable (v : FloatVal)

theorem addVal_nan_right : addVal v .nan = Config.nanF64 := by cases v <;> rfl
theorem mulVal_nan_right : mulVal v .nan = Config.nanF64 := by cases v <;> rfl
theorem divVal_nan_right : divVal v .nan = Config.nanF64 := by cases v <;> rfl

end

/-- The sum of a value and its opposite is +0. -/
theorem addVal_opposite {n m : Bool} (x : Nat) (h : n ≠ m) : addVal (.fin n x) (.fin m x) = zero64 false := by
  obtain rfl : m = !n := by cases n <;> cases m <;> simp at h ⊢
  rw [addVal, signedUnits_not, Int.add_right_neg, if_pos rfl, Bool.and_not_self]

theorem addVal_zeros (n m : Bool) : addVal (.fin n 0) (.fin m 0) = zero64 (n && m) := by
  rw [addVal, signedUnits_zero, signedUnits_zero, if_pos (Int.add_zero 0)]

/-- Settles O35, clause by clause: the values of the operands decide, and an infinity or a zero is its encoding. -/
theorem float64SpecialCases : Obligations.Float64SpecialCases := by
  intro a b
  refine ⟨?_, ?_, ?_, ?_, ?_, ?_, ?_, ?_, ?_, ?_, ?_⟩
  · rintro (h | h)
    · simp only [f64Add, f64Sub, f64Mul, f64Div, unpack_of_isNaNLane h]
      exact ⟨rfl, rfl, rfl, rfl⟩
    · simp only [f64Add, f64Sub, f64Mul, f64Div, unpack_of_isNaNLane h, FloatVal.negate]
      exact ⟨addVal_nan_right _, addVal_nan_right _, mulVal_nan_right _, divVal_nan_right _⟩
  · intro h
    rw [f64Sqrt, unpack_of_isNaNLane h]
    rfl
  · intro n m ha hb
    have hinf := eq_inf64_of_unpack ha
    rw [f64Add, f64Sub, f64Mul, f64Div, ha, hb]
    refine ⟨?_, ?_, rfl, rfl⟩
    · rw [addVal, ← hinf]
    · rw [FloatVal.negate, addVal, ← hinf]
      cases n <;> cases m <;> rfl
  · intro n m y ha hb
    have hinf := eq_inf64_of_unpack ha
    rw [f64Add, f64Sub, f64Mul, f64Div, ha, hb]
    exact ⟨hinf.symm, hinf.symm, rfl, rfl⟩
  · intro n m x ha hb
    rw [f64Add, f64Sub, f64Mul, f64Div, ha, hb]
    exact ⟨(eq_inf64_of_unpack hb).symm, rfl, rfl, rfl⟩
  · intro n m x ha hb
    rw [f64Div, ha, hb, divVal, if_pos rfl]
  · intro n m x ha hb
    rw [f64Add, f64Sub, ha, hb]
    exact ⟨addVal_opposite x, fun h => addVal_opposite x (by rw [h]; cases m <;> decide)⟩
  · intro n m ha hb
    rw [f64Add, f64Sub, ha, hb]
    exact ⟨addVal_zeros n m, addVal_zeros n (!m)⟩
  · intro x ha
    rw [f64Sqrt, ha, sqrtVal]
    split
    next hx => subst hx; exact (eq_zero64_of_unpack ha).symm
    · rfl
  · intro ha
    rw [f64Sqrt, ha, sqrtVal, if_pos rfl]
    exact (eq_zero64_of_unpack ha).symm
  · intro n ha
    rw [f64Sqrt, ha, sqrtVal]
    cases n with
    | true => rfl
    | false => exact (eq_inf64_of_unpack ha).symm

/-! ## A binary64 operation on every lane -/

section
variable {k : Kind} (hk : k.isFloat = true)
include hk

theorem numericBinary_of_isFloat (int : (w : Nat) → BitVec w → BitVec w → BitVec w)
    (op : BitVec 64 → BitVec 64 → BitVec 64) :
    numericBinary int op (viaF64 op) k = some (map2 k.width k.lanes (floatLane2 op k)) := by
  cases k with
  | f64x2 | f32x4 => rfl
  | i32x4 | i16x8 | i8x16 | b2 | b4 | b8 | b16 => cases hk

theorem floatBinary_of_isFloat (op : BitVec 64 → BitVec 64 → BitVec 64) :
    floatBinary op (viaF64 op) k = some (map2 k.width k.lanes (floatLane2 op k)) := by
  cases k with
  | f64x2 | f32x4 => rfl
  | i32x4 | i16x8 | i8x16 | b2 | b4 | b8 | b16 => cases hk

theorem floatUnary_of_isFloat (op : BitVec 64 → BitVec 64) :
    floatUnary op (viaF64Unary op) k = some (map1 k.width k.lanes (floatLane1 op k)) := by
  cases k with
  | f64x2 | f32x4 => rfl
  | i32x4 | i16x8 | i8x16 | b2 | b4 | b8 | b16 => cases hk

end

/-- Settles O28. -/
theorem floatAddSubMulDiv : Obligations.FloatAddSubMulDiv := fun _ vd _ _ _ hk ha hb =>
  ⟨binary_isVector vd (numericBinary_of_isFloat hk _ f64Add) ha hb,
    binary_isVector vd (numericBinary_of_isFloat hk _ f64Sub) ha hb,
    binary_isVector vd (numericBinary_of_isFloat hk _ f64Mul) ha hb,
    binary_isVector vd (floatBinary_of_isFloat hk f64Div) ha hb⟩

/-- Settles O29. -/
theorem floatSqrtRcpa : Obligations.FloatSqrtRcpa := fun _ vd _ _ hk ha =>
  ⟨unary_isVector vd (floatUnary_of_isFloat hk f64Sqrt) ha,
    unary_isVector vd (floatUnary_of_isFloat hk (f64Div one64)) ha⟩

end Sys2Proof.Machine

/-! SUPPORT. Correct rounding (O33, O34, O37, O38; 41_arithmetic.md R120, R121). The encodings in order are strictly
rising in value; a value of m quanta and a rest is rounded to the nearer of m and m+1 quanta, and no encoding lies
between these two. Said once for a comparison `g` that may be the product with a denominator or the square. -/

namespace Sys2Proof.Machine

-- As in Tests/Slice0.lean: in the joined text, proofs elaborated side by side can run Lean out of threads.
set_option Elab.async false

/-! ## The values of the encodings in order -/

/-- m quanta of 2^q units are in range for q: at most 2^(fracBits+1), and normalised unless the quantum is a unit. -/
def FloatFormat.InQuanta (F : FloatFormat) (q m : Nat) : Prop :=
  m ≤ 2 * 2 ^ F.fracBits ∧ (q = 0 ∨ 2 ^ F.fracBits ≤ m)

theorem FloatFormat.unitsAt_quanta (F : FloatFormat) {q m : Nat} (h : F.InQuanta q m) :
    F.unitsAt (q * 2 ^ F.fracBits + m) = m * 2 ^ q := by
  obtain ⟨hle, hq⟩ := h
  have hP : 0 < 2 ^ F.fracBits := Nat.two_pow_pos _
  rw [FloatFormat.unitsAt]
  generalize 2 ^ F.fracBits = P at *
  rcases Nat.lt_or_ge m P with hm | hm
  · obtain rfl : q = 0 := hq.resolve_right (by omega)
    rw [Nat.zero_mul, Nat.zero_add, if_pos hm, Nat.pow_zero, Nat.mul_one]
  · have hbig : ¬ q * P + m < P := by omega
    rw [if_neg hbig]
    rcases Nat.lt_or_ge m (2 * P) with hm2 | hm2
    · have hsplit : q * P + m = m - P + P * (q + 1) := by rw [Nat.mul_succ, Nat.mul_comm P]; omega
      rw [hsplit, Nat.add_mul_div_left _ _ hP, Nat.add_mul_mod_self_left, Nat.div_eq_of_lt (by omega),
        Nat.mod_eq_of_lt (by omega), Nat.zero_add, Nat.add_sub_cancel, Nat.add_sub_cancel' hm]
    · obtain rfl : m = 2 * P := by omega
      rw [← Nat.add_mul, Nat.mul_div_cancel _ hP, Nat.mul_mod_left, Nat.add_zero,
        show q + 2 - 1 = q + 1 by omega, Nat.pow_succ]
      ring

/-- Every encoding is a number of quanta with room for one more. -/
theorem FloatFormat.exists_quanta (F : FloatFormat) (l : Nat) :
    ∃ q m, l = q * 2 ^ F.fracBits + m ∧ F.InQuanta q m ∧ F.InQuanta q (m + 1) := by
  have hP : 0 < 2 ^ F.fracBits := Nat.two_pow_pos _
  have hsplit := Nat.div_add_mod' l (2 ^ F.fracBits)
  have hmod := Nat.mod_lt l hP
  unfold FloatFormat.InQuanta
  generalize 2 ^ F.fracBits = P at *
  rcases Nat.eq_zero_or_pos (l / P) with h0 | hpos
  · rw [h0] at hsplit
    exact ⟨0, l % P, by omega, ⟨by omega, .inl rfl⟩, by omega, .inl rfl⟩
  · obtain ⟨e, he⟩ := Nat.exists_eq_add_of_lt hpos
    rw [he, Nat.zero_add, Nat.succ_mul] at hsplit
    exact ⟨e, P + l % P, by omega, ⟨by omega, .inr (by omega)⟩, by omega, .inr (by omega)⟩

theorem FloatFormat.unitsAt_strictMono (F : FloatFormat) : StrictMono F.unitsAt := by
  refine strictMono_nat_of_lt_succ fun l => ?_
  obtain ⟨q, m, rfl, hm, hm'⟩ := F.exists_quanta l
  rw [Nat.add_assoc, F.unitsAt_quanta hm, F.unitsAt_quanta hm']
  exact Nat.mul_lt_mul_of_pos_right (Nat.lt_succ_self m) (Nat.two_pow_pos q)

/-! ## Nearest encodings -/

/-- `low` is nearest to the value whose double compares with x as t with `g x`, ties to even. -/
def FloatFormat.NearestBy (F : FloatFormat) (g : Nat → Nat) (t low : Nat) : Prop :=
  low ≤ F.infBits ∧
  (∀ m < low, g (F.unitsAt m + F.unitsAt low) ≤ t ∧ (g (F.unitsAt m + F.unitsAt low) = t → low % 2 = 0)) ∧
  (∀ m ≤ F.infBits, low < m → t ≤ g (F.unitsAt low + F.unitsAt m) ∧
    (t = g (F.unitsAt low + F.unitsAt m) → low % 2 = 0))

theorem FloatFormat.nearestEven_iff (F : FloatFormat) (low n d : Nat) :
    F.NearestEven low n d ↔ F.NearestBy (· * d) (2 * n) low := Iff.rfl

theorem FloatFormat.nearestEvenRoot_iff (F : FloatFormat) (low n : Nat) :
    F.NearestEvenRoot low n ↔ F.NearestBy (· ^ 2) (4 * n) low := Iff.rfl

section
variable {F : FloatFormat} {g : Nat → Nat} (hg : StrictMono g) {t : Nat}
include hg

/-- The midpoints to the two neighbours decide; what would be rounded past infinity is rounded to infinity. -/
theorem FloatFormat.nearestBy_of_neighbours {l : Nat}
    (hdown : ∀ m, m + 1 = l → g (F.unitsAt m + F.unitsAt l) ≤ t ∧ (g (F.unitsAt m + F.unitsAt l) = t → l % 2 = 0))
    (hup : t ≤ g (F.unitsAt l + F.unitsAt (l + 1)) ∧ (t = g (F.unitsAt l + F.unitsAt (l + 1)) → l % 2 = 0)) :
    F.NearestBy g t (min l F.infBits) := by
  have hmono := F.unitsAt_strictMono.monotone
  have hbelow : ∀ m < l, g (F.unitsAt m + F.unitsAt l) ≤ t ∧ (g (F.unitsAt m + F.unitsAt l) = t → l % 2 = 0) := by
    intro m hm
    obtain ⟨p, rfl⟩ : ∃ p, l = p + 1 := ⟨l - 1, by omega⟩
    obtain ⟨hle, heven⟩ := hdown p rfl
    have hmp : g (F.unitsAt m + F.unitsAt (p + 1)) ≤ g (F.unitsAt p + F.unitsAt (p + 1)) :=
      hg.monotone (Nat.add_le_add_right (hmono (by omega)) _)
    exact ⟨hmp.trans hle, fun heq => heven (le_antisymm hle (heq ▸ hmp))⟩
  rcases le_or_gt l F.infBits with hl | hl
  · rw [min_eq_left hl]
    refine ⟨hl, hbelow, fun m _ hm => ?_⟩
    have hmp : g (F.unitsAt l + F.unitsAt (l + 1)) ≤ g (F.unitsAt l + F.unitsAt m) :=
      hg.monotone (Nat.add_le_add_left (hmono hm) _)
    exact ⟨hup.1.trans hmp, fun heq => hup.2 (le_antisymm hup.1 (heq ▸ hmp))⟩
  · rw [min_eq_right hl.le]
    refine ⟨le_rfl, fun m hm => ?_, fun m hm hlt => absurd hm (not_le.2 hlt)⟩
    have hlt : g (F.unitsAt m + F.unitsAt F.infBits) < t :=
      (hg (Nat.add_lt_add_left (F.unitsAt_strictMono hl) _)).trans_le (hbelow m (hm.trans hl)).1
    exact ⟨hlt.le, fun heq => absurd heq hlt.ne⟩

/-- Rounding m quanta and a rest, where `half` compares the value with m + 1/2 quanta. -/
theorem FloatFormat.nearestBy_roundBits (hfrac : 0 < F.fracBits) {q m : Nat} (hq : F.InQuanta q m)
    (hq' : F.InQuanta q (m + 1)) (hlo : g (2 * (m * 2 ^ q)) ≤ t) (hhi : t < g (2 * ((m + 1) * 2 ^ q))) :
    F.NearestBy g t (F.roundBits q m (compare t (g ((2 * m + 1) * 2 ^ q)))) := by
  have hu := F.unitsAt_quanta hq
  have hu' := F.unitsAt_quanta hq'
  have hmid : m * 2 ^ q + (m + 1) * 2 ^ q = (2 * m + 1) * 2 ^ q := by ring
  have heven : ∀ x, (q * 2 ^ F.fracBits + x) % 2 = x % 2 := by
    intro x
    obtain ⟨e, he⟩ := Nat.exists_eq_add_of_lt hfrac
    rw [he, Nat.zero_add, Nat.pow_succ, ← Nat.mul_assoc, Nat.add_comm, Nat.add_mul_mod_self_right]
  have hdown : (t = g ((2 * m + 1) * 2 ^ q) → m % 2 = 0) → t ≤ g ((2 * m + 1) * 2 ^ q) →
      F.NearestBy g t (min (q * 2 ^ F.fracBits + m) F.infBits) := by
    intro htie hle
    refine F.nearestBy_of_neighbours hg (fun p hp => ?_) ?_
    · have hlt : g (F.unitsAt p + F.unitsAt (q * 2 ^ F.fracBits + m)) < t := by
        refine lt_of_lt_of_le (hg ?_) hlo
        have hp' := F.unitsAt_strictMono (show p < q * 2 ^ F.fracBits + m by omega)
        rw [hu] at hp' ⊢
        omega
      exact ⟨hlt.le, fun heq => absurd heq hlt.ne⟩
    · rw [Nat.add_assoc, hu, hu', hmid, heven]
      exact ⟨hle, htie⟩
  have hup : (t = g ((2 * m + 1) * 2 ^ q) → (m + 1) % 2 = 0) → g ((2 * m + 1) * 2 ^ q) ≤ t →
      F.NearestBy g t (min (q * 2 ^ F.fracBits + (m + 1)) F.infBits) := by
    intro htie hle
    refine F.nearestBy_of_neighbours hg (fun p hp => ?_) ?_
    · obtain rfl : p = q * 2 ^ F.fracBits + m := by omega
      rw [hu, hu', hmid, heven]
      exact ⟨hle, fun heq => htie heq.symm⟩
    · have hlt : t < g (F.unitsAt (q * 2 ^ F.fracBits + (m + 1)) + F.unitsAt (q * 2 ^ F.fracBits + (m + 1) + 1)) := by
        refine lt_of_lt_of_le hhi (hg.monotone ?_)
        have hp' := F.unitsAt_strictMono (Nat.lt_succ_self (q * 2 ^ F.fracBits + (m + 1)))
        rw [Nat.succ_eq_add_one] at hp'
        rw [hu'] at hp' ⊢
        omega
      exact ⟨hlt.le, fun heq => absurd heq hlt.ne⟩
  unfold FloatFormat.roundBits
  rcases lt_trichotomy t (g ((2 * m + 1) * 2 ^ q)) with h | h | h
  · rw [compare_lt_iff_lt.2 h]
    exact hdown (fun heq => absurd heq h.ne) h.le
  · rw [compare_eq_iff_eq.2 h]
    rcases Nat.mod_two_eq_zero_or_one m with hm | hm
    · simp only [hm, if_true]
      exact hdown (fun _ => hm) h.le
    · simp only [hm, one_ne_zero, if_false]
      exact hup (fun _ => by omega) h.ge
  · rw [compare_gt_iff_gt.2 h]
    exact hup (fun heq => absurd heq h.ne') h.le

end

/-! ## The roundings of the model -/

/-- The quantum that the model takes for a value with floor n. -/
theorem FloatFormat.inQuanta_log2 (F : FloatFormat) (n : Nat) :
    F.InQuanta (Nat.log2 n - F.fracBits) (n / 2 ^ (Nat.log2 n - F.fracBits)) ∧
      F.InQuanta (Nat.log2 n - F.fracBits) (n / 2 ^ (Nat.log2 n - F.fracBits) + 1) := by
  have hlt : n / 2 ^ (Nat.log2 n - F.fracBits) < 2 * 2 ^ F.fracBits := by
    refine Nat.div_lt_of_lt_mul ?_
    rw [← Nat.pow_succ', ← Nat.pow_add]
    exact Nat.lt_log2_self.trans_le (Nat.pow_le_pow_right (by decide) (by omega))
  have hnorm : Nat.log2 n - F.fracBits = 0 ∨ 2 ^ F.fracBits ≤ n / 2 ^ (Nat.log2 n - F.fracBits) := by
    rcases Nat.eq_zero_or_pos (Nat.log2 n - F.fracBits) with h0 | hpos
    · exact .inl h0
    · refine .inr ((Nat.le_div_iff_mul_le (Nat.two_pow_pos _)).2 ?_)
      have hn : n ≠ 0 := by rintro rfl; simp at hpos
      rw [← Nat.pow_add, Nat.add_sub_cancel' (by omega)]
      exact Nat.log2_self_le hn
  exact ⟨⟨hlt.le, hnorm⟩, hlt, hnorm.imp_right fun h => h.trans (Nat.le_succ _)⟩

/-- Comparing is not changed by adding the same to both sides. -/
theorem compare_add_left (c x y : Nat) : compare (c + x) (c + y) = compare x y := by
  rcases lt_trichotomy x y with h | h | h
  · rw [compare_lt_iff_lt.2 h, compare_lt_iff_lt.2 (Nat.add_lt_add_left h c)]
  · rw [compare_eq_iff_eq.2 h, compare_eq_iff_eq.2 (congrArg (c + ·) h)]
  · rw [compare_gt_iff_gt.2 h, compare_gt_iff_gt.2 (Nat.add_lt_add_left h c)]

/-- `roundRatio` gives the encoding nearest to n/d. -/
theorem FloatFormat.nearestEven_roundRatio (F : FloatFormat) (hfrac : 0 < F.fracBits) (n : Nat) {d : Nat} (hd : 0 < d) :
    F.NearestEven (F.roundRatio n d) n d := by
  rw [F.nearestEven_iff]
  unfold FloatFormat.roundRatio
  obtain ⟨hq, hq'⟩ := F.inQuanta_log2 (n / d)
  rw [Nat.div_div_eq_div_mul] at hq hq'
  dsimp only
  generalize Nat.log2 (n / d) - F.fracBits = q at *
  have hsplit := Nat.div_add_mod n (d * 2 ^ q)
  have hmod := Nat.mod_lt n (Nat.mul_pos hd (Nat.two_pow_pos q))
  generalize n % (d * 2 ^ q) = r at *
  generalize n / (d * 2 ^ q) = m at *
  have hdown : 2 * (m * 2 ^ q) * d = 2 * (d * 2 ^ q * m) := by ring
  have hmid : (2 * m + 1) * 2 ^ q * d = 2 * (d * 2 ^ q * m) + d * 2 ^ q := by ring
  have hup : 2 * ((m + 1) * 2 ^ q) * d = 2 * (d * 2 ^ q * m) + 2 * (d * 2 ^ q) := by ring
  have hhalf : compare (2 * r) (d * 2 ^ q) = compare (2 * n) ((2 * m + 1) * 2 ^ q * d) := by
    rw [hmid, ← hsplit, Nat.mul_add, compare_add_left]
  rw [hhalf]
  refine F.nearestBy_roundBits (g := (· * d)) (fun x y hxy => Nat.mul_lt_mul_of_pos_right hxy hd) hfrac hq hq' ?_ ?_
  · show 2 * (m * 2 ^ q) * d ≤ 2 * n
    omega
  · show 2 * n < 2 * ((m + 1) * 2 ^ q) * d
    omega

/-- `roundRoot` gives the encoding nearest to the square root of n. -/
theorem FloatFormat.nearestEvenRoot_roundRoot (F : FloatFormat) (hfrac : 0 < F.fracBits) (n : Nat) :
    F.NearestEvenRoot (F.roundRoot n) n := by
  rw [F.nearestEvenRoot_iff]
  unfold FloatFormat.roundRoot
  obtain ⟨hlo, hhi⟩ := isqrt_spec n
  obtain ⟨hq, hq'⟩ := F.inQuanta_log2 (isqrt n)
  dsimp only
  generalize isqrt n = s at *
  generalize Nat.log2 s - F.fracBits = q at *
  have hdown : s / 2 ^ q * 2 ^ q ≤ s := Nat.div_mul_le_self s _
  have hup : s + 1 ≤ (s / 2 ^ q + 1) * 2 ^ q := by
    have hsplit := Nat.div_add_mod' s (2 ^ q)
    have hmod := Nat.mod_lt s (Nat.two_pow_pos q)
    rw [Nat.succ_mul]
    omega
  refine F.nearestBy_roundBits (g := (· ^ 2)) (fun x y hxy => Nat.pow_lt_pow_left hxy two_ne_zero) hfrac hq hq' ?_ ?_
  · calc (2 * (s / 2 ^ q * 2 ^ q)) ^ 2 ≤ (2 * s) ^ 2 := Nat.pow_le_pow_left (Nat.mul_le_mul_left 2 hdown) 2
      _ = 4 * (s * s) := by ring
      _ ≤ 4 * n := Nat.mul_le_mul_left 4 hlo
  · calc 4 * n < 4 * ((s + 1) * (s + 1)) := Nat.mul_lt_mul_of_pos_left hhi (by decide)
      _ = (2 * (s + 1)) ^ 2 := by ring
      _ ≤ (2 * ((s / 2 ^ q + 1) * 2 ^ q)) ^ 2 := Nat.pow_le_pow_left (Nat.mul_le_mul_left 2 hup) 2

/-! ## The binary64 operations -/

theorem binary64_unitExp : binary64.unitExp = 1074 := rfl

/-- A packed rounding has the sign given and the bits of the rounding. -/
theorem FloatFormat.Encodes.pack_rounded {F : FloatFormat} {w : Nat} (hF : F.Encodes w) (neg : Bool) {low : Nat}
    (h : low ≤ F.infBits) : (F.pack w neg low).msb = neg ∧ lowBits (F.pack w neg low) = low :=
  ⟨hF.msb_pack neg (h.trans_lt hF.infBits_lt), hF.lowBits_pack neg (h.trans_lt hF.infBits_lt)⟩

theorem FloatFormat.Encodes.pack_roundRatio {F : FloatFormat} {w : Nat} (hF : F.Encodes w) (neg : Bool) (n : Nat)
    {d : Nat} (hd : 0 < d) : (F.pack w neg (F.roundRatio n d)).msb = neg ∧
      F.NearestEven (lowBits (F.pack w neg (F.roundRatio n d))) n d := by
  obtain ⟨hmsb, hlow⟩ := hF.pack_rounded neg (F.roundRatio_le n d)
  exact ⟨hmsb, hlow.symm ▸ F.nearestEven_roundRatio hF.fracBits_pos n hd⟩

/-- The sum of finite values that is not zero is the exact sum rounded once. -/
theorem addVal_rounds (n m : Bool) (x y : Nat) (h : signedUnits n x + signedUnits m y ≠ 0) :
    (addVal (.fin n x) (.fin m y)).msb = decide (signedUnits n x + signedUnits m y < 0) ∧
    binary64.NearestEven (lowBits (addVal (.fin n x) (.fin m y))) (signedUnits n x + signedUnits m y).natAbs 1 := by
  rw [addVal, if_neg h]
  exact binary64_encodes.pack_roundRatio _ _ Nat.one_pos

/-- Settles O33: each operation packs one rounding of its exact result. -/
theorem float64RoundsTheExactResultOnce : Obligations.Float64RoundsTheExactResultOnce := by
  intro a b n m x y ha hb
  rw [f64Add, f64Sub, f64Mul, f64Div, ha, hb, ← binary64_unitExp]
  refine ⟨addVal_rounds n m x y, fun h => ?_, binary64_encodes.pack_roundRatio _ _ (Nat.two_pow_pos _), fun hy => ?_⟩
  · rw [Int.sub_eq_add_neg, ← signedUnits_not] at h ⊢
    exact addVal_rounds n (!m) x y h
  · rw [divVal, if_neg hy]
    exact binary64_encodes.pack_roundRatio _ _ (Nat.pos_of_ne_zero hy)

/-- Settles O34: the root packs one rounding of the exact root. -/
theorem float64RoundsTheExactRootOnce : Obligations.Float64RoundsTheExactRootOnce := by
  intro a x ha hx
  rw [f64Sqrt, ha, sqrtVal, if_neg hx, if_neg Bool.false_ne_true, ← binary64_unitExp]
  obtain ⟨hmsb, hlow⟩ := binary64_encodes.pack_rounded false (binary64.roundRoot_le (x * 2 ^ binary64.unitExp))
  exact ⟨hmsb, hlow.symm ▸ binary64.nearestEvenRoot_roundRoot binary64_encodes.fracBits_pos _⟩

end Sys2Proof.Machine

/-! SUPPORT. Narrowing and widening (O37, O38; 41_arithmetic.md R121). Rounding a value that an encoding has gives that
encoding, and every binary32 value has a binary64 encoding. -/

namespace Sys2Proof.Machine

-- As in Tests/Slice0.lean: in the joined text, proofs elaborated side by side can run Lean out of threads.
set_option Elab.async false

/-! ## Exact values -/

/-- The encoding nearest to the value of an encoding is that encoding. -/
theorem FloatFormat.NearestEven.eq_of_exact {F : FloatFormat} {low l d : Nat} (hd : 0 < d) (hl : l ≤ F.infBits)
    (h : F.NearestEven low (F.unitsAt l * d) d) : low = l := by
  obtain ⟨-, hbelow, habove⟩ := h
  rcases lt_trichotomy low l with hlt | heq | hgt
  · have hle := (habove l hl hlt).1
    rw [← Nat.mul_assoc] at hle
    have hmono := F.unitsAt_strictMono hlt
    have := Nat.le_of_mul_le_mul_right hle hd
    omega
  · exact heq
  · have hle := (hbelow l hgt).1
    rw [← Nat.mul_assoc] at hle
    have hmono := F.unitsAt_strictMono hgt
    have := Nat.le_of_mul_le_mul_right hle hd
    omega

theorem FloatFormat.roundRatio_exact {F : FloatFormat} (hfrac : 0 < F.fracBits) {l d : Nat} (hd : 0 < d)
    (hl : l ≤ F.infBits) : F.roundRatio (F.unitsAt l * d) d = l :=
  (F.nearestEven_roundRatio hfrac _ hd).eq_of_exact hd hl

/-- A number of at most fracBits + 1 bits, shifted left, is the value of an encoding. -/
theorem FloatFormat.exists_unitsAt_eq (F : FloatFormat) (p : Nat) {m : Nat} (hm : m < 2 * 2 ^ F.fracBits) :
    ∃ l, F.unitsAt l = m * 2 ^ p := by
  induction p generalizing m with
  | zero => exact ⟨_, F.unitsAt_quanta (q := 0) ⟨hm.le, .inl rfl⟩⟩
  | succ p ih =>
    rcases Nat.lt_or_ge m (2 ^ F.fracBits) with hlt | hge
    · obtain ⟨l, hl⟩ := ih (m := 2 * m) (by omega)
      exact ⟨l, hl.trans (by rw [Nat.pow_succ]; ring)⟩
    · exact ⟨_, F.unitsAt_quanta ⟨hm.le, .inr hge⟩⟩

/-- The value of an encoding is a number of at most fracBits + 1 bits, shifted left by less than the largest
exponent. -/
theorem FloatFormat.unitsAt_eq_shift (F : FloatFormat) {l : Nat} (hl : l < F.infBits) :
    ∃ m p, m < 2 * 2 ^ F.fracBits ∧ p < 2 ^ F.expBits ∧ F.unitsAt l = m * 2 ^ p := by
  have hP : 0 < 2 ^ F.fracBits := Nat.two_pow_pos _
  have hexp : l / 2 ^ F.fracBits < 2 ^ F.expBits - 1 := (Nat.div_lt_iff_lt_mul hP).2 hl
  have hmod := Nat.mod_lt l hP
  rw [FloatFormat.unitsAt]
  split
  · exact ⟨l, 0, by omega, Nat.two_pow_pos _, by rw [Nat.pow_zero, Nat.mul_one]⟩
  · have hp : l / 2 ^ F.fracBits - 1 < 2 ^ F.expBits :=
      (Nat.sub_le _ _).trans_lt (hexp.trans_le (Nat.sub_le _ _))
    exact ⟨_, l / 2 ^ F.fracBits - 1, by omega, hp, rfl⟩

/-- The power of two that stands for infinity in the order of the values. -/
theorem FloatFormat.unitsAt_infBits (F : FloatFormat) (hexp : 2 ≤ F.expBits) :
    F.unitsAt F.infBits = 2 * 2 ^ F.fracBits * 2 ^ (2 ^ F.expBits - 3) := by
  have hfour : 4 ≤ 2 ^ F.expBits := Nat.pow_le_pow_right (n := 2) (by decide) hexp
  have hbits : F.infBits = (2 ^ F.expBits - 3) * 2 ^ F.fracBits + 2 * 2 ^ F.fracBits := by
    rw [FloatFormat.infBits, ← Nat.add_mul, show 2 ^ F.expBits - 1 = 2 ^ F.expBits - 3 + 2 by omega]
  rw [hbits, F.unitsAt_quanta ⟨le_rfl, .inr (Nat.le_mul_of_pos_left _ (by decide))⟩]

/-- A format with the fraction bits and the exponent range for it has every finite value of another, in units 2^j times
smaller. -/
theorem FloatFormat.exists_unitsAt_widened {F G : FloatFormat} {j l : Nat} (hfrac : F.fracBits ≤ G.fracBits)
    (hG : 2 ≤ G.expBits) (hexp : 2 ^ F.expBits + j < 2 ^ G.expBits - 2) (hl : l < F.infBits) :
    ∃ l' < G.infBits, G.unitsAt l' = F.unitsAt l * 2 ^ j := by
  obtain ⟨m, p, hm, hp, hu⟩ := F.unitsAt_eq_shift hl
  have hm' : m < 2 * 2 ^ G.fracBits :=
    hm.trans_le (Nat.mul_le_mul_left 2 (Nat.pow_le_pow_right (by decide) hfrac))
  obtain ⟨l', hl'⟩ := G.exists_unitsAt_eq (p + j) hm'
  refine ⟨l', ?_, hl'.trans (by rw [hu, Nat.pow_add, Nat.mul_assoc])⟩
  have hlt : G.unitsAt l' < G.unitsAt G.infBits := by
    rw [hl', G.unitsAt_infBits hG]
    exact Nat.mul_lt_mul_of_lt_of_le hm' (Nat.pow_le_pow_right (by decide) (by omega)) (Nat.two_pow_pos _)
  exact G.unitsAt_strictMono.lt_iff_lt.1 hlt

/-- Every finite binary32 value is that of a finite binary64 encoding. -/
theorem exists_binary64_unitsAt_eq {l : Nat} (hl : l < binary32.infBits) :
    ∃ l' < binary64.infBits, binary64.unitsAt l' = binary32.unitsAt l * 2 ^ 925 :=
  FloatFormat.exists_unitsAt_widened (by decide) (by decide) (by decide) hl

/-! ## Unpacking what was packed -/

section
variable {F : FloatFormat} {w : Nat} (hF : F.Encodes w) (neg : Bool)
include hF

theorem FloatFormat.Encodes.unpack_pack {low : Nat} (h : low < F.infBits) :
    F.unpack (F.pack w neg low) = .fin neg (F.unitsAt low) := by
  obtain ⟨hmsb, hlow⟩ := hF.pack_rounded neg h.le
  rw [hF.unpack_eq, hlow, hmsb, if_pos h]

theorem FloatFormat.Encodes.unpack_pack_infBits : F.unpack (F.pack w neg F.infBits) = .inf neg := by
  obtain ⟨hmsb, hlow⟩ := hF.pack_rounded neg (low := F.infBits) le_rfl
  rw [hF.unpack_eq, hlow, hmsb, if_neg (lt_irrefl _), if_pos rfl]

end

/-! ## Narrowing and widening by the value of the word -/

/-- 2^925 binary64 units are one binary32 unit. -/
theorem unitExp_sub_unitExp : binary64.unitExp - binary32.unitExp = 925 := rfl

theorem roundF32_of_fin {x : BitVec 64} {n : Bool} {u : Nat} (h : binary64.unpack x = .fin n u) :
    roundF32 x = binary32.pack 32 n (binary32.roundRatio u (2 ^ 925)) := by
  rw [roundF32, h, unitExp_sub_unitExp]

theorem roundF32_of_inf {x : BitVec 64} {n : Bool} (h : binary64.unpack x = .inf n) :
    roundF32 x = binary32.pack 32 n binary32.infBits := by rw [roundF32, h]

theorem roundF32_of_nan {x : BitVec 64} (h : binary64.unpack x = .nan) : roundF32 x = Config.nanF32 := by
  rw [roundF32, h]

theorem widenF32_of_fin {l : BitVec 32} {n : Bool} {u : Nat} (h : binary32.unpack l = .fin n u) :
    widenF32 l = binary64.pack 64 n (binary64.roundRatio (u * 2 ^ 925) 1) := by
  rw [widenF32, h, unitExp_sub_unitExp]

theorem widenF32_of_inf {l : BitVec 32} {n : Bool} (h : binary32.unpack l = .inf n) : widenF32 l = inf64 n := by
  rw [widenF32, h]

theorem widenF32_of_nan {l : BitVec 32} (h : binary32.unpack l = .nan) : widenF32 l = Config.nanF64 := by
  rw [widenF32, h]

/-- A widened value is exact. -/
theorem unpack_widenF32_of_fin {l : BitVec 32} {n : Bool} {u : Nat} (h : binary32.unpack l = .fin n u) :
    binary64.unpack (widenF32 l) = .fin n (u * 2 ^ 925) := by
  obtain ⟨hlt, -, rfl⟩ := binary32_encodes.of_unpack_fin h
  obtain ⟨l', hl', hu⟩ := exists_binary64_unitsAt_eq hlt
  have hround : binary64.roundRatio (binary64.unitsAt l') 1 = l' := by
    have hexact := FloatFormat.roundRatio_exact binary64_encodes.fracBits_pos Nat.one_pos hl'.le
    rwa [Nat.mul_one] at hexact
  rw [widenF32_of_fin h, ← hu, hround, binary64_encodes.unpack_pack n hl']

theorem unpack_widenF32_of_inf {l : BitVec 32} {n : Bool} (h : binary32.unpack l = .inf n) :
    binary64.unpack (widenF32 l) = .inf n := by
  rw [widenF32_of_inf h]
  exact binary64_encodes.unpack_pack_infBits n

/-- Narrowing undoes widening. -/
theorem roundF32_widenF32 {l : BitVec 32} (h : binary32.unpack l ≠ .nan) : roundF32 (widenF32 l) = l := by
  cases hl : binary32.unpack l with
  | nan => exact absurd hl h
  | inf n =>
    rw [roundF32_of_inf (unpack_widenF32_of_inf hl)]
    exact (binary32_encodes.eq_pack_of_inf hl).symm
  | fin n u =>
    rw [roundF32_of_fin (unpack_widenF32_of_fin hl)]
    obtain ⟨hlt, rfl, rfl⟩ := binary32_encodes.of_unpack_fin hl
    rw [FloatFormat.roundRatio_exact binary32_encodes.fracBits_pos (Nat.two_pow_pos 925) hlt.le,
      binary32_encodes.pack_lowBits]

/-- Settles O37, by the value of the word. -/
theorem narrowingRoundsToNearest : Obligations.NarrowingRoundsToNearest := by
  intro x
  refine ⟨fun n u h => ?_, fun n h => ?_, fun h => roundF32_of_nan h⟩
  · rw [roundF32_of_fin h]
    exact binary32_encodes.pack_roundRatio n u (by positivity)
  · rw [roundF32_of_inf h]
    exact binary32_encodes.unpack_pack_infBits n

/-- Settles O38, by the value of the lane. -/
theorem wideningIsExact : Obligations.WideningIsExact := fun _ =>
  ⟨fun _ _ => unpack_widenF32_of_fin, fun _ => unpack_widenF32_of_inf, widenF32_of_nan, roundF32_widenF32⟩

end Sys2Proof.Machine

/-! SUPPORT. Order, sign and extrema of float lanes (O30, O31, O32, O40; 41_arithmetic.md R129, R130, R133 to R136,
42_compare_logic_select.md R157): the model decides by the values of the lanes, the statements by the bits below the
sign; the two orders are one because the encodings in order are strictly rising in value. -/

namespace Sys2Proof.Machine

-- As in Tests/Slice0.lean: in the joined text, proofs elaborated side by side can run Lean out of threads.
set_option Elab.async false

/-! ## Order -/

/-- A strictly rising function that keeps zero keeps the order of signed values. -/
theorem signedUnits_lt_iff {u : Nat → Nat} (hu : StrictMono u) (h0 : u 0 = 0) (n m : Bool) (x y : Nat) :
    signedUnits n (u x) < signedUnits m (u y) ↔ signedUnits n x < signedUnits m y := by
  have hxy : u x < u y ↔ x < y := hu.lt_iff_lt
  have hyx : u y < u x ↔ y < x := hu.lt_iff_lt
  have hx : u 0 < u x ↔ 0 < x := hu.lt_iff_lt
  have hy : u 0 < u y ↔ 0 < y := hu.lt_iff_lt
  cases n <;> cases m <;> simp only [signedUnits, if_true, if_false, Bool.false_eq_true] <;> omega

theorem FloatFormat.unitsAt_zero (F : FloatFormat) : F.unitsAt 0 = 0 := if_pos (Nat.two_pow_pos _)

theorem orderKey_eq {w : Nat} (a : BitVec w) : orderKey a = signedUnits a.msb (lowBits a) := rfl

theorem orderKey_eq_zero_iff {w : Nat} (a : BitVec w) : orderKey a = 0 ↔ lowBits a = 0 := by
  rw [orderKey_eq]
  cases a.msb <;> simp [signedUnits]

theorem FloatVal.lt_nan_right (v : FloatVal) : v.lt .nan = false := by cases v <;> rfl
theorem FloatVal.eq_nan_right (v : FloatVal) : v.eq .nan = false := by cases v <;> rfl

theorem FloatFormat.infBits_pos (F : FloatFormat) (hexp : 0 < F.expBits) : 0 < F.infBits :=
  Nat.mul_pos (Nat.sub_pos_of_lt (Nat.one_lt_two_pow hexp.ne')) (Nat.two_pow_pos _)

/-- The value of an encoding that is no NaN, an infinity at the bits where it stands among the finite ones. -/
inductive FloatFormat.ValueAt (F : FloatFormat) (neg : Bool) : Nat → FloatVal → Prop where
  | fin {low : Nat} (h : low < F.infBits) : F.ValueAt neg low (.fin neg (F.unitsAt low))
  | inf : F.ValueAt neg F.infBits (.inf neg)

/-- A value is below an infinity unless the infinity is the negative one. -/
theorem decide_signedUnits_lt_top {x top : Nat} (hx : x < top) (n m : Bool) :
    decide (signedUnits n x < signedUnits m top) = !m := by
  cases m with
  | false =>
    refine decide_eq_true ?_
    cases n <;> simp only [signedUnits, if_true, if_false, Bool.false_eq_true] <;> omega
  | true =>
    refine decide_eq_false ?_
    cases n <;> simp only [signedUnits, if_true, if_false, Bool.false_eq_true] <;> omega

/-- An infinity is below a value exactly if it is the negative one. -/
theorem decide_signedUnits_top_lt {x top : Nat} (hx : x < top) (n m : Bool) :
    decide (signedUnits n top < signedUnits m x) = n := by
  cases n with
  | false =>
    refine decide_eq_false ?_
    cases m <;> simp only [signedUnits, if_true, if_false, Bool.false_eq_true] <;> omega
  | true =>
    refine decide_eq_true ?_
    cases m <;> simp only [signedUnits, if_true, if_false, Bool.false_eq_true] <;> omega

/-- Of two infinities the lower is the negative one, if the other is positive. -/
theorem decide_signedUnits_top_lt_top {top : Nat} (htop : 0 < top) (n m : Bool) :
    decide (signedUnits n top < signedUnits m top) = (n && !m) := by
  have hneg : -(top : Int) < top := by omega
  cases n <;> cases m <;> simp [signedUnits, hneg]

/-- The order of values is that of the bits below the sign, with the sign. -/
theorem FloatFormat.ValueAt.lt_eq {F : FloatFormat} (hinf : 0 < F.infBits) {n m : Bool} {x y : Nat} {v v' : FloatVal}
    (hx : F.ValueAt n x v) (hy : F.ValueAt m y v') : v.lt v' = decide (signedUnits n x < signedUnits m y) := by
  cases hx with
  | fin hx =>
    cases hy with
    | fin hy => exact decide_eq_decide.2 (signedUnits_lt_iff F.unitsAt_strictMono F.unitsAt_zero n m _ _)
    | inf => exact (decide_signedUnits_lt_top hx n m).symm
  | inf =>
    cases hy with
    | fin hy => exact (decide_signedUnits_top_lt hy n m).symm
    | inf => exact (decide_signedUnits_top_lt_top hinf n m).symm

/-- Two values that are no NaN are equal where neither is below the other. -/
theorem FloatFormat.ValueAt.eq_eq_not_lt {F : FloatFormat} {n m : Bool} {x y : Nat} {v v' : FloatVal}
    (hx : F.ValueAt n x v) (hy : F.ValueAt m y v') : v.eq v' = (!v.lt v' && !v'.lt v) := by
  cases hx with
  | fin hx =>
    cases hy with
    | fin hy =>
      rw [FloatVal.eq, FloatVal.lt, FloatVal.lt, ← decide_not, ← decide_not, ← Bool.decide_and]
      exact decide_eq_decide.2 (by omega)
    | inf => cases m <;> rfl
  | inf =>
    cases hy with
    | fin hy => cases n <;> rfl
    | inf => cases n <;> cases m <;> rfl

theorem FloatFormat.ValueAt.eq_eq {F : FloatFormat} (hinf : 0 < F.infBits) {n m : Bool} {x y : Nat} {v v' : FloatVal}
    (hx : F.ValueAt n x v) (hy : F.ValueAt m y v') : v.eq v' = decide (signedUnits n x = signedUnits m y) := by
  rw [hx.eq_eq_not_lt hy, hx.lt_eq hinf hy, hy.lt_eq hinf hx, ← decide_not, ← decide_not, ← Bool.decide_and]
  exact decide_eq_decide.2 (by omega)

/-- The bits of the lane are those of a NaN. -/
def FloatFormat.nanBits (F : FloatFormat) {w : Nat} (a : BitVec w) : Bool := decide (F.infBits < lowBits a)

section
variable {F : FloatFormat} {w : Nat} (hF : F.Encodes w)
include hF

theorem FloatFormat.Encodes.isNaN_eq (a : BitVec w) : F.isNaN a = F.nanBits a :=
  decide_eq_decide.2 (hF.unpack_eq_nan_iff a)

theorem FloatFormat.Encodes.unpack_of_nanBits {a : BitVec w} (h : F.nanBits a = true) : F.unpack a = .nan :=
  (hF.unpack_eq_nan_iff a).2 (of_decide_eq_true h)

theorem FloatFormat.Encodes.valueAt_unpack {a : BitVec w} (h : F.nanBits a = false) :
    F.ValueAt a.msb (lowBits a) (F.unpack a) := by
  have hle : lowBits a ≤ F.infBits := not_lt.1 (of_decide_eq_false h)
  rw [hF.unpack_eq]
  split
  next hlt => exact .fin hlt
  next hge =>
    have heq : lowBits a = F.infBits := by omega
    rw [if_pos heq, heq]
    exact .inf

/-- `lessThan` by the bits of the lanes: false with a NaN (R157). -/
theorem FloatFormat.Encodes.lt_eq (a b : BitVec w) :
    F.lt a b = if F.nanBits a || F.nanBits b then false else decide (orderKey a < orderKey b) := by
  rw [FloatFormat.lt]
  cases ha : F.nanBits a with
  | true => rw [hF.unpack_of_nanBits ha]; rfl
  | false =>
    cases hb : F.nanBits b with
    | true => rw [hF.unpack_of_nanBits hb, FloatVal.lt_nan_right]; rfl
    | false => exact (hF.valueAt_unpack ha).lt_eq (F.infBits_pos hF.expBits_pos) (hF.valueAt_unpack hb)

/-- `equal` by the bits of the lanes: false with a NaN (R157). -/
theorem FloatFormat.Encodes.eq_eq (a b : BitVec w) :
    F.eq a b = if F.nanBits a || F.nanBits b then false else decide (orderKey a = orderKey b) := by
  rw [FloatFormat.eq]
  cases ha : F.nanBits a with
  | true => rw [hF.unpack_of_nanBits ha]; rfl
  | false =>
    cases hb : F.nanBits b with
    | true => rw [hF.unpack_of_nanBits hb, FloatVal.eq_nan_right]; rfl
    | false => exact (hF.valueAt_unpack ha).eq_eq (F.infBits_pos hF.expBits_pos) (hF.valueAt_unpack hb)

end

/-! ## Comparison commands -/

section
variable {k : Kind} (hk : k.isFloat = true)
include hk

theorem floatFormat_encodes : (floatFormat k).Encodes k.width := by
  cases k with
  | f64x2 => exact binary64_encodes
  | f32x4 => exact binary32_encodes
  | i32x4 | i16x8 | i8x16 | b2 | b4 | b8 | b16 => cases hk

/-- A comparison that is one relation of each format's lanes. -/
theorem numericCompare_of_isFloat (int : (w : Nat) → BitVec w → BitVec w → Bool)
    (rel : FloatFormat → (w : Nat) → BitVec w → BitVec w → Bool) :
    numericCompare int (rel binary64 64) (rel binary32 32) k
      = some (cmp2 k.width k.lanes (rel (floatFormat k) k.width)) := by
  cases k with
  | f64x2 | f32x4 => rfl
  | i32x4 | i16x8 | i8x16 | b2 | b4 | b8 | b16 => cases hk

/-- A comparison command answers bit by bit what its relation of the lanes' bits is. -/
theorem exists_compare_of_isFloat {i : Instr} {vd a b : VIdx} {s : State} (ha : s.tag a = some k)
    (hb : s.tag b = some k) {int : (w : Nat) → BitVec w → BitVec w → Bool}
    (rel : FloatFormat → (w : Nat) → BitVec w → BitVec w → Bool)
    (unordered : Bool) (ord : Int → Int → Bool)
    (hi : exec i s = binary (numericCompare int (rel binary64 64) (rel binary32 32) k) k k.boolOf vd a b s)
    (hrel : ∀ x y : BitVec k.width, rel (floatFormat k) k.width x y =
      if (floatFormat k).nanBits x || (floatFormat k).nanBits y then unordered else ord (orderKey x) (orderKey y)) :
    ∃ r, exec i s = .next ((s.setReg vd k.boolOf r).respond .ok 0) ∧
      ∀ j : Nat, r.getLsbD j = (decide (j < k.lanes) &&
        if isNaNLane k (lane k.width (s.bits a) j) || isNaNLane k (lane k.width (s.bits b) j) then unordered
        else ord (orderKey (lane k.width (s.bits a) j)) (orderKey (lane k.width (s.bits b) j))) := by
  obtain ⟨r, hr, hbits⟩ := compare_getLsbD vd (numericCompare_of_isFloat hk int rel) ha hb
  exact ⟨r, hi.trans hr, fun j => by rw [hbits j, hrel]; rfl⟩

end

/-- Settles O40: each relation of the model by `lessThan` and `equal`, and these by the bits of the lanes. -/
theorem floatComparisons : Obligations.FloatComparisons := by
  intro k vd a b s hk ha hb i unordered ord hmem
  have hlt := (floatFormat_encodes hk).lt_eq
  have heq := (floatFormat_encodes hk).eq_eq
  simp only [List.mem_cons, Prod.mk.injEq, List.not_mem_nil, or_false] at hmem
  rcases hmem with ⟨rfl, rfl, rfl⟩ | ⟨rfl, rfl, rfl⟩ | ⟨rfl, rfl, rfl⟩ | ⟨rfl, rfl, rfl⟩ | ⟨rfl, rfl, rfl⟩ |
    ⟨rfl, rfl, rfl⟩
  · exact exists_compare_of_isFloat hk ha hb (fun F _ x y => F.eq x y) _ (fun x y => decide (x = y)) rfl heq
  · refine exists_compare_of_isFloat hk ha hb (fun F _ x y => !F.eq x y) _ (fun x y => decide (x ≠ y)) rfl fun x y => ?_
    rw [heq, apply_ite Bool.not, decide_not]
    rfl
  · exact exists_compare_of_isFloat hk ha hb (fun F _ x y => F.lt x y) _ (fun x y => decide (x < y)) rfl hlt
  · refine exists_compare_of_isFloat hk ha hb (fun F _ x y => F.lt x y || F.eq x y) _ (fun x y => decide (x ≤ y)) rfl
      fun x y => ?_
    rw [hlt, heq]
    split
    · rfl
    · rw [← Bool.decide_or]
      exact decide_eq_decide.2 le_iff_lt_or_eq.symm
  · refine exists_compare_of_isFloat hk ha hb (fun F _ x y => F.lt y x) _ (fun x y => decide (x > y)) rfl fun x y => ?_
    rw [hlt, Bool.or_comm]
  · refine exists_compare_of_isFloat hk ha hb (fun F _ x y => F.lt y x || F.eq x y) _ (fun x y => decide (x ≥ y)) rfl
      fun x y => ?_
    rw [hlt, heq, Bool.or_comm ((floatFormat k).nanBits y)]
    split
    · rfl
    · rw [← Bool.decide_or]
      exact decide_eq_decide.2 (by omega)

/-! ## Sign operations -/

theorem getLsbD_signBit {w : Nat} (i : Nat) : (signBit w).getLsbD i = (decide (i < w) && decide (i = w - 1)) := by
  rw [signBit, BitVec.getLsbD_twoPow]
  by_cases h : i = w - 1
  · subst h; simp
  · simp [h, Ne.symm h]

/-- Two lanes that agree below the sign bit have the same bits below it, as a number. -/
theorem lowBits_congr {w : Nat} {a b : BitVec w} (h : ∀ i < w - 1, a.getLsbD i = b.getLsbD i) :
    lowBits a = lowBits b := by
  have hset : a.setWidth (w - 1) = b.setWidth (w - 1) := by
    apply BitVec.eq_of_getLsbD_eq
    intro i hi
    rw [BitVec.getLsbD_setWidth, BitVec.getLsbD_setWidth, h i hi]
  exact (BitVec.toNat_setWidth ..).symm.trans ((congrArg BitVec.toNat hset).trans (BitVec.toNat_setWidth ..))

section
variable {w : Nat} (a : BitVec w)

theorem msb_xor_signBit (hw : 0 < w) : (a ^^^ signBit w).msb = !a.msb := by
  rw [BitVec.msb_eq_getLsbD_last, BitVec.msb_eq_getLsbD_last, BitVec.getLsbD_xor, getLsbD_signBit,
    decide_eq_true (by omega : w - 1 < w), decide_eq_true rfl, Bool.and_self, Bool.xor_true]

theorem msb_and_not_signBit (hw : 0 < w) : (a &&& ~~~ signBit w).msb = false := by
  rw [BitVec.msb_eq_getLsbD_last, BitVec.getLsbD_and, BitVec.getLsbD_not, getLsbD_signBit,
    decide_eq_true (by omega : w - 1 < w), decide_eq_true rfl]
  simp

theorem lowBits_xor_signBit : lowBits (a ^^^ signBit w) = lowBits a :=
  lowBits_congr fun i hi => by
    rw [BitVec.getLsbD_xor, getLsbD_signBit, decide_eq_false hi.ne, Bool.and_false, Bool.xor_false]

theorem lowBits_and_not_signBit : lowBits (a &&& ~~~ signBit w) = lowBits a :=
  lowBits_congr fun i hi => by
    rw [BitVec.getLsbD_and, BitVec.getLsbD_not, getLsbD_signBit, decide_eq_false hi.ne,
      decide_eq_true (by omega : i < w)]
    simp

end

section
variable {k : Kind} (hk : k.isFloat = true)
include hk

theorem isNaN_floatFormat (a : BitVec k.width) : (floatFormat k).isNaN a = isNaNLane k a :=
  (floatFormat_encodes hk).isNaN_eq a

/-- A unary lane operation of each format with its canonical NaN. -/
theorem numericUnary_of_isFloat (int : (w : Nat) → BitVec w → BitVec w)
    (op : FloatFormat → {w : Nat} → BitVec w → BitVec w → BitVec w) :
    numericUnary int (op binary64 Config.nanF64) (op binary32 Config.nanF32) k
      = some (map1 k.width k.lanes (op (floatFormat k) (missing k))) := by
  cases k with
  | f64x2 | f32x4 => rfl
  | i32x4 | i16x8 | i8x16 | b2 | b4 | b8 | b16 => cases hk

/-- A binary lane operation of each format with its canonical NaN. -/
theorem numericBinary_of_isFloat_nan (int : (w : Nat) → BitVec w → BitVec w → BitVec w)
    (op : FloatFormat → {w : Nat} → BitVec w → BitVec w → BitVec w → BitVec w) :
    numericBinary int (op binary64 Config.nanF64) (op binary32 Config.nanF32) k
      = some (map2 k.width k.lanes (op (floatFormat k) (missing k))) := by
  cases k with
  | f64x2 | f32x4 => rfl
  | i32x4 | i16x8 | i8x16 | b2 | b4 | b8 | b16 => cases hk

theorem floatBinary_of_isFloat_nan (op : FloatFormat → {w : Nat} → BitVec w → BitVec w → BitVec w → BitVec w) :
    floatBinary (op binary64 Config.nanF64) (op binary32 Config.nanF32) k
      = some (map2 k.width k.lanes (op (floatFormat k) (missing k))) := by
  cases k with
  | f64x2 | f32x4 => rfl
  | i32x4 | i16x8 | i8x16 | b2 | b4 | b8 | b16 => cases hk

end

theorem negLane_eq {k : Kind} (hk : k.isFloat = true) (nan x : BitVec k.width) :
    (floatFormat k).negLane nan x = if isNaNLane k x then nan else x ^^^ signBit k.width := by
  rw [FloatFormat.negLane, isNaN_floatFormat hk]

theorem absLane_eq {k : Kind} (hk : k.isFloat = true) (nan x : BitVec k.width) :
    (floatFormat k).absLane nan x = if isNaNLane k x then nan else x &&& ~~~ signBit k.width := by
  rw [FloatFormat.absLane, isNaN_floatFormat hk]

/-- Settles O30: a NaN gives the canonical NaN, of any other lane only the sign bit changes. -/
theorem floatNegAbs : Obligations.FloatNegAbs := by
  intro k vd a s hk ha
  refine ⟨?_, ?_⟩
  · obtain ⟨r, hr, hv, -⟩ := unary_isVector vd (numericUnary_of_isFloat hk _ FloatFormat.negLane) ha
    refine ⟨r, hr, fun j hj => ?_⟩
    have hlane := (hv j hj).trans (negLane_eq hk _ _)
    refine ⟨fun hn => hlane.trans (if_pos hn), fun hn => ?_⟩
    rw [hlane, hn, if_neg Bool.false_ne_true]
    exact ⟨msb_xor_signBit _ k.width_pos, lowBits_xor_signBit _⟩
  · obtain ⟨r, hr, hv, -⟩ := unary_isVector vd (numericUnary_of_isFloat hk _ FloatFormat.absLane) ha
    refine ⟨r, hr, fun j hj => ?_⟩
    have hlane := (hv j hj).trans (absLane_eq hk _ _)
    refine ⟨fun hn => hlane.trans (if_pos hn), fun hn => ?_⟩
    rw [hlane, hn, if_neg Bool.false_ne_true]
    exact ⟨msb_and_not_signBit _ k.width_pos, lowBits_and_not_signBit _⟩

/-! ## Minimum and maximum -/

section
variable {F : FloatFormat} {w : Nat} (hF : F.Encodes w)
include hF

theorem FloatFormat.Encodes.isZero_eq (a : BitVec w) : F.isZero a = decide (orderKey a = 0) := by
  refine decide_eq_decide.2 ?_
  rw [orderKey_eq_zero_iff]
  constructor
  · rintro (h | h)
    · rw [hF.eq_pack_of_zero h, hF.lowBits_pack _ (Nat.two_pow_pos _)]
    · rw [hF.eq_pack_of_zero h, hF.lowBits_pack _ (Nat.two_pow_pos _)]
  · intro h
    rw [hF.unpack_eq, h, if_pos (F.infBits_pos hF.expBits_pos), F.unitsAt_zero]
    cases a.msb
    · exact .inl rfl
    · exact .inr rfl

/-- A zero is the sign bit or nothing. -/
theorem FloatFormat.Encodes.eq_of_orderKey_eq_zero {a : BitVec w} (h : orderKey a = 0) :
    a = if a.msb then signBit w else 0 := by
  have hlow := (orderKey_eq_zero_iff a).1 h
  conv_lhs => rw [← hF.pack_lowBits a, hlow]
  cases a.msb with
  | true =>
    apply BitVec.eq_of_toNat_eq
    rw [hF.toNat_pack _ (Nat.two_pow_pos _), if_pos rfl, if_pos rfl, signBit, BitVec.toNat_twoPow, Nat.add_zero,
      Nat.mod_eq_of_lt (Nat.pow_lt_pow_right (by decide) (by rw [hF.width_eq]; omega))]
  | false =>
    apply BitVec.eq_of_toNat_eq
    rw [hF.toNat_pack _ (Nat.two_pow_pos _), if_neg Bool.false_ne_true, if_neg Bool.false_ne_true]
    exact BitVec.toNat_zero.symm

end

/-- Of two zeros, a negative one if there is one (41_arithmetic.md R133). -/
theorem FloatFormat.Encodes.minZero_eq {F : FloatFormat} {w : Nat} (hF : F.Encodes w) {x y : BitVec w}
    (hx : orderKey x = 0) (hy : orderKey y = 0) :
    (if x.msb || y.msb then signBit w else 0) = if x.msb then x else y := by
  have hx' := hF.eq_of_orderKey_eq_zero hx
  have hy' := hF.eq_of_orderKey_eq_zero hy
  cases hm : x.msb with
  | true => rw [hm] at hx'; exact hx'.symm
  | false => exact hy'.symm

/-- Of two zeros, a positive one if there is one (41_arithmetic.md R134). -/
theorem FloatFormat.Encodes.maxZero_eq {F : FloatFormat} {w : Nat} (hF : F.Encodes w) {x y : BitVec w}
    (hx : orderKey x = 0) (hy : orderKey y = 0) :
    (if !x.msb || !y.msb then 0 else signBit w) = if x.msb then y else x := by
  have hx' := hF.eq_of_orderKey_eq_zero hx
  have hy' := hF.eq_of_orderKey_eq_zero hy
  cases hm : x.msb with
  | true =>
    rw [if_pos rfl]
    conv_rhs => rw [hy']
    cases y.msb <;> rfl
  | false => rw [hm] at hx'; exact hx'.symm

section
variable {k : Kind} (hk : k.isFloat = true)
include hk

/-- `lessThan` on lanes that are no NaN. -/
theorem lt_eq_of_not_nan {x y : BitVec k.width} (hn : ¬(isNaNLane k x || isNaNLane k y) = true) :
    (floatFormat k).lt x y = decide (orderKey x < orderKey y) :=
  ((floatFormat_encodes hk).lt_eq x y).trans (if_neg hn)

/-- MIN of lanes by their bits. -/
theorem minLane_eq (nan x y : BitVec k.width) :
    (floatFormat k).minLane nan x y = if isNaNLane k x || isNaNLane k y then nan
      else if orderKey x = 0 ∧ orderKey y = 0 then (if x.msb then x else y)
      else if orderKey x < orderKey y then x else y := by
  have hF := floatFormat_encodes hk
  rw [FloatFormat.minLane, isNaN_floatFormat hk, isNaN_floatFormat hk, hF.isZero_eq, hF.isZero_eq, ← Bool.decide_and]
  simp only [decide_eq_true_eq]
  refine if_ctx_congr Iff.rfl (fun _ => rfl) fun hn => ?_
  refine if_ctx_congr Iff.rfl (fun hz => hF.minZero_eq hz.1 hz.2) fun _ => ?_
  rw [lt_eq_of_not_nan hk hn]
  simp only [decide_eq_true_eq]

/-- MAX of lanes by their bits. -/
theorem maxLane_eq (nan x y : BitVec k.width) :
    (floatFormat k).maxLane nan x y = if isNaNLane k x || isNaNLane k y then nan
      else if orderKey x = 0 ∧ orderKey y = 0 then (if x.msb then y else x)
      else if orderKey x > orderKey y then x else y := by
  have hF := floatFormat_encodes hk
  rw [FloatFormat.maxLane, isNaN_floatFormat hk, isNaN_floatFormat hk, hF.isZero_eq, hF.isZero_eq, ← Bool.decide_and]
  simp only [decide_eq_true_eq]
  refine if_ctx_congr Iff.rfl (fun _ => rfl) fun hn => ?_
  refine if_ctx_congr Iff.rfl (fun hz => hF.maxZero_eq hz.1 hz.2) fun _ => ?_
  rw [lt_eq_of_not_nan hk (by rwa [Bool.or_comm])]
  simp only [decide_eq_true_eq, gt_iff_lt]

theorem minNumLane_eq (nan x y : BitVec k.width) : (floatFormat k).minNumLane nan x y =
    if isNaNLane k x && isNaNLane k y then nan else if isNaNLane k x then y else if isNaNLane k y then x
    else (floatFormat k).minLane nan x y := by
  rw [FloatFormat.minNumLane, isNaN_floatFormat hk, isNaN_floatFormat hk]

theorem maxNumLane_eq (nan x y : BitVec k.width) : (floatFormat k).maxNumLane nan x y =
    if isNaNLane k x && isNaNLane k y then nan else if isNaNLane k x then y else if isNaNLane k y then x
    else (floatFormat k).maxLane nan x y := by
  rw [FloatFormat.maxNumLane, isNaN_floatFormat hk, isNaN_floatFormat hk]

end

/-- Settles O31. -/
theorem floatMinMax : Obligations.FloatMinMax := by
  intro k vd a b s hk ha hb
  refine ⟨?_, ?_⟩
  · obtain ⟨r, hr, hv⟩ := binary_isVector vd (numericBinary_of_isFloat_nan hk _ FloatFormat.minLane) ha hb
    exact ⟨r, hr, hv.congr fun _ _ => minLane_eq hk _ _ _⟩
  · obtain ⟨r, hr, hv⟩ := binary_isVector vd (numericBinary_of_isFloat_nan hk _ FloatFormat.maxLane) ha hb
    exact ⟨r, hr, hv.congr fun _ _ => maxLane_eq hk _ _ _⟩

/-- Settles O32: where no operand is a NaN the lane is that of MIN or MAX. -/
theorem floatMinnumMaxnum : Obligations.FloatMinnumMaxnum := by
  intro k vd a b s hk ha hb
  refine ⟨?_, ?_⟩
  · obtain ⟨r, hr, hv⟩ := binary_isVector vd (floatBinary_of_isFloat_nan hk FloatFormat.minNumLane) ha hb
    obtain ⟨q, hq, hw⟩ := binary_isVector vd (numericBinary_of_isFloat_nan hk _ FloatFormat.minLane) ha hb
    refine ⟨r, q, hr, hq, hv.congr fun j hj => ?_⟩
    dsimp only
    rw [hw.1 j hj]
    exact minNumLane_eq hk _ _ _
  · obtain ⟨r, hr, hv⟩ := binary_isVector vd (floatBinary_of_isFloat_nan hk FloatFormat.maxNumLane) ha hb
    obtain ⟨q, hq, hw⟩ := binary_isVector vd (numericBinary_of_isFloat_nan hk _ FloatFormat.maxLane) ha hb
    refine ⟨r, q, hr, hq, hv.congr fun j hj => ?_⟩
    dsimp only
    rw [hw.1 j hj]
    exact maxNumLane_eq hk _ _ _

end Sys2Proof.Machine
